-- ==== Sys2Proof/Word.lean ====
section
/-! DEFINITION. The word types of the core (00_scope.md R8 to R10): all values are unsigned and of a stated width. -/

namespace Sys2Proof

/-- A byte of a header, an `op` field or an `arg` field. -/
abbrev Byte := BitVec 8

/-- A symbol, "a single byte value (0–255)" (R8: SYMW = 8). -/
abbrev Symbol := BitVec 8

/-- One entry of the Frequency Table (R8: CNTW = 16; R22). -/
abbrev Count := BitVec 16

/-- A node weight, TOTAL, and the value field of a response (R8: WW = 24; R23, R33, R95). -/
abbrev Weight := BitVec 24

/-- A node index (R8: IDXW = 9; R32). -/
abbrev NodeIdx := BitVec 9

/-- A command word (R8: CMDW = 16; R90). -/
abbrev CmdWord := BitVec 16

/-- A response word (R8: RSPW = 32; R95). -/
abbrev RspWord := BitVec 32

end Sys2Proof
end

