-- ==== Sys2Proof/Syntax.lean ====
section
/-! DEFINITION. The eleven commands, one constructor per row of spec/opcode_table.json (30_encoding.md R93). -/

namespace Sys2Proof

/-- The commands of R93. A command of format S carries its symbol, RDSR (format R) its register number as `arg` gives
it, a command of format N nothing (R91, R92). -/
inductive Instr where
  /-- R191: do nothing. -/
  | nop
  /-- R120: clear the Frequency Table. -/
  | fclr
  /-- R122: count one occurrence of symbol `s`. -/
  | finc (s : Symbol)
  /-- R124: read the count of symbol `s`. -/
  | frd (s : Symbol)
  /-- R141: build the tree from the table. -/
  | build
  /-- R161: emit the code of symbol `s` to BOUT. -/
  | enc (s : Symbol)
  /-- R171: decode one symbol from BIN. -/
  | dec
  /-- R181: write the 512-byte header to HOUT. -/
  | hser
  /-- R184: read the 512-byte header from HIN. -/
  | hdes
  /-- R192: read status register `r`. -/
  | rdsr (r : Byte)
  /-- R193: soft reset. -/
  | srst
deriving DecidableEq, Repr

end Sys2Proof
end

