-- ==== Sys2Proof/WellFormed.lean ====
section
/-! DEFINITION. Which commands are well formed: the operand ranges of 30_encoding.md R91. -/

namespace Sys2Proof

/-- The legal operands of R91: every symbol in format S, a register number 0x00 to 0x06 in format R; a format N command
has no operand to check. -/
def Instr.wellFormed : Instr → Bool
  | .nop => true
  | .fclr => true
  | .finc _ => true
  | .frd _ => true
  | .build => true
  | .enc _ => true
  | .dec => true
  | .hser => true
  | .hdes => true
  | .rdsr r => decide (r ≤ 0x06#8)
  | .srst => true

/-- The same check as a proposition. -/
abbrev Instr.WellFormed (i : Instr) : Prop := i.wellFormed = true

end Sys2Proof
end

