-- ==== Sys2Proof/Decode.lean ====
section
/-! DEFINITION. The command word (30_encoding.md R90 to R94): decoder, encoder, and the opcode map as rows. -/

namespace Sys2Proof

/-- Why a command word is illegal: the three cases of R94, each by name. -/
inductive Reject where
  /-- R94 (a): `op` is none of the eleven values of R93. -/
  | unknownOpcode (op : Byte)
  /-- R94 (b): `op` is of format N and `arg` is not 0x00. -/
  | nonzeroArg (op : Byte) (arg : Byte)
  /-- R94 (c): `op` is RDSR and `arg` is 0x07 or more. -/
  | reservedRegister (r : Byte)
deriving DecidableEq, Repr

/-- The field `op`, bits 15:8 of a command word (R90). -/
def opField (c : CmdWord) : Byte := c.extractLsb' 8 8

/-- The field `arg`, bits 7:0 of a command word (R90). -/
def argField (c : CmdWord) : Byte := c.extractLsb' 0 8

/-- Format N (R91): the operand field must be 0x00. -/
def decodeN (op arg : Byte) (i : Instr) : Except Reject Instr :=
  if arg = 0x00#8 then .ok i else .error (.nonzeroArg op arg)

/-- Format R (R91): register numbers 0x00 to 0x06. -/
def decodeR (arg : Byte) : Except Reject Instr :=
  if arg ≤ 0x06#8 then .ok (.rdsr arg) else .error (.reservedRegister arg)

/-- The opcode map of R93 on the two fields; every other word is illegal (R94). -/
def decodeFields (op arg : Byte) : Except Reject Instr :=
  if op = 0x00#8 then decodeN op arg .nop
  else if op = 0x10#8 then decodeN op arg .fclr
  else if op = 0x11#8 then .ok (.finc arg)
  else if op = 0x12#8 then .ok (.frd arg)
  else if op = 0x20#8 then decodeN op arg .build
  else if op = 0x30#8 then .ok (.enc arg)
  else if op = 0x31#8 then decodeN op arg .dec
  else if op = 0x40#8 then decodeN op arg .hser
  else if op = 0x41#8 then decodeN op arg .hdes
  else if op = 0xF0#8 then decodeR arg
  else if op = 0xFF#8 then decodeN op arg .srst
  else .error (.unknownOpcode op)

/-- Decoding is total on all 65536 command words (R93, R94). -/
def decode (c : CmdWord) : Except Reject Instr := decodeFields (opField c) (argField c)

/-- The opcode value of each command (R93, D3). -/
def Instr.op : Instr → Byte
  | .nop => 0x00#8
  | .fclr => 0x10#8
  | .finc _ => 0x11#8
  | .frd _ => 0x12#8
  | .build => 0x20#8
  | .enc _ => 0x30#8
  | .dec => 0x31#8
  | .hser => 0x40#8
  | .hdes => 0x41#8
  | .rdsr _ => 0xF0#8
  | .srst => 0xFF#8

/-- The operand field of each command: the symbol, the register number, or 0x00 (R91, R92). -/
def Instr.arg : Instr → Byte
  | .nop => 0x00#8
  | .fclr => 0x00#8
  | .finc s => s
  | .frd s => s
  | .build => 0x00#8
  | .enc s => s
  | .dec => 0x00#8
  | .hser => 0x00#8
  | .hdes => 0x00#8
  | .rdsr r => r
  | .srst => 0x00#8

/-- The command word, `op ++ arg` (R90, R101). -/
def encode (i : Instr) : CmdWord := i.op ++ i.arg

/-- A row of the opcode map: a word `c` selects it when `c AND mask = pattern` (R93). -/
structure OpRow where
  mnemonic : String
  pattern : CmdWord
  mask : CmdWord
deriving DecidableEq, Repr

/-- The opcode map of R93 as rows, in the order of spec/opcode_table.json. -/
def opcodeRows : List OpRow :=
  [⟨"NOP", 0x0000#16, 0xFFFF#16⟩, ⟨"FCLR", 0x1000#16, 0xFFFF#16⟩, ⟨"FINC", 0x1100#16, 0xFF00#16⟩,
   ⟨"FRD", 0x1200#16, 0xFF00#16⟩, ⟨"BUILD", 0x2000#16, 0xFFFF#16⟩, ⟨"ENC", 0x3000#16, 0xFF00#16⟩,
   ⟨"DEC", 0x3100#16, 0xFFFF#16⟩, ⟨"HSER", 0x4000#16, 0xFFFF#16⟩, ⟨"HDES", 0x4100#16, 0xFFFF#16⟩,
   ⟨"RDSR", 0xF000#16, 0xFF00#16⟩, ⟨"SRST", 0xFF00#16, 0xFFFF#16⟩]

/-- The row of `opcodeRows` that a command belongs to. -/
def Instr.row : Instr → OpRow
  | .nop => ⟨"NOP", 0x0000#16, 0xFFFF#16⟩
  | .fclr => ⟨"FCLR", 0x1000#16, 0xFFFF#16⟩
  | .finc _ => ⟨"FINC", 0x1100#16, 0xFF00#16⟩
  | .frd _ => ⟨"FRD", 0x1200#16, 0xFF00#16⟩
  | .build => ⟨"BUILD", 0x2000#16, 0xFFFF#16⟩
  | .enc _ => ⟨"ENC", 0x3000#16, 0xFF00#16⟩
  | .dec => ⟨"DEC", 0x3100#16, 0xFFFF#16⟩
  | .hser => ⟨"HSER", 0x4000#16, 0xFFFF#16⟩
  | .hdes => ⟨"HDES", 0x4100#16, 0xFFFF#16⟩
  | .rdsr _ => ⟨"RDSR", 0xF000#16, 0xFF00#16⟩
  | .srst => ⟨"SRST", 0xFF00#16, 0xFFFF#16⟩

/-- The command word that the `nbits` bits of `w` are, every bit above them 0; there is one length, 16 bits (R90). -/
def tableWord (nbits w : Nat) : CmdWord := BitVec.ofNat 16 (w % 2 ^ nbits)

/-- The instruction the decoder reads from a word of the opcode table, none where it refuses. A command word crosses
its port whole, so there is no byte order to lay it out in (R69). -/
def decodeTableWord (nbits w : Nat) : Option Instr :=
  match decode (tableWord nbits w) with
  | .ok i => some i
  | .error _ => none

end Sys2Proof
end

