-- ==== Sys2Proof/Config.lean ====
section
/-! DEFINITION. The parameters of R8 that are not just widths, and the free values: constants without a body that stand
for what the spec leaves unspecified. No proof can see a value of them. -/

namespace Sys2Proof.Config

/-- NSYM of R8: the number of symbols, which is also the number of entries of FREQ and of LEAF. -/
abbrev nsym : Nat := 256

/-- MAXNODES of R8: the capacity of the node arena, 2 * NSYM - 1. -/
abbrev maxNodes : Nat := 511

/-- MAXDEPTH of R8: the largest possible code length, NSYM - 1; PATH holds that many bits (R38). -/
abbrev maxDepth : Nat := 255

/-- CNTMAX of R8: the largest count an entry holds. -/
abbrev cntMax : Count := 0xFFFF#16

/-- HDRBYTES of R8: the size of the header block in bytes. -/
abbrev hdrBytes : Nat := 512

/-- NIL of R8: the node index that means "no node". -/
abbrev nil : NodeIdx := 0x1FF#9

/-! Free values of the memories that a reset leaves unspecified (R41, R193, U20; log 2). The first argument is the
number of resets carried out before, so every reset draws afresh. -/

/-- FREQ[s] after a reset. -/
opaque freeCount : Nat → Symbol → Count
/-- LEAF[s] after a reset. -/
opaque freeLeaf : Nat → Symbol → NodeIdx
/-- NODE[n].w after a reset. -/
opaque freeW : Nat → Nat → Weight
/-- NODE[n].sym after a reset. -/
opaque freeSym : Nat → Nat → Option Symbol
/-- NODE[n].zero after a reset. -/
opaque freeZero : Nat → Nat → NodeIdx
/-- NODE[n].one after a reset. -/
opaque freeOne : Nat → Nat → NodeIdx
/-- NODE[n].parent after a reset. -/
opaque freeParent : Nat → Nat → NodeIdx

/-! Free values of a port that answered `fail` (R67, U28; log 8). The argument is the number of requests made on the
port before the failing one. -/

/-- What stands in HOUT behind the bytes it had accepted. -/
opaque doubtHout : Nat → List Byte
/-- What stands in BOUT behind the bits it had accepted. -/
opaque doubtBout : Nat → List Bool
/-- The unread part of HIN. -/
opaque doubtHin : Nat → List Byte
/-- How far the read position of HIN moved into that part. -/
opaque doubtHpos : Nat → Nat
/-- The unread part of BIN. -/
opaque doubtBin : Nat → List Bool
/-- How far the read position of BIN moved into that part. -/
opaque doubtBpos : Nat → Nat

end Sys2Proof.Config
end

