-- ==== Sys2Proof/Machine/State.lean ====
section
/-! DEFINITION. The state of the core (10_state.md R20), of its four ports (20_memory.md R61) and of the host's side of
the command and response ports (00_scope.md R6, R7), as plain data; and the two types of the model's own stops. -/

namespace Sys2Proof.Machine

open Sys2Proof

/-- A node record (R33). `sym` is `none` on an internal node and on the placeholder root: it holds no value that any
rule may read. -/
structure Node where
  w : Weight
  sym : Option Symbol
  zero : NodeIdx
  one : NodeIdx
  parent : NodeIdx
deriving DecidableEq, Repr

/-- The state S of the core: exactly the table of R20. -/
structure CoreState where
  /-- FREQ, the Frequency Table (R22). -/
  freq : Vector Count 256
  /-- TOTAL (R23). -/
  total : Weight
  /-- TI, table initialised (R25). -/
  ti : Bool
  /-- TV, tree valid (R26). -/
  tv : Bool
  /-- FAULT (R27). -/
  fault : Bool
  /-- ERRCODE (R27, R29). -/
  errcode : BitVec 8
  /-- ERRCMD (R27, R29). -/
  errcmd : CmdWord
  /-- NLEAF (R30). -/
  nleaf : BitVec 9
  /-- NNODES (R30). -/
  nnodes : BitVec 9
  /-- ROOT (R30). -/
  root : NodeIdx
  /-- NODE, the arena (R32, R33). -/
  node : Vector Node 511
  /-- LEAF, the leaf-by-symbol table (R34). -/
  leaf : Vector NodeIdx 256
deriving DecidableEq, Repr

/-- What the environment answers to one transfer request besides the stream's own contents: it serves it, or it reports
an I/O failure (R67). -/
inductive Answer where
  | serves
  | fails
deriving DecidableEq, Repr

/-- An input port (R61): the sequence `data`, the read position `pos`. The model's own: `plan`, the answers to the
coming requests, all `serves` once the list is used up (log 7); `asked`, the number of requests so far (log 8). -/
structure InPort (α : Type) where
  data : List α
  pos : Nat
  plan : List Answer
  asked : Nat
deriving DecidableEq, Repr

/-- An output port (R61): the sequence `data` written so far. `plan` and `asked` as in `InPort`. -/
structure OutPort (α : Type) where
  data : List α
  plan : List Answer
  asked : Nat
deriving DecidableEq, Repr

/-- The state E of the four ports (R61): hin and hpos, hout, bin and bpos, bout. -/
structure Ports where
  hin : InPort Byte
  hout : OutPort Byte
  bin : InPort Bool
  bout : OutPort Bool
deriving DecidableEq, Repr

/-- A move of the host. -/
inductive HostMove where
  /-- Issue a command word (R6). -/
  | command (c : CmdWord)
  /-- Assert the reset input between two commands (R260, R261). -/
  | hardReset
  /-- Issue a command word and assert the reset input during the command, after at most `made` of its transfers
  (R262). -/
  | commandCut (c : CmdWord) (made : Nat)
deriving DecidableEq, Repr

/-- The whole state of the model. -/
structure State where
  /-- S of R20. -/
  core : CoreState
  /-- E of R61. -/
  ports : Ports
  /-- The moves the host has still to make, oldest first (R43: not state of the core). -/
  inbox : List HostMove
  /-- The response words delivered so far, oldest first (R7). -/
  responses : List RspWord
  /-- The number of resets carried out so far; it numbers the free values of log 2. -/
  resets : Nat
deriving DecidableEq, Repr

/-- The ways the model itself stops. The spec's own faults (60_exceptions.md R221) are none of these: they are next
states. Each is raised only in a state whose arena breaks R35 while TV = 1, which no run reaches; each is safe. -/
inductive Fault where
  /-- Raised by ENC and DEC when a link leads to index 511, which names no node (R32). Safe. -/
  | noSuchNode
  /-- Raised by ENC and DEC when a walk would take more than the 255 steps of R161 and R171. Safe. -/
  | walkTooLong
  /-- Raised by DEC when the childless node it reaches holds no symbol (R33: a value no rule may read). Safe. -/
  | noSymbol
deriving DecidableEq, Repr

/-- The ways the model declines to give a meaning. -/
inductive Refusal where
  /-- Raised by `exec` for an instruction that has no meaning yet; no arm does so. Safe. -/
  | notModelled (mnemonic : String)
deriving DecidableEq, Repr

/-- The record an arena entry holds in `State.reset` (log 1). -/
def Node.blank : Node := { w := 0#24, sym := none, zero := 0#9, one := 0#9, parent := 0#9 }

/-- The core after a hard reset (R41). FREQ, NODE and LEAF are unspecified there; the values here are the model's
(DESIGN CHOICE, log 1). -/
def CoreState.reset : CoreState :=
  { freq := Vector.replicate 256 0#16
    total := 0#24
    ti := false
    tv := false
    fault := false
    errcode := 0x00#8
    errcmd := 0x0000#16
    nleaf := 0#9
    nnodes := 0#9
    root := 0x1FF#9
    node := Vector.replicate 511 Node.blank
    leaf := Vector.replicate 256 0#9 }

/-- The ports at the start of a run: positions 0, nothing written (R61); nothing supplied and no failure planned
(DESIGN CHOICE, log 6 and log 7). -/
def Ports.reset : Ports :=
  { hin := { data := [], pos := 0, plan := [], asked := 0 }
    hout := { data := [], plan := [], asked := 0 }
    bin := { data := [], pos := 0, plan := [], asked := 0 }
    bout := { data := [], plan := [], asked := 0 } }

/-- The machine right after a hard reset (R41, R61, R260), the host having made no move yet (log 3). -/
def State.reset : State :=
  { core := CoreState.reset, ports := Ports.reset, inbox := [], responses := [], resets := 0 }

end Sys2Proof.Machine
end

