-- ==== Sys2Proof/Machine/Operands.lean ====
section
/-! DEFINITION. The accessors of the register file, the arena and the leaf table, the operand forms of
30_encoding.md R91 and R92, and the register map of 10_state.md R29. -/

namespace Sys2Proof.Machine

open Sys2Proof

/-- The symbols 0, 1, ..., 255 in ascending order: the order of every loop over the table (R120, R141, R181, R184). -/
def allSymbols : List Symbol := (List.range 256).map (BitVec.ofNat 8)

/-- FREQ[s] (R22). -/
def CoreState.count (c : CoreState) (s : Symbol) : Count := c.freq[s.toNat]'(s.isLt)

/-- FREQ[s] <- v (R22). -/
def CoreState.setCount (c : CoreState) (s : Symbol) (v : Count) : CoreState :=
  { c with freq := c.freq.set s.toNat v s.isLt }

/-- LEAF[s] (R34). -/
def CoreState.leafOf (c : CoreState) (s : Symbol) : NodeIdx := c.leaf[s.toNat]'(s.isLt)

/-- NODE[n] (R32); `none` exactly for index 511, NIL, which names no node. -/
def CoreState.nodeAt (c : CoreState) (n : NodeIdx) : Option Node := c.node[n.toNat]?

/-- The status registers of R29. -/
inductive StatusReg where
  | status
  | errcode
  | errcmd
  | total
  | nleaf
  | nnodes
  | root
deriving DecidableEq, Repr

/-- The register number of format R (R29, R91): 0 to 6; the numbers 7 to 255 are reserved. -/
def statusReg (r : Byte) : Option StatusReg :=
  if r = 0#8 then some .status
  else if r = 1#8 then some .errcode
  else if r = 2#8 then some .errcmd
  else if r = 3#8 then some .total
  else if r = 4#8 then some .nleaf
  else if r = 5#8 then some .nnodes
  else if r = 6#8 then some .root
  else none

/-- `zext_N` of R10. -/
def zext24 {n : Nat} (v : BitVec n) : Weight := v.setWidth 24

end Sys2Proof.Machine
end

