-- ==== Sys2Proof/Machine/Flags.lean ====
section
/-! DEFINITION. The derived flags EMPTY and SINGLE, the STATUS view, and the value of each status register
(10_state.md R28, R29, R31). The core has no condition codes (R24). -/

namespace Sys2Proof.Machine

open Sys2Proof

/-- EMPTY: the valid tree is the placeholder root (R31). -/
def CoreState.empty (c : CoreState) : Bool := c.tv && decide (c.nleaf = 0#9)

/-- SINGLE: the valid tree is the degenerate one-leaf tree (R31). -/
def CoreState.single (c : CoreState) : Bool := c.tv && decide (c.nleaf = 1#9)

/-- STATUS: FAULT ++ 0b000 ++ SINGLE ++ EMPTY ++ TV ++ TI (R28, R192). -/
def CoreState.status (c : CoreState) : BitVec 8 :=
  BitVec.ofBool c.fault ++ 0b000#3 ++ BitVec.ofBool c.single ++ BitVec.ofBool c.empty ++ BitVec.ofBool c.tv
    ++ BitVec.ofBool c.ti

/-- The value of a status register, zero-extended to 24 bits (R29, R192). -/
def CoreState.regValue (c : CoreState) : StatusReg → Weight
  | .status => zext24 c.status
  | .errcode => zext24 c.errcode
  | .errcmd => zext24 c.errcmd
  | .total => c.total
  | .nleaf => zext24 c.nleaf
  | .nnodes => zext24 c.nnodes
  | .root => zext24 c.root

end Sys2Proof.Machine
end

