-- ==== Sys2Proof/Machine/Ops.lean ====
section
/-! DEFINITION. The shared operations: response codes, responding and taking a fault (60_exceptions.md R221, R231 to
R233), the four transfer primitives (20_memory.md R62 to R67), and reset (70_reset_and_hazards.md R260 to R263). -/

namespace Sys2Proof.Machine

open Sys2Proof

/-! ## Responses and faults -/

/-- The response codes of R221. -/
inductive Code where
  | ok
  | illegal
  | faulted
  | noTable
  | noTree
  | empty
  | noLeaf
  | countOvf
  | bitEof
  | hdrShort
  | io
deriving DecidableEq, Repr

/-- The numbers of the response codes (R221, D18). -/
def Code.bits : Code → BitVec 8
  | .ok => 0x00#8
  | .illegal => 0x01#8
  | .faulted => 0x02#8
  | .noTable => 0x03#8
  | .noTree => 0x04#8
  | .empty => 0x05#8
  | .noLeaf => 0x06#8
  | .countOvf => 0x07#8
  | .bitEof => 0x08#8
  | .hdrShort => 0x09#8
  | .io => 0x0A#8

/-- The response word, `code ++ value` (R13, R95). -/
def responseWord (code : Code) (value : Weight) : RspWord := code.bits ++ value

/-- `respond(code, value)`: deliver the one response of the command (R13, R95). -/
def respond (code : Code) (value : Weight) (s : State) : State :=
  { s with responses := s.responses ++ [responseWord code value] }

/-- The fault entry of R232: the first fault since reset is recorded, a later one changes nothing (R239). -/
def CoreState.faultEntry (c : CoreState) (w : CmdWord) (e : Code) : CoreState :=
  if c.fault then c else { c with errcode := e.bits, errcmd := w, fault := true }

/-- TAKING A FAULT, `raise e` in the command whose word is `w` (R232): fault entry, then `respond(e, 0)`. There is no
handler and no return (R194, R238): the way out is a reset, `resetCore`. -/
def raise (w : CmdWord) (e : Code) (s : State) : State :=
  respond e 0#24 { s with core := s.core.faultEntry w e }

/-- How the body of a command ends: with a value, with a fault of R221, or in a stop of the model's own. -/
inductive Result (α : Type) where
  | done (a : α) (s : State)
  | raised (e : Code) (s : State)
  | stuck (f : Fault)
deriving DecidableEq, Repr

/-- Statements after a taken `raise` are not executed (R13). -/
def Result.bind {α β : Type} (r : Result α) (k : α → State → Result β) : Result β :=
  match r with
  | .done a s => k a s
  | .raised e s => .raised e s
  | .stuck f => .stuck f

/-- `require c else e` (R13). -/
def require {α : Type} (c : Bool) (e : Code) (s : State) (k : Result α) : Result α :=
  if c then k else .raised e s

/-- The end of a command: `respond(OK, v)`, or the fault (R13, R95, R232). -/
def finish (w : CmdWord) : Result Weight → Host.Outcome State Fault Refusal
  | .done v s => .next (respond .ok v s)
  | .raised e s => .next (raise w e s)
  | .stuck f => .fault f

/-- Check 1 of R231, the FAULT gate: with FAULT = 1 only the opcodes of NOP, RDSR and SRST pass. -/
def gateCloses (w : CmdWord) (c : CoreState) : Bool :=
  c.fault && !(opField w == 0x00#8 || opField w == 0xF0#8 || opField w == 0xFF#8)

/-- A command with word `w`: the FAULT gate first, which answers E_FAULTED and has no effect (R231, R233), then the
command's own body. -/
def runBody (w : CmdWord) (body : State → Result Weight) (s : State) : Host.Outcome State Fault Refusal :=
  if gateCloses w s.core then .next (respond .faulted 0#24 s) else finish w (body s)

/-- Check 2 of R231: an illegal word raises E_ILLEGAL and does nothing else (R94, R222). -/
def illegalBody (s : State) : Result Weight := .raised .illegal s

/-! ## Transfers -/

/-- The outcome of a read request (R62, R64). -/
inductive Read (α : Type) where
  | unit (v : α)
  | eof
  | fail
deriving DecidableEq, Repr

/-- One read request (R62, R64, R67). A served request takes the next unit and advances the position, or answers `eof`
and moves nothing. A failed one leaves the port unconstrained behind what was read: `rest` stands for the unread part
and `move` for how far into it the position got (log 8). -/
def InPort.read {α : Type} (rest : Nat → List α) (move : Nat → Nat) (p : InPort α) : Read α × InPort α :=
  match p.plan with
  | .fails :: plan =>
    (.fail, { data := p.data.take p.pos ++ rest p.asked, pos := p.pos + min (move p.asked) (rest p.asked).length,
              plan := plan, asked := p.asked + 1 })
  | _ =>
    match p.data[p.pos]? with
    | some v => (.unit v, { p with pos := p.pos + 1, plan := p.plan.tail, asked := p.asked + 1 })
    | none => (.eof, { p with plan := p.plan.tail, asked := p.asked + 1 })

/-- One write request (R63, R65, R67): `true` when it was accepted. After a failure the units accepted before stay and
what stands behind them is `tail` (log 8). -/
def OutPort.write {α : Type} (tail : Nat → List α) (v : α) (p : OutPort α) : Bool × OutPort α :=
  match p.plan with
  | .fails :: plan => (false, { data := p.data ++ tail p.asked, plan := plan, asked := p.asked + 1 })
  | _ => (true, { data := p.data ++ [v], plan := p.plan.tail, asked := p.asked + 1 })

/-- `ByteIn()` in HDES: `eof` raises E_HDR_SHORT, `fail` raises E_IO (R62, R184). -/
def byteIn (s : State) : Result Byte :=
  match s.ports.hin.read Config.doubtHin Config.doubtHpos with
  | (.unit v, p) => .done v { s with ports := { s.ports with hin := p } }
  | (.eof, p) => .raised .hdrShort { s with ports := { s.ports with hin := p } }
  | (.fail, p) => .raised .io { s with ports := { s.ports with hin := p } }

/-- `BitIn()` in DEC: `eof` raises E_BIT_EOF, `fail` raises E_IO (R64, R171). -/
def bitIn (s : State) : Result Bool :=
  match s.ports.bin.read Config.doubtBin Config.doubtBpos with
  | (.unit b, p) => .done b { s with ports := { s.ports with bin := p } }
  | (.eof, p) => .raised .bitEof { s with ports := { s.ports with bin := p } }
  | (.fail, p) => .raised .io { s with ports := { s.ports with bin := p } }

/-- `ByteOut(v)` in HSER: `fail` raises E_IO (R63, R181). -/
def byteOut (v : Byte) (s : State) : Result Unit :=
  match s.ports.hout.write Config.doubtHout v with
  | (true, p) => .done () { s with ports := { s.ports with hout := p } }
  | (false, p) => .raised .io { s with ports := { s.ports with hout := p } }

/-- `BitOut(b)` in ENC: `fail` raises E_IO (R65, R161). -/
def bitOut (b : Bool) (s : State) : Result Unit :=
  match s.ports.bout.write Config.doubtBout b with
  | (true, p) => .done () { s with ports := { s.ports with bout := p } }
  | (false, p) => .raised .io { s with ports := { s.ports with bout := p } }

/-! ## Reset -/

/-- The core after reset number `k` (R41, R193, R261): the registers at the values of R41, the memories unspecified,
that is, free values (log 2). -/
def coreAfterReset (k : Nat) : CoreState :=
  { freq := Vector.ofFn fun i => Config.freeCount k (BitVec.ofNat 8 i.val)
    total := 0#24
    ti := false
    tv := false
    fault := false
    errcode := 0x00#8
    errcmd := 0x0000#16
    nleaf := 0#9
    nnodes := 0#9
    root := 0x1FF#9
    node := Vector.ofFn fun i =>
      { w := Config.freeW k i.val, sym := Config.freeSym k i.val, zero := Config.freeZero k i.val,
        one := Config.freeOne k i.val, parent := Config.freeParent k i.val }
    leaf := Vector.ofFn fun i => Config.freeLeaf k (BitVec.ofNat 8 i.val) }

/-- Reset: the core goes to the reset state; no port is touched and nothing is delivered (R260, R261, R263). -/
def resetCore (s : State) : State :=
  { s with core := coreAfterReset s.resets, resets := s.resets + 1 }

/-- The input port after the first `k` of the requests that took it from `p` to `q` (R262). -/
def InPort.cut {α : Type} (k : Nat) (p q : InPort α) : InPort α :=
  if k < q.asked - p.asked then { p with pos := p.pos + k, plan := p.plan.drop k, asked := p.asked + k } else q

/-- The output port after the first `k` of the requests that took it from `p` to `q` (R262). -/
def OutPort.cut {α : Type} (k : Nat) (p q : OutPort α) : OutPort α :=
  if k < q.asked - p.asked then
    { data := p.data ++ (q.data.drop p.data.length).take k, plan := p.plan.drop k, asked := p.asked + k }
  else q

/-- The ports after the first `k` requests of a command that took them from `p` to `q`; a command uses one port (R66). -/
def Ports.cut (k : Nat) (p q : Ports) : Ports :=
  { hin := p.hin.cut k q.hin, hout := p.hout.cut k q.hout, bin := p.bin.cut k q.bin, bout := p.bout.cut k q.bout }

/-- A hard reset during a command that, left alone, would end in `o` (R262): the command is abandoned and gets no
response, its first `k` transfers stay made, the core is in the reset state. -/
def cutByReset (k : Nat) (s : State) (o : Host.Outcome State Fault Refusal) : State :=
  match o with
  | .next t => resetCore { s with ports := Ports.cut k s.ports t.ports }
  | .fault _ => resetCore s
  | .refused _ => resetCore s

end Sys2Proof.Machine
end

