-- ==== Sys2Proof/Machine/Build.lean ====
section
/-! DEFINITION. The tree builder BUILD (41_build.md R140 to R151): load phase, priority queue, merge phase. -/

namespace Sys2Proof.Machine

open Sys2Proof

/-- An element of the queue Q: a node index `n` with its key, `(w, n)`, where `w` is the node's weight, which nothing
changes after the node is created (R37, R143; log 14). -/
structure QEntry where
  w : Weight
  n : NodeIdx
deriving DecidableEq, Repr

/-- The order of Q: weight first, then the index, both unsigned (R143). -/
def QEntry.before (x y : QEntry) : Bool :=
  decide (x.w < y.w) || (decide (x.w = y.w) && decide (x.n < y.n))

/-- `extract_min`: the element that comes before every other, and the queue without it (R143). -/
def extractMin : List QEntry → Option (QEntry × List QEntry)
  | [] => none
  | x :: rest =>
    match extractMin rest with
    | none => some (x, [])
    | some (m, others) => if x.before m then some (x, rest) else some (m, x :: others)

/-- What BUILD works on: the arena and the leaf table, the fill counter `n`, the queue (R37, R40, R140). -/
structure BuildState where
  node : Vector Node 511
  leaf : Vector NodeIdx 256
  n : Nat
  q : List QEntry
deriving DecidableEq, Repr

/-- The load phase for one symbol with count `cnt` (R141, R142). -/
def loadSymbol (cnt : Count) (sym : Symbol) (b : BuildState) : BuildState :=
  if cnt = 0#16 then { b with leaf := b.leaf.set sym.toNat Config.nil sym.isLt }
  else
    { node := b.node.setIfInBounds b.n
        { w := zext24 cnt, sym := some sym, zero := Config.nil, one := Config.nil, parent := Config.nil }
      leaf := b.leaf.set sym.toNat (BitVec.ofNat 9 b.n) sym.isLt
      n := b.n + 1
      q := b.q ++ [{ w := zext24 cnt, n := BitVec.ofNat 9 b.n }] }

/-- The load phase over the symbols in the order given (R141, R142). -/
def loadPhase (freq : Symbol → Count) : List Symbol → BuildState → BuildState
  | [], b => b
  | sym :: rest, b => loadPhase freq rest (loadSymbol (freq sym) sym b)

/-- `NODE[i].parent <- p` (R141). -/
def setParent (node : Vector Node 511) (i : NodeIdx) (p : NodeIdx) : Vector Node 511 :=
  match node[i.toNat]? with
  | some nd => node.setIfInBounds i.toNat { nd with parent := p }
  | none => node

/-- One merge of `x`, extracted first, with `y`, extracted second, `q` being what is left of the queue: `x` becomes the
zero-child and `y` the one-child of the new node (R141, R144). -/
def mergeStep (x y : QEntry) (q : List QEntry) (b : BuildState) : BuildState :=
  { node := setParent (setParent (b.node.setIfInBounds b.n
        { w := x.w + y.w, sym := none, zero := x.n, one := y.n, parent := Config.nil })
        x.n (BitVec.ofNat 9 b.n)) y.n (BitVec.ofNat 9 b.n)
    leaf := b.leaf
    n := b.n + 1
    q := q ++ [{ w := x.w + y.w, n := BitVec.ofNat 9 b.n }] }

/-- The merge phase, while |Q| >= 2 (R141, R145). Every pass shortens Q by one, so the length of Q is fuel enough. -/
def mergePhase : Nat → BuildState → BuildState
  | 0, b => b
  | fuel + 1, b =>
    match extractMin b.q with
    | none => b
    | some (x, q1) =>
      match extractMin q1 with
      | none => b
      | some (y, q2) => mergePhase fuel (mergeStep x y q2 b)

/-- The placeholder root of R146. -/
def placeholderRoot : Node :=
  { w := 0#24, sym := none, zero := Config.nil, one := Config.nil, parent := Config.nil }

/-- The load phase of BUILD on the core's own arrays (R141, R142). -/
def CoreState.loaded (c : CoreState) : BuildState :=
  loadPhase c.count allSymbols { node := c.node, leaf := c.leaf, n := 0, q := [] }

/-- The core after BUILD (R141): the placeholder root of an all-zero table (R146), else the merged tree, whose root is
the one element left in Q. -/
def CoreState.built (c : CoreState) : CoreState :=
  let l := c.loaded
  if l.n = 0 then
    { c with node := l.node.set 0 placeholderRoot (by decide), leaf := l.leaf, nleaf := 0#9, nnodes := 1#9,
             root := 0#9, tv := true }
  else
    let m := mergePhase l.q.length l
    { c with node := m.node, leaf := m.leaf, nleaf := BitVec.ofNat 9 l.n, nnodes := BitVec.ofNat 9 m.n,
             root := (m.q.head?.map QEntry.n).getD Config.nil, tv := true }

/-- The body of BUILD (R141). -/
def buildBody (s : State) : Result Weight :=
  require s.core.ti .noTable s <| .done (zext24 s.core.built.nleaf) { s with core := s.core.built }

/-- BUILD (R141). -/
def execBuild (s : State) : Host.Outcome State Fault Refusal := runBody (encode .build) buildBody s

end Sys2Proof.Machine
end

