-- ==== Sys2Proof/Machine/Decoder.lean ====
section
/-! DEFINITION. The bit-serial decoder DEC (43_decode.md R170 to R176). -/

namespace Sys2Proof.Machine

open Sys2Proof

/-- The root-to-leaf walk of R171 with `cur` as CUR, at most `fuel - 1` bits. A node with a zero-child has two children
(R35 (a)). -/
def walkDown : Nat → NodeIdx → State → Result Symbol
  | 0, _, _ => .stuck .walkTooLong
  | fuel + 1, cur, s =>
    match s.core.nodeAt cur with
    | none => .stuck .noSuchNode
    | some nd =>
      if nd.zero = Config.nil then
        match nd.sym with
        | some v => .done v s
        | none => .stuck .noSymbol
      else (bitIn s).bind fun b t => walkDown fuel (if b then nd.one else nd.zero) t

/-- The body of DEC (R171). -/
def decBody (s : State) : Result Weight :=
  require s.core.tv .noTree s <|
  require (s.core.nleaf != 0#9) .empty s <|
  (walkDown (Config.maxDepth + 1) s.core.root s).bind fun v t => .done (zext24 v) t

/-- DEC (R171). -/
def execDec (s : State) : Host.Outcome State Fault Refusal := runBody (encode .dec) decBody s

end Sys2Proof.Machine
end

