-- ==== Sys2Proof/Machine/Encoder.lean ====
section
/-! DEFINITION. The prefix-code encoder ENC (42_encode.md R160 to R165). -/

namespace Sys2Proof.Machine

open Sys2Proof

/-- The leaf-to-root walk of R161 from node `n`, at most `fuel - 1` steps. `path` is the stack PATH with its top first,
so that reading it from the head is the root-to-leaf order. -/
def walkUp (c : CoreState) : Nat → NodeIdx → List Bool → Except Fault (List Bool)
  | 0, _, _ => .error .walkTooLong
  | fuel + 1, n, path =>
    match c.nodeAt n with
    | none => .error .noSuchNode
    | some nd =>
      if nd.parent = Config.nil then .ok path
      else
        match c.nodeAt nd.parent with
        | none => .error .noSuchNode
        | some p => walkUp c fuel nd.parent ((if p.zero = n then false else true) :: path)

/-- `code(s)` as the walk of R161 computes it; PATH holds at most MAXDEPTH bits (R38). -/
def CoreState.codeOf (c : CoreState) (sym : Symbol) : Except Fault (List Bool) :=
  walkUp c (Config.maxDepth + 1) (c.leafOf sym) []

/-- Emit bits in order; a failing BOUT ends the command with the bits before it emitted (R161, R165). -/
def emitBits : List Bool → State → Result Unit
  | [], s => .done () s
  | b :: bs, s => (bitOut b s).bind fun _ t => emitBits bs t

/-- The body of ENC (R161). -/
def encBody (sym : Symbol) (s : State) : Result Weight :=
  require s.core.tv .noTree s <|
  require (s.core.leafOf sym != Config.nil) .noLeaf s <|
  match s.core.codeOf sym with
  | .error f => .stuck f
  | .ok bits => (emitBits bits s).bind fun _ t => .done (BitVec.ofNat 24 bits.length) t

/-- ENC s (R161). -/
def execEnc (sym : Symbol) (s : State) : Host.Outcome State Fault Refusal :=
  runBody (encode (.enc sym)) (encBody sym) s

end Sys2Proof.Machine
end

