-- ==== Sys2Proof/Machine/FreqTable.lean ====
section
/-! DEFINITION. The Frequency Table commands FCLR, FINC, FRD (40_freq_table.md R120 to R124). -/

namespace Sys2Proof.Machine

open Sys2Proof

/-- FREQ all 0, TOTAL 0, TI 1, TV 0 (R120). -/
def CoreState.clearTable (c : CoreState) : CoreState :=
  { c with freq := Vector.replicate 256 0#16, total := 0#24, ti := true, tv := false }

/-- The body of FCLR (R120). -/
def fclrBody (s : State) : Result Weight := .done 0#24 { s with core := s.core.clearTable }

/-- FCLR (R120). -/
def execFclr (s : State) : Host.Outcome State Fault Refusal := runBody (encode .fclr) fclrBody s

/-- FREQ[s] and TOTAL up by one, TV 0 (R122). -/
def CoreState.countOne (c : CoreState) (sym : Symbol) : CoreState :=
  { c.setCount sym (c.count sym + 1#16) with total := c.total + 1#24, tv := false }

/-- The body of FINC (R122, R123). -/
def fincBody (sym : Symbol) (s : State) : Result Weight :=
  require s.core.ti .noTable s <|
  require (s.core.count sym != Config.cntMax) .countOvf s <|
  .done (zext24 ((s.core.countOne sym).count sym)) { s with core := s.core.countOne sym }

/-- FINC s (R122). -/
def execFinc (sym : Symbol) (s : State) : Host.Outcome State Fault Refusal :=
  runBody (encode (.finc sym)) (fincBody sym) s

/-- The body of FRD (R124). -/
def frdBody (sym : Symbol) (s : State) : Result Weight :=
  require s.core.ti .noTable s <| .done (zext24 (s.core.count sym)) s

/-- FRD s (R124). -/
def execFrd (sym : Symbol) (s : State) : Host.Outcome State Fault Refusal :=
  runBody (encode (.frd sym)) (frdBody sym) s

end Sys2Proof.Machine
end

