-- ==== Sys2Proof/Machine/Header.lean ====
section
/-! DEFINITION. The header codec HSER, HDES (44_header_codec.md R180 to R187) over the layout of 30_encoding.md R97. -/

namespace Sys2Proof.Machine

open Sys2Proof

/-- Bits 15:8 of a count, the byte transferred first (R69, R97). -/
def hiByte (v : Count) : Byte := v.extractLsb' 8 8

/-- Bits 7:0 of a count, the byte transferred second (R69, R97). -/
def loByte (v : Count) : Byte := v.extractLsb' 0 8

/-- The loop of HSER over the symbols given (R181, R182). -/
def hserLoop : List Symbol → State → Result Unit
  | [], s => .done () s
  | sym :: rest, s =>
    (byteOut (hiByte (s.core.count sym)) s).bind fun _ t =>
    (byteOut (loByte (t.core.count sym)) t).bind fun _ u => hserLoop rest u

/-- The body of HSER (R181). -/
def hserBody (s : State) : Result Weight :=
  require s.core.ti .noTable s <|
  (hserLoop allSymbols s).bind fun _ t => .done (BitVec.ofNat 24 Config.hdrBytes) t

/-- HSER (R181). -/
def execHser (s : State) : Host.Outcome State Fault Refusal := runBody (encode .hser) hserBody s

/-- TI, TV and TOTAL at the start of HDES (R184). -/
def CoreState.hdesStart (c : CoreState) : CoreState := { c with ti := false, tv := false, total := 0#24 }

/-- `FREQ[s] <- v; TOTAL <- TOTAL + zext_24(v)` (R184). -/
def CoreState.loadCount (c : CoreState) (sym : Symbol) (v : Count) : CoreState :=
  { c.setCount sym v with total := c.total + zext24 v }

/-- The loop of HDES over the symbols given (R184, R185). -/
def hdesLoop : List Symbol → State → Result Unit
  | [], s => .done () s
  | sym :: rest, s =>
    (byteIn s).bind fun hi t =>
    (byteIn t).bind fun lo u => hdesLoop rest { u with core := u.core.loadCount sym (hi ++ lo) }

/-- The body of HDES (R184). -/
def hdesBody (s : State) : Result Weight :=
  (hdesLoop allSymbols { s with core := s.core.hdesStart }).bind fun _ t =>
  .done t.core.total { t with core := { t.core with ti := true } }

/-- HDES (R184). -/
def execHdes (s : State) : Host.Outcome State Fault Refusal := runBody (encode .hdes) hdesBody s

end Sys2Proof.Machine
end

