-- ==== Sys2Proof/Machine/System.lean ====
section
/-! DEFINITION. The system commands NOP, RDSR, SRST (45_system.md R190 to R193). -/

namespace Sys2Proof.Machine

open Sys2Proof

/-- The body of NOP (R191). -/
def nopBody (s : State) : Result Weight := .done 0#24 s

/-- NOP (R191). -/
def execNop (s : State) : Host.Outcome State Fault Refusal := runBody (encode .nop) nopBody s

/-- The body of RDSR (R192); a reserved register number raises E_ILLEGAL (R29, R94). -/
def rdsrBody (r : Byte) (s : State) : Result Weight :=
  match statusReg r with
  | some reg => .done (s.core.regValue reg) s
  | none => illegalBody s

/-- RDSR r (R192). -/
def execRdsr (r : Byte) (s : State) : Host.Outcome State Fault Refusal :=
  runBody (encode (.rdsr r)) (rdsrBody r) s

/-- The body of SRST (R193): the reset state, ports untouched. -/
def srstBody (s : State) : Result Weight := .done 0#24 (resetCore s)

/-- SRST (R193). -/
def execSrst (s : State) : Host.Outcome State Fault Refusal := runBody (encode .srst) srstBody s

end Sys2Proof.Machine
end

