-- ==== Sys2Proof/Machine/Dispatch.lean ====
section
/-! DEFINITION. One arm per command (30_encoding.md R93). -/

namespace Sys2Proof.Machine

open Sys2Proof

def exec (i : Instr) (s : State) : Host.Outcome State Fault Refusal :=
  match i with
  | .nop => Sys2Proof.Machine.execNop s
  | .fclr => Sys2Proof.Machine.execFclr s
  | .finc sym => Sys2Proof.Machine.execFinc sym s
  | .frd sym => Sys2Proof.Machine.execFrd sym s
  | .build => Sys2Proof.Machine.execBuild s
  | .enc sym => Sys2Proof.Machine.execEnc sym s
  | .dec => Sys2Proof.Machine.execDec s
  | .hser => Sys2Proof.Machine.execHser s
  | .hdes => Sys2Proof.Machine.execHdes s
  | .rdsr r => Sys2Proof.Machine.execRdsr r s
  | .srst => Sys2Proof.Machine.execSrst s

end Sys2Proof.Machine
end

