-- ==== Sys2Proof/Machine/Handle.lean ====
section
/-! DEFINITION. What the core does with one command word, and the stores that put a word where it is taken next. -/

namespace Sys2Proof.Machine

open Sys2Proof

/-- One command word (60_exceptions.md R231): the FAULT gate, then legality, then the command. The gate stands in
`runBody`, which every meaning and the illegal case go through. -/
def handle (c : CmdWord) (s : State) : Host.Outcome State Fault Refusal :=
  match decode c with
  | .ok i => exec i s
  | .error _ => runBody c illegalBody s

/-- One move of the host (00_scope.md R6; 70_reset_and_hazards.md R260 to R262). -/
def takeMove (m : HostMove) (s : State) : Host.Outcome State Fault Refusal :=
  match m with
  | .command c => handle c s
  | .hardReset => .next (resetCore s)
  | .commandCut c k => .next (cutByReset k s (handle c s))

/-- The state in which the host's very next move is to issue the word `c`. -/
def State.withCommand (s : State) (c : CmdWord) : State := { s with inbox := .command c :: s.inbox }

end Sys2Proof.Machine
end

