-- ==== Sys2Proof/Machine/Step.lean ====
section
/-! DEFINITION. One step: the host's next move, one whole command (00_scope.md R6). -/

namespace Sys2Proof.Machine

open Sys2Proof

/-- One step takes the oldest move of the host and carries it out (R6). With no move the core waits (R260; log 4). -/
def step (s : State) : Host.Outcome State Fault Refusal :=
  match s.inbox with
  | [] => .next s
  | m :: rest => takeMove m { s with inbox := rest }

/-- The state whose next step takes the table word `w` of `nbits` bits as its command. -/
def State.withFetchWord (s : State) (nbits w : Nat) : State := s.withCommand (tableWord nbits w)

end Sys2Proof.Machine
end

