-- ==== Sys2Proof/Machine/Files.lean ====
section
/-! DEFINITION. The environment model of 20_memory.md R73 to R75: the file the streams amount to. The core takes no part
in it. -/

namespace Sys2Proof.Machine

open Sys2Proof

/-- One payload byte from up to eight bits: bit number j of the list is bit 7 - j of the byte, and the bits the list does
not reach are those of `pad` (R74). -/
def packByte (pad : Byte) (bits : List Bool) : Byte :=
  BitVec.ofBool (bits[0]?.getD (pad.getLsbD 7)) ++ BitVec.ofBool (bits[1]?.getD (pad.getLsbD 6))
    ++ BitVec.ofBool (bits[2]?.getD (pad.getLsbD 5)) ++ BitVec.ofBool (bits[3]?.getD (pad.getLsbD 4))
    ++ BitVec.ofBool (bits[4]?.getD (pad.getLsbD 3)) ++ BitVec.ofBool (bits[5]?.getD (pad.getLsbD 2))
    ++ BitVec.ofBool (bits[6]?.getD (pad.getLsbD 1)) ++ BitVec.ofBool (bits[7]?.getD (pad.getLsbD 0))

/-- `Pack(bits, pad)`: eight bits a byte, most significant first, the last byte padded; no byte for no bit (R74). -/
def pack (pad : Byte) : List Bool → List Byte
  | [] => []
  | b0 :: b1 :: b2 :: b3 :: b4 :: b5 :: b6 :: b7 :: rest =>
    packByte pad [b0, b1, b2, b3, b4, b5, b6, b7] :: pack pad rest
  | bits => [packByte pad bits]

/-- The eight bits of a byte, bit 7 first (R74). -/
def unpackByte (v : Byte) : List Bool :=
  [v.getLsbD 7, v.getLsbD 6, v.getLsbD 5, v.getLsbD 4, v.getLsbD 3, v.getLsbD 2, v.getLsbD 1, v.getLsbD 0]

/-- `Unpack(bytes)` (R74). -/
def unpack : List Byte → List Bool
  | [] => []
  | v :: rest => unpackByte v ++ unpack rest

/-- The compressed file of a compress run that wrote the header once and then encoded, after the host's flush:
`hout ++ Pack(bout, pad)` (R73, R205). -/
def Ports.file (pad : Byte) (p : Ports) : List Byte := p.hout.data ++ pack pad p.bout.data

/-- The ports the environment supplies for a run on the file `f`: HIN is the file, BIN the bits of every byte after the
header (R75, R279), nothing written yet (R61), and no port fails. -/
def Ports.ofFile (f : List Byte) : Ports :=
  { hin := { data := f, pos := 0, plan := [], asked := 0 }
    hout := { data := [], plan := [], asked := 0 }
    bin := { data := unpack (f.drop Config.hdrBytes), pos := 0, plan := [], asked := 0 }
    bout := { data := [], plan := [], asked := 0 } }

/-- The 512 bytes of a header: for every symbol in ascending order the high byte of its count, then the low byte (R69,
R97). -/
def headerBytes (freq : Symbol → Count) : List Byte :=
  allSymbols.flatMap fun s => [(freq s).extractLsb' 8 8, (freq s).extractLsb' 0 8]

end Sys2Proof.Machine
end

