-- ==== Sys2Proof/Machine/Pipelines.lean ====
section
/-! DEFINITION. The host's command sequences of 46_pipelines.md, R200 to R213. They are duties of the host, not units of
the core (00_scope.md R4). -/

namespace Sys2Proof.Machine

open Sys2Proof

/-- The code field of a response word, bits 31:24 (R95). -/
def rspCode (r : RspWord) : BitVec 8 := r.extractLsb' 24 8

/-- The value field of a response word, bits 23:0 (R95). -/
def rspValue (r : RspWord) : Weight := r.extractLsb' 0 24

/-- The host issues one command word and waits for its response (R6, R270). -/
def issue (c : CmdWord) (s : State) : Option (RspWord × State) :=
  match step (s.withCommand c) with
  | .next t => t.responses.getLast?.map fun r => (r, t)
  | .fault _ => none
  | .refused _ => none

/-- The host issues a straight list of commands and stops the run at the first code that is not OK, discarding the output
(R102, R212, R278). -/
def issueAll : List Instr → State → Option (List RspWord × State)
  | [], s => some ([], s)
  | i :: rest, s =>
    match issue (encode i) s with
    | none => none
    | some (r, t) => if rspCode r = 0x00#8 then (issueAll rest t).map fun p => (r :: p.1, p.2) else none

/-- The commands of a compress run: none for an empty input (R201), else R202. -/
def compressCommands (xs : List Byte) : List Instr :=
  if xs.isEmpty then [] else .fclr :: (xs.map .finc ++ [.build, .hser] ++ xs.map .enc)

/-- A compress run from `s`, whose ports the host has just supplied (R213): the output file and the state after it. The
file of an empty input is empty (R201); otherwise it is that of R205. -/
def compress (pad : Byte) (xs : List Byte) (s : State) : Option (List Byte × State) :=
  (issueAll (compressCommands xs) s).map fun p => (if xs.isEmpty then [] else p.2.ports.file pad, p.2)

/-- A decompress run on the file `f` by a core in the state of `s` (R206 to R208): no command for an empty file; else
HDES, BUILD and as many DECs as HDES answered, whose values are the output bytes. -/
def decompress (f : List Byte) (s : State) : Option (List Byte) :=
  if f.isEmpty then some []
  else
    match issueAll [.hdes, .build] { s with ports := Ports.ofFile f } with
    | none => none
    | some (rs, t) =>
      let n := (rs.head?.map fun r => (rspValue r).toNat).getD 0
      (issueAll (List.replicate n .dec) t).map fun p => p.1.map fun r => (rspValue r).setWidth 8

end Sys2Proof.Machine
end

