-- ==== Sys2Proof/Safety.lean ====
section
/-! DEFINITION. What counts as a safe state: the invariants the spec gives (10_state.md R23, R26, R27, R29, R30, R35;
20_memory.md R61), the function `code` of 42_encode.md R162 as a relation, and the two ends of a command written out
field by field, for the statements to name. -/

namespace Sys2Proof.Machine

open Sys2Proof

/-- FREQ[0] + ... + FREQ[255] (R23). -/
def CoreState.tableSum (c : CoreState) : Nat := (allSymbols.map fun s => (c.count s).toNat).sum

/-- The number of symbols with a non-zero count (R30). -/
def CoreState.presentSymbols (c : CoreState) : Nat := allSymbols.countP fun s => decide (c.count s ≠ 0#16)

/-- The sizes after a BUILD (R30): the placeholder root, or a full tree. -/
abbrev CoreState.BuiltSizes (c : CoreState) : Prop :=
  (c.nleaf = 0#9 ∧ c.nnodes = 1#9 ∧ c.root = 0#9) ∨
  (1 ≤ c.nleaf.toNat ∧ c.nleaf.toNat ≤ 256 ∧ c.nnodes.toNat = 2 * c.nleaf.toNat - 1 ∧
    c.root.toNat + 1 = c.nnodes.toNat)

/-- The tree invariants of R35 (a) to (c) and (e) to (i), which hold whenever TV = 1. -/
structure TreeOk (c : CoreState) : Prop where
  /-- R30. -/
  sizes : c.BuiltSizes
  /-- R35 (a): zero children or two. -/
  fullTree : ∀ n < c.nnodes.toNat, ∀ nd ∈ c.node[n]?, (nd.zero = Config.nil ↔ nd.one = Config.nil)
  /-- R35 (b): the symbols with a leaf are those with a non-zero count. -/
  leafIff : ∀ s : Symbol, c.leafOf s ≠ Config.nil ↔ c.count s ≠ 0#16
  /-- R35 (b): what the leaf of a symbol holds. -/
  leafNode : ∀ s : Symbol, c.leafOf s ≠ Config.nil → (c.leafOf s).toNat < c.nleaf.toNat ∧
    ∃ nd ∈ c.nodeAt (c.leafOf s), nd.zero = Config.nil ∧ nd.sym = some s ∧ nd.w = zext24 (c.count s)
  /-- R35 (c): the weight of an internal node is the sum of its children's, without overflow (R150). -/
  weightSum : ∀ n < c.nnodes.toNat, ∀ nd ∈ c.node[n]?, nd.zero ≠ Config.nil →
    ∃ z ∈ c.nodeAt nd.zero, ∃ o ∈ c.nodeAt nd.one, nd.w.toNat = z.w.toNat + o.w.toNat
  /-- R35 (e): the first NLEAF nodes are the leaves. -/
  leaves : ∀ n < c.nleaf.toNat, ∀ nd ∈ c.node[n]?, nd.zero = Config.nil ∧
    ∃ s ∈ nd.sym, (c.leafOf s).toNat = n
  /-- R35 (e): in ascending symbol order. -/
  leavesAscend : ∀ n < c.nleaf.toNat, ∀ m < c.nleaf.toNat, ∀ nd ∈ c.node[n]?, ∀ md ∈ c.node[m]?,
    m < n → ∃ s ∈ nd.sym, ∃ r ∈ md.sym, r.toNat < s.toNat
  /-- R35 (e): the nodes from NLEAF on are internal, and hold no symbol (R33). -/
  internals : 1 ≤ c.nleaf.toNat → ∀ n < c.nnodes.toNat, c.nleaf.toNat ≤ n → ∀ nd ∈ c.node[n]?,
    nd.zero ≠ Config.nil ∧ nd.sym = none
  /-- R35 (f): children stand below their parent and are two. -/
  childBelow : ∀ n < c.nnodes.toNat, ∀ nd ∈ c.node[n]?, nd.zero ≠ Config.nil →
    nd.zero.toNat < n ∧ nd.one.toNat < n ∧ nd.zero ≠ nd.one
  /-- R35 (g): parent links agree with child links. -/
  parentLinks : ∀ n < c.nnodes.toNat, ∀ m < c.nnodes.toNat, ∀ nd ∈ c.node[n]?, ∀ md ∈ c.node[m]?,
    (md.parent.toNat = n ↔ (nd.zero.toNat = m ∨ nd.one.toNat = m))
  /-- R35 (g): the root has no parent. -/
  rootParent : ∀ nd ∈ c.nodeAt c.root, nd.parent = Config.nil
  /-- R35 (g): every other node has one. -/
  otherParents : ∀ n < c.nnodes.toNat, n ≠ c.root.toNat → ∀ nd ∈ c.node[n]?,
    nd.parent.toNat < c.nnodes.toNat
  /-- R35 (h). -/
  rootWeight : 1 ≤ c.nleaf.toNat → ∀ nd ∈ c.nodeAt c.root, nd.w = c.total
  /-- R35 (i). -/
  placeholder : c.nleaf = 0#9 →
    c.node[0]? = some { w := 0#24, sym := none, zero := Config.nil, one := Config.nil, parent := Config.nil } ∧
    ∀ s : Symbol, c.leafOf s = Config.nil

/-- The invariants of the core's state. -/
structure CoreState.Inv (c : CoreState) : Prop where
  /-- R23: while TI = 1, TOTAL is the sum of the table. -/
  totalSum : c.ti = true → c.total.toNat = c.tableSum
  /-- R29: TOTAL never passes 256 * 65535. -/
  totalRange : c.total.toNat ≤ 16776960
  /-- R26: TV = 1 implies TI = 1. -/
  tvTi : c.tv = true → c.ti = true
  /-- R27: ERRCODE and ERRCMD are 0 while FAULT = 0. -/
  noFault : c.fault = false → c.errcode = 0x00#8 ∧ c.errcmd = 0x0000#16
  /-- R29: the codes that are recorded. -/
  faultCode : c.fault = true → c.errcode = 0x01#8 ∨ (0x03#8 ≤ c.errcode ∧ c.errcode ≤ 0x0A#8)
  /-- R29, R30, R36: no BUILD yet, or the sizes of the last one. -/
  sizes : (c.nleaf = 0#9 ∧ c.nnodes = 0#9 ∧ c.root = 0x1FF#9) ∨ c.BuiltSizes
  /-- R35. -/
  tree : c.tv = true → TreeOk c

/-- The invariant of the machine: that of the core, and that no read position passes the end of its stream (R61). -/
structure State.Inv (s : State) : Prop where
  core : s.core.Inv
  hpos : s.ports.hin.pos ≤ s.ports.hin.data.length
  bpos : s.ports.bin.pos ≤ s.ports.bin.data.length

/-- `path(n) = bits` of R162: empty at the root; elsewhere the path of the parent and then the branch taken there. -/
inductive PathTo (c : CoreState) : NodeIdx → List Bool → Prop
  | root : PathTo c c.root []
  | zero {n p : NodeIdx} {nd pd : Node} {bits : List Bool} : PathTo c p bits → n ≠ c.root →
      c.nodeAt n = some nd → nd.parent = p → c.nodeAt p = some pd → pd.zero = n → PathTo c n (bits ++ [false])
  | one {n p : NodeIdx} {nd pd : Node} {bits : List Bool} : PathTo c p bits → n ≠ c.root →
      c.nodeAt n = some nd → nd.parent = p → c.nodeAt p = some pd → pd.one = n → PathTo c n (bits ++ [true])

/-- `code(s) = bits` of R162, for a symbol that has a leaf. -/
def IsCode (c : CoreState) (sym : Symbol) (bits : List Bool) : Prop :=
  c.leafOf sym ≠ Config.nil ∧ PathTo c (c.leafOf sym) bits

/-- The registers of R41 at their reset values; R41 gives FREQ, NODE and LEAF none. -/
abbrev CoreState.RegistersReset (c : CoreState) : Prop :=
  c.ti = false ∧ c.tv = false ∧ c.fault = false ∧ c.errcode = 0x00#8 ∧ c.errcmd = 0x0000#16 ∧ c.total = 0#24 ∧
  c.nleaf = 0#9 ∧ c.nnodes = 0#9 ∧ c.root = 0x1FF#9 ∧ c.status = 0x00#8

/-- The key order of R143 on nodes `m` and `n` of records `a` and `b`. -/
abbrev KeyBefore (m : Nat) (a : Node) (n : Nat) (b : Node) : Prop :=
  a.w.toNat < b.w.toNat ∨ (a.w.toNat = b.w.toNat ∧ m < n)

/-- The word of a command with opcode `op` and operand `arg`, as the numbers of R93 put it: `op` times 256 plus `arg`. -/
abbrev wordOf (op : Nat) (arg : Byte) : CmdWord := BitVec.ofNat 16 (256 * op + arg.toNat)

/-- The state `s` after a command has answered OK with `v` (R95). -/
def State.answering (v : Weight) (s : State) : State := { s with responses := s.responses ++ [0x00#8 ++ v] }

/-- The state `s` after a command has been answered with code `e`, value 0, and no fault entry (R95, R233, R239). -/
def State.declining (e : BitVec 8) (s : State) : State :=
  { s with responses := s.responses ++ [e ++ 0x000000#24] }

/-- The state `s` after the first fault since reset, with code `e`, in a command with word `w` (R232). -/
def State.faulting (w : CmdWord) (e : BitVec 8) (s : State) : State :=
  { s with core := { s.core with errcode := e, errcmd := w, fault := true }
           responses := s.responses ++ [e ++ 0x000000#24] }

/-- The state `s` with `p` as its HOUT. -/
def State.withHout (s : State) (p : OutPort Byte) : State := { s with ports := { s.ports with hout := p } }

/-- The state `s` with `p` as its HIN. -/
def State.withHin (s : State) (p : InPort Byte) : State := { s with ports := { s.ports with hin := p } }

/-- The state `s` with `p` as its BOUT. -/
def State.withBout (s : State) (p : OutPort Bool) : State := { s with ports := { s.ports with bout := p } }

/-- The state `s` with `p` as its BIN. -/
def State.withBin (s : State) (p : InPort Bool) : State := { s with ports := { s.ports with bin := p } }

/-- An output port after `us` have been accepted, one request a unit. -/
def OutPort.wrote {α : Type} (p : OutPort α) (us : List α) : OutPort α :=
  { data := p.data ++ us, plan := p.plan.drop us.length, asked := p.asked + us.length }

/-- An input port after `k` units have been taken, one request a unit. -/
def InPort.took {α : Type} (p : InPort α) (k : Nat) : InPort α :=
  { p with pos := p.pos + k, plan := p.plan.drop k, asked := p.asked + k }

/-- What is left to read on an input port. -/
def InPort.unread {α : Type} (p : InPort α) : List α := p.data.drop p.pos

/-- An output port that accepted `us` and failed the next request: behind them stands `tail` (R67). -/
def OutPort.failedAfter {α : Type} (p : OutPort α) (us tail : List α) (plan : List Answer) : OutPort α :=
  { data := p.data ++ us ++ tail, plan := plan, asked := p.asked + us.length + 1 }

/-- An input port that gave `k` units and failed the next request: the unread part is `rest` and the position has moved
`moved` units into it (R67). -/
def InPort.failedAfter {α : Type} (p : InPort α) (k : Nat) (rest : List α) (moved : Nat) (plan : List Answer) :
    InPort α :=
  { data := p.data.take (p.pos + k) ++ rest, pos := p.pos + k + moved, plan := plan, asked := p.asked + k + 1 }

/-- An output stream `q` cut after `k` of the requests that would have taken it from `p` to `r` (R262): with more than `k`
requests to make, `q` holds what `p` held and the first `k` units that `r` gained; else `q` is `r`. -/
abbrev CutOut {α : Type} (k : Nat) (p q r : OutPort α) : Prop :=
  (p.asked + k < r.asked → q.data = p.data ++ (r.data.drop p.data.length).take k ∧
    q.data.length = p.data.length + k ∧ q.plan = p.plan.drop k ∧ q.asked = p.asked + k) ∧
  (r.asked ≤ p.asked + k → q = r) ∧ p.data <+: q.data ∧ q.data <+: r.data

/-- An input stream `q` cut after `k` of the requests that would have taken it from `p` to `r` (R262): with more than `k`
requests to make, `q` holds what `p` held and its position has moved by `k`; else `q` is `r`. -/
abbrev CutIn {α : Type} (k : Nat) (p q r : InPort α) : Prop :=
  (p.asked + k < r.asked → q.data = p.data ∧ q.pos = p.pos + k ∧ q.plan = p.plan.drop k ∧ q.asked = p.asked + k) ∧
  (r.asked ≤ p.asked + k → q = r) ∧ p.pos ≤ q.pos ∧ q.pos ≤ r.pos

/-- The core with the table `f` and the sum `total`, and the flags TI and TV as given. -/
def CoreState.withTable (c : CoreState) (f : Vector Count 256) (total : Weight) (ti tv : Bool) : CoreState :=
  { c with freq := f, total := total, ti := ti, tv := tv }

/-- The sum of the counts of the symbols below `j`. -/
def sumBelow (f : Vector Count 256) (j : Nat) : Nat := ((f.toList.take j).map BitVec.toNat).sum

/-- No request among the next `n` of a port's plan fails. -/
abbrev noFailure (n : Nat) (plan : List Answer) : Prop := Answer.fails ∉ plan.take n

end Sys2Proof.Machine
end

