-- ==== Sys2Proof/Certificates/Slice0/Obligations.lean ====
section
/-! DEFINITION. The statements about the model, each with the rule of spec/ it formalises. -/

open Sys2Proof Sys2Proof.Machine

/-! ## Reset and the system commands -/

/-- R41: the registers after a hard reset (the model's start, and a hard reset later on) and after SRST, with the FAULT
flag set or not. What R41 leaves unspecified, FREQ, NODE and LEAF, is not spoken of. -/
def Obligations.ResetGivesRegistersTheirValues : Prop :=
  State.reset.core.RegistersReset ∧
  ∀ (s : State) (rest : List HostMove),
    (∃ t, step { s with inbox := .hardReset :: rest } = .next t ∧ t.core.RegistersReset) ∧
    (∃ t, exec .srst s = .next t ∧ t.core.RegistersReset)

/-- R261, R263: SRST does to the core what a hard reset does; it alone is answered; neither touches a port. -/
def Obligations.SoftResetActsAsHardReset : Prop :=
  ∀ (s : State) (rest : List HostMove), ∃ t u : State,
    exec .srst s = .next t ∧ step { s with inbox := .hardReset :: rest } = .next u ∧
    t.core = u.core ∧ t.core.RegistersReset ∧ t.ports = s.ports ∧ u.ports = s.ports ∧
    t.responses = s.responses ++ [0x00000000#32] ∧ u.responses = s.responses ∧ t.inbox = s.inbox ∧ u.inbox = rest

/-- R191: NOP answers 0 in every state and changes nothing; with an `arg` other than 0x00 it is illegal. -/
def Obligations.NopOnlyAnswers : Prop :=
  decode 0x0000#16 = .ok .nop ∧ (∀ a : Byte, a ≠ 0x00#8 → decode (wordOf 0x00 a) = .error (.nonzeroArg 0x00#8 a)) ∧
  ∀ s : State, exec .nop s = .next (s.answering 0#24)

/-- R192 with the registers of R28, R29 and R31: RDSR answers the register, with FAULT set or not, and changes nothing;
the numbers from 7 on are illegal. -/
def Obligations.RdsrAnswersTheRegister : Prop :=
  (∀ s : State,
    exec (.rdsr 0#8) s = .next (s.answering ((BitVec.ofBool s.core.fault ++ 0b000#3 ++
      BitVec.ofBool (s.core.tv && s.core.nleaf == 1#9) ++ BitVec.ofBool (s.core.tv && s.core.nleaf == 0#9) ++
      BitVec.ofBool s.core.tv ++ BitVec.ofBool s.core.ti : BitVec 8).setWidth 24)) ∧
    exec (.rdsr 1#8) s = .next (s.answering (s.core.errcode.setWidth 24)) ∧
    exec (.rdsr 2#8) s = .next (s.answering (s.core.errcmd.setWidth 24)) ∧
    exec (.rdsr 3#8) s = .next (s.answering s.core.total) ∧
    exec (.rdsr 4#8) s = .next (s.answering (s.core.nleaf.setWidth 24)) ∧
    exec (.rdsr 5#8) s = .next (s.answering (s.core.nnodes.setWidth 24)) ∧
    exec (.rdsr 6#8) s = .next (s.answering (s.core.root.setWidth 24))) ∧
  (∀ r : Byte, r.toNat ≤ 6 → decode (wordOf 0xF0 r) = .ok (.rdsr r)) ∧
  (∀ r : Byte, 7 ≤ r.toNat → decode (wordOf 0xF0 r) = .error (.reservedRegister r))

/-! ## The Frequency Table commands -/

/-- R120: FCLR. -/
def Obligations.FclrClearsTheTable : Prop :=
  decode 0x1000#16 = .ok .fclr ∧
  ∀ s : State,
    (s.core.fault = false → exec .fclr s = .next (State.answering 0#24
      { s with core := s.core.withTable (Vector.replicate 256 0#16) 0#24 true false })) ∧
    (s.core.fault = true → exec .fclr s = .next (s.declining 0x02#8))

/-- R122, R123, R227: FINC counts one occurrence, and refuses the 65536th. -/
def Obligations.FincCountsOneOccurrence : Prop :=
  ∀ sym : Symbol,
    decode (wordOf 0x11 sym) = .ok (.finc sym) ∧
    ∀ s : State,
      (s.core.fault = true → exec (.finc sym) s = .next (s.declining 0x02#8)) ∧
      (s.core.fault = false → s.core.ti = false → exec (.finc sym) s = .next (s.faulting (wordOf 0x11 sym) 0x03#8)) ∧
      (s.core.fault = false → s.core.ti = true → s.core.count sym = 0xFFFF#16 →
        exec (.finc sym) s = .next (s.faulting (wordOf 0x11 sym) 0x07#8)) ∧
      (s.core.fault = false → s.core.ti = true → s.core.count sym ≠ 0xFFFF#16 →
        exec (.finc sym) s = .next (State.answering ((s.core.count sym + 1#16).setWidth 24)
          { s with core := s.core.withTable (s.core.freq.set sym.toNat (s.core.count sym + 1#16) sym.isLt)
                     (s.core.total + 1#24) true false }))

/-- R124: FRD answers the count and changes nothing. -/
def Obligations.FrdAnswersTheCount : Prop :=
  ∀ sym : Symbol,
    decode (wordOf 0x12 sym) = .ok (.frd sym) ∧
    ∀ s : State,
      (s.core.fault = true → exec (.frd sym) s = .next (s.declining 0x02#8)) ∧
      (s.core.fault = false → s.core.ti = false → exec (.frd sym) s = .next (s.faulting (wordOf 0x12 sym) 0x03#8)) ∧
      (s.core.fault = false → s.core.ti = true →
        exec (.frd sym) s = .next (s.answering ((s.core.count sym).setWidth 24)))

/-- R121: FCLR and then one FINC for every byte of an input, in any order, in which no byte value occurs more than 65535
times leave the number of occurrences of every symbol, and the length in TOTAL; nothing of the core but FREQ, TOTAL, TI
and TV is touched, no port is, and every response is OK. -/
def Obligations.ScanCountsOccurrences : Prop :=
  ∀ (xs : List Byte) (s : State), s.core.fault = false → (∀ x : Byte, xs.count x ≤ 65535) →
    ∃ (rs : List RspWord) (t : State) (f : Vector Count 256) (total : Weight),
      issueAll (.fclr :: xs.map .finc) s = some (rs, t) ∧ (∀ r ∈ rs, rspCode r = 0x00#8) ∧
      t.core = s.core.withTable f total true false ∧ (∀ x : Symbol, (f[x.toNat]'(x.isLt)).toNat = xs.count x) ∧
      total.toNat = xs.length ∧ t.ports = s.ports

/-! ## BUILD -/

/-- R141, R30, R35, R140: BUILD completes whenever TI = 1, whatever the arena held, and makes a tree with all the
properties of R35; it writes nothing but the nodes below NNODES, the leaf table, the tree's registers and TV. The premise on
TOTAL is R23, an invariant. -/
def Obligations.BuildMakesAValidTree : Prop :=
  decode 0x2000#16 = .ok .build ∧
  ∀ s : State, s.core.fault = false → s.core.ti = true → s.core.total.toNat = s.core.tableSum →
    ∃ (node : Vector Node 511) (leaf : Vector NodeIdx 256) (nleaf nnodes root : BitVec 9),
      TreeOk { s.core with node := node, leaf := leaf, nleaf := nleaf, nnodes := nnodes, root := root, tv := true } ∧
      nleaf.toNat = s.core.presentSymbols ∧
      (∀ n : Nat, nnodes.toNat ≤ n → node[n]? = s.core.node[n]?) ∧
      exec .build s = .next (State.answering (nleaf.setWidth 24)
        { s with core := { s.core with node := node, leaf := leaf, nleaf := nleaf, nnodes := nnodes, root := root,
                                       tv := true } })

/-- R143, R144: in the tree of a BUILD every internal node was made of the two nodes that came first, in the key order,
of all those that had no parent yet, the first of the two being its zero-child; its weight is their sum, it holds no
symbol, and both have it as their parent. -/
def Obligations.BuildMergesTheTwoFirstNodes : Prop :=
  ∀ s t : State, s.core.fault = false → s.core.ti = true → exec .build s = .next t →
    ∀ n : Nat, t.core.nleaf.toNat ≤ n → 1 ≤ t.core.nleaf.toNat → n < t.core.nnodes.toNat →
      ∀ nd zd od : Node, t.core.node[n]? = some nd → t.core.nodeAt nd.zero = some zd →
        t.core.nodeAt nd.one = some od →
        nd.zero.toNat < n ∧ nd.one.toNat < n ∧ nd.sym = none ∧ nd.w.toNat = zd.w.toNat + od.w.toNat ∧
        zd.parent.toNat = n ∧ od.parent.toNat = n ∧ KeyBefore nd.zero.toNat zd nd.one.toNat od ∧
        ∀ m : Nat, m < n → ∀ md : Node, t.core.node[m]? = some md → n < md.parent.toNat →
          KeyBefore nd.one.toNat od m md

/-- R143: `extract_min` takes out the one element that comes before every other. -/
def Obligations.ExtractMinTakesTheFirst : Prop :=
  ∀ q : List QEntry, (q.map QEntry.n).Nodup →
    (q = [] → extractMin q = none) ∧
    (q ≠ [] → ∃ x rest, extractMin q = some (x, rest) ∧ q.Perm (x :: rest) ∧
      ∀ y ∈ rest, x.w.toNat < y.w.toNat ∨ (x.w.toNat = y.w.toNat ∧ x.n.toNat < y.n.toNat))

/-- R146: BUILD on an all-zero table makes the placeholder root, STATUS.EMPTY reads 1, and then every ENC raises
E_NOLEAF and DEC raises E_EMPTY. -/
def Obligations.BuildOnZeroTableMakesPlaceholder : Prop :=
  ∀ s : State, s.core.fault = false → s.core.ti = true → (∀ x : Symbol, s.core.count x = 0#16) →
    ∃ t : State,
      t = State.answering 0#24 { s with core := { s.core with
        node := s.core.node.set 0 { w := 0#24, sym := none, zero := 0x1FF#9, one := 0x1FF#9, parent := 0x1FF#9 }
        leaf := Vector.replicate 256 0x1FF#9
        nleaf := 0#9
        nnodes := 1#9
        root := 0#9
        tv := true } } ∧
      exec .build s = .next t ∧ t.core.status.getLsbD 2 = true ∧
      (∀ x : Symbol, exec (.enc x) t = .next (t.faulting (wordOf 0x30 x) 0x06#8)) ∧
      exec .dec t = .next (t.faulting 0x3100#16 0x05#8)

/-- R147: BUILD on a table with one non-zero count makes that symbol's leaf the root, STATUS.SINGLE reads 1, and the code
of the symbol has length 0. -/
def Obligations.BuildOnOneSymbolMakesOneLeaf : Prop :=
  ∀ (s : State) (sym : Symbol), s.core.fault = false → s.core.ti = true → s.core.count sym ≠ 0#16 →
    (∀ x : Symbol, x ≠ sym → s.core.count x = 0#16) →
    ∃ t : State,
      t = State.answering 1#24 { s with core := { s.core with
        node := s.core.node.set 0 { w := (s.core.count sym).setWidth 24, sym := some sym, zero := 0x1FF#9,
                                    one := 0x1FF#9, parent := 0x1FF#9 }
        leaf := (Vector.replicate 256 0x1FF#9).set sym.toNat 0#9 sym.isLt
        nleaf := 1#9
        nnodes := 1#9
        root := 0#9
        tv := true } } ∧
      exec .build s = .next t ∧ t.core.status.getLsbD 3 = true ∧ exec (.enc sym) t = .next (t.answering 0#24)

/-- R148: the tree is a function of the table, whatever the arena held, and a second BUILD leaves the core as it was. -/
def Obligations.BuildDependsOnTheTableAlone : Prop :=
  ∀ s t : State, s.core.fault = false → t.core.fault = false → s.core.ti = true → t.core.ti = true →
    s.core.freq = t.core.freq →
    ∃ s1 t1 s2, exec .build s = .next s1 ∧ exec .build t = .next t1 ∧ exec .build s1 = .next s2 ∧
      s1.core.nleaf = t1.core.nleaf ∧ s1.core.nnodes = t1.core.nnodes ∧ s1.core.root = t1.core.root ∧
      s1.core.leaf = t1.core.leaf ∧ (∀ n < s1.core.nnodes.toNat, s1.core.node[n]? = t1.core.node[n]?) ∧
      s2.core = s1.core

/-- R149 (d): the weights of the internal nodes do not decrease in order of creation. -/
def Obligations.InternalWeightsDoNotDecrease : Prop :=
  ∀ s t : State, s.core.fault = false → s.core.ti = true → exec .build s = .next t → 1 ≤ t.core.nleaf.toNat →
    ∀ m n : Nat, t.core.nleaf.toNat ≤ m → m < n → n < t.core.nnodes.toNat →
      ∀ md nd : Node, t.core.node[m]? = some md → t.core.node[n]? = some nd → md.w.toNat ≤ nd.w.toNat

/-! ## ENC -/

/-- R161, R162, R38: every symbol with a leaf has a code, and ENC emits exactly `code(s)`, first bit first, at most 255
bits, and answers its length; nothing else changes. BOUT need serve no request beyond the bits of the code. -/
def Obligations.EncEmitsTheCode : Prop :=
  (∀ (c : CoreState) (sym : Symbol), TreeOk c → c.leafOf sym ≠ 0x1FF#9 → ∃ bits, IsCode c sym bits) ∧
  (∀ (s : State) (sym : Symbol) (bits : List Bool), s.core.fault = false → s.core.tv = true → TreeOk s.core →
    IsCode s.core sym bits → noFailure bits.length s.ports.bout.plan →
    bits.length ≤ 255 ∧
      exec (.enc sym) s = .next (State.answering (BitVec.ofNat 24 bits.length)
        (s.withBout (s.ports.bout.wrote bits))))

/-- R164: on the one-leaf tree ENC of its symbol emits nothing and answers 0, whatever BOUT would do. -/
def Obligations.EncOnOneLeafEmitsNothing : Prop :=
  ∀ (s : State) (sym : Symbol), s.core.fault = false → s.core.tv = true → TreeOk s.core → s.core.nleaf = 1#9 →
    s.core.leafOf sym ≠ 0x1FF#9 → exec (.enc sym) s = .next (s.answering 0#24)

/-- R165: if BOUT fails on a bit of the code, the bits before it stay, no further bit is offered, and the command ends
in E_IO; what the failed transfer left behind those bits is open. -/
def Obligations.EncFailurePartWayKeepsTheBits : Prop :=
  ∀ (s : State) (sym : Symbol) (pre post : List Bool) (b : Bool) (plan : List Answer), s.core.fault = false →
    s.core.tv = true → TreeOk s.core → IsCode s.core sym (pre ++ b :: post) →
    s.ports.bout.plan = List.replicate pre.length .serves ++ .fails :: plan →
    ∃ tail, exec (.enc sym) s = .next (State.faulting (wordOf 0x30 sym) 0x0A#8
      (s.withBout (s.ports.bout.failedAfter pre tail plan)))

/-- R99: no code is a prefix of another symbol's. -/
def Obligations.CodesArePrefixFree : Prop :=
  ∀ (c : CoreState) (x y : Symbol) (bx bx' : List Bool), TreeOk c → IsCode c x bx → IsCode c y bx' → x ≠ y →
    ¬ bx <+: bx'

/-! ## DEC -/

/-- R166, R177: if the next bits of BIN are the code of a symbol, DEC takes exactly those bits and answers the symbol;
nothing else changes. -/
def Obligations.DecInvertsTheCode : Prop :=
  ∀ (s : State) (sym : Symbol) (bits rest : List Bool), s.core.fault = false → s.core.tv = true → TreeOk s.core →
    IsCode s.core sym bits → s.ports.bin.unread = bits ++ rest → noFailure bits.length s.ports.bin.plan →
    exec .dec s = .next (State.answering (sym.setWidth 24) (s.withBin (s.ports.bin.took bits.length)))

/-- R176, R171: on any tree with a leaf, any 255 bits begin with a code, and DEC completes on them. -/
def Obligations.DecAcceptsEveryBitSequence : Prop :=
  decode 0x3100#16 = .ok .dec ∧
  ∀ s : State, s.core.fault = false → s.core.tv = true → TreeOk s.core → s.core.nleaf ≠ 0#9 →
    255 ≤ s.ports.bin.unread.length → noFailure 255 s.ports.bin.plan →
    ∃ sym bits, IsCode s.core sym bits ∧ bits <+: s.ports.bin.unread ∧
      exec .dec s = .next (State.answering (sym.setWidth 24) (s.withBin (s.ports.bin.took bits.length)))

/-- R172: on the one-leaf tree DEC answers the one symbol and takes no bit, whatever BIN holds or would do. -/
def Obligations.DecOnOneLeafTakesNoBit : Prop :=
  ∀ s : State, s.core.fault = false → s.core.tv = true → TreeOk s.core → s.core.nleaf = 1#9 →
    ∃ sym, s.core.leafOf sym ≠ 0x1FF#9 ∧ exec .dec s = .next (s.answering (sym.setWidth 24))

/-- R174, R228: if BIN ends inside a code, DEC raises E_BIT_EOF and the bits it took stay taken. -/
def Obligations.DecExhaustionRaisesBitEof : Prop :=
  ∀ (s : State) (sym : Symbol) (pre post : List Bool) (b : Bool), s.core.fault = false → s.core.tv = true →
    TreeOk s.core → IsCode s.core sym (pre ++ b :: post) → s.ports.bin.unread = pre →
    noFailure (pre.length + 1) s.ports.bin.plan →
    exec .dec s = .next (State.faulting 0x3100#16 0x08#8 (s.withBin
      { s.ports.bin with pos := s.ports.bin.pos + pre.length, plan := s.ports.bin.plan.drop (pre.length + 1),
                         asked := s.ports.bin.asked + pre.length + 1 }))

/-- R174, R230: if BIN fails inside a code, DEC raises E_IO and the bits it took stay taken; what the failed transfer did
to the rest of BIN is open. -/
def Obligations.DecFailureRaisesIo : Prop :=
  ∀ (s : State) (sym : Symbol) (pre post rest : List Bool) (b : Bool) (plan : List Answer), s.core.fault = false →
    s.core.tv = true → TreeOk s.core → IsCode s.core sym (pre ++ b :: post) → s.ports.bin.unread = pre ++ rest →
    s.ports.bin.plan = List.replicate pre.length .serves ++ .fails :: plan →
    ∃ left moved, moved ≤ left.length ∧ exec .dec s = .next (State.faulting 0x3100#16 0x0A#8
      (s.withBin (s.ports.bin.failedAfter pre.length left moved plan)))

/-! ## HSER and HDES -/

/-- R97, R181, R66: HSER appends the 512 bytes of the header, for every symbol in order the high byte of its count and
then the low byte, answers 512, and changes nothing else. -/
def Obligations.HserWritesTheHeader : Prop :=
  decode 0x4000#16 = .ok .hser ∧
  ∀ s : State, s.core.fault = false → s.core.ti = true → noFailure 512 s.ports.hout.plan →
    ∃ hdr : List Byte, hdr.length = 512 ∧
      (∀ x : Symbol, hdr[2 * x.toNat]? = some ((s.core.count x).extractLsb' 8 8) ∧
        hdr[2 * x.toNat + 1]? = some ((s.core.count x).extractLsb' 0 8)) ∧
      exec .hser s = .next (State.answering 512#24 (s.withHout (s.ports.hout.wrote hdr)))

/-- R182: if HOUT fails on byte number k + 1 of the header, the first k stay, no further byte is offered, and HSER ends
in E_IO; what the failed transfer left behind them is open. -/
def Obligations.HserFailurePartWayKeepsTheBytes : Prop :=
  ∀ (s : State) (k : Nat) (plan : List Answer), s.core.fault = false → s.core.ti = true → k < 512 →
    s.ports.hout.plan = List.replicate k .serves ++ .fails :: plan →
    ∃ tail, exec .hser s = .next (State.faulting 0x4000#16 0x0A#8
      (s.withHout (s.ports.hout.failedAfter ((headerBytes s.core.count).take k) tail plan)))

/-- R184, R69: HDES takes 512 bytes, makes each pair of them, high byte first, the count of its symbol, and TOTAL their
sum; TI becomes 1 and TV 0, and nothing else changes. -/
def Obligations.HdesReadsTheHeader : Prop :=
  decode 0x4100#16 = .ok .hdes ∧
  ∀ (s : State) (hdr rest : List Byte), s.core.fault = false → hdr.length = 512 →
    s.ports.hin.unread = hdr ++ rest → noFailure 512 s.ports.hin.plan →
    ∃ (f : Vector Count 256) (total : Weight),
      (∀ (x : Symbol) (hi lo : Byte), hdr[2 * x.toNat]? = some hi → hdr[2 * x.toNat + 1]? = some lo →
        f[x.toNat]'(x.isLt) = hi ++ lo) ∧
      total.toNat = sumBelow f 256 ∧
      exec .hdes s = .next (State.answering total
        { s.withHin (s.ports.hin.took 512) with core := s.core.withTable f total true false })

/-- R185, R229: HDES on a stream of k < 512 bytes takes them all, writes the k / 2 entries it has both bytes of, leaves
their sum in TOTAL, TI and TV 0, and raises E_HDR_SHORT. -/
def Obligations.HdesOnShortHeaderRaisesHdrShort : Prop :=
  ∀ (s : State) (got : List Byte), s.core.fault = false → s.ports.hin.unread = got → got.length < 512 →
    noFailure (got.length + 1) s.ports.hin.plan →
    ∃ (f : Vector Count 256) (total : Weight),
      (∀ (x : Symbol) (hi lo : Byte), got[2 * x.toNat]? = some hi → got[2 * x.toNat + 1]? = some lo →
        f[x.toNat]'(x.isLt) = hi ++ lo) ∧
      (∀ x : Symbol, got.length / 2 ≤ x.toNat → f[x.toNat]'(x.isLt) = s.core.count x) ∧
      total.toNat = sumBelow f (got.length / 2) ∧
      exec .hdes s = .next (State.faulting 0x4100#16 0x09#8
        { s.withHin { s.ports.hin with pos := s.ports.hin.pos + got.length
                                       plan := s.ports.hin.plan.drop (got.length + 1)
                                       asked := s.ports.hin.asked + got.length + 1 } with
          core := s.core.withTable f total false false })

/-- R185, R230: the same when HIN fails on byte number k + 1, with E_IO; what the failed transfer did to the rest of HIN
is open. -/
def Obligations.HdesOnFailingSourceRaisesIo : Prop :=
  ∀ (s : State) (got rest : List Byte) (plan : List Answer), s.core.fault = false →
    s.ports.hin.unread = got ++ rest → got.length < 512 →
    s.ports.hin.plan = List.replicate got.length .serves ++ .fails :: plan →
    ∃ (f : Vector Count 256) (total : Weight) (left : List Byte) (moved : Nat),
      (∀ (x : Symbol) (hi lo : Byte), got[2 * x.toNat]? = some hi → got[2 * x.toNat + 1]? = some lo →
        f[x.toNat]'(x.isLt) = hi ++ lo) ∧
      (∀ x : Symbol, got.length / 2 ≤ x.toNat → f[x.toNat]'(x.isLt) = s.core.count x) ∧
      total.toNat = sumBelow f (got.length / 2) ∧ moved ≤ left.length ∧
      exec .hdes s = .next (State.faulting 0x4100#16 0x0A#8
        { s.withHin (s.ports.hin.failedAfter got.length left moved plan) with
          core := s.core.withTable f total false false })

/-- R186: HDES of the bytes that HSER wrote restores the table, and a BUILD on each side gives the same tree. -/
def Obligations.HdesUndoesHser : Prop :=
  ∀ (s s1 t : State) (rest : List Byte), s.core.fault = false → s.core.ti = true →
    noFailure 512 s.ports.hout.plan → exec .hser s = .next s1 → t.core.fault = false →
    t.ports.hin.unread = s1.ports.hout.data.drop s.ports.hout.data.length ++ rest →
    noFailure 512 t.ports.hin.plan →
    ∃ t1 s2 t2, exec .hdes t = .next t1 ∧ t1.core.freq = s.core.freq ∧ t1.core.total.toNat = s.core.tableSum ∧
      t1.core.ti = true ∧ t1.core.tv = false ∧ exec .build s1 = .next s2 ∧ exec .build t1 = .next t2 ∧
      s2.core.nleaf = t2.core.nleaf ∧ s2.core.nnodes = t2.core.nnodes ∧ s2.core.root = t2.core.root ∧
      s2.core.leaf = t2.core.leaf ∧ ∀ n < s2.core.nnodes.toNat, s2.core.node[n]? = t2.core.node[n]?

/-! ## Faults -/

/-- R223: FINC, FRD, BUILD and HSER raise E_NOTABLE when TI = 0; nothing else changes. -/
def Obligations.NoTableRaisesNotable : Prop :=
  ∀ s : State, s.core.fault = false → s.core.ti = false →
    (∀ x : Symbol, exec (.finc x) s = .next (s.faulting (wordOf 0x11 x) 0x03#8)) ∧
    (∀ x : Symbol, exec (.frd x) s = .next (s.faulting (wordOf 0x12 x) 0x03#8)) ∧
    exec .build s = .next (s.faulting 0x2000#16 0x03#8) ∧ exec .hser s = .next (s.faulting 0x4000#16 0x03#8)

/-- R224: ENC and DEC raise E_NOTREE when TV = 0; nothing else changes and no transfer is made. -/
def Obligations.NoTreeRaisesNotree : Prop :=
  ∀ s : State, s.core.fault = false → s.core.tv = false →
    (∀ x : Symbol, exec (.enc x) s = .next (s.faulting (wordOf 0x30 x) 0x04#8)) ∧
    exec .dec s = .next (s.faulting 0x3100#16 0x04#8)

/-- R163, R226: ENC of a symbol without a leaf raises E_NOLEAF, emits no bit and changes nothing else. -/
def Obligations.AbsentSymbolRaisesNoleaf : Prop :=
  ∀ (s : State) (sym : Symbol), s.core.fault = false → s.core.tv = true → s.core.leafOf sym = 0x1FF#9 →
    exec (.enc sym) s = .next (s.faulting (wordOf 0x30 sym) 0x06#8)

/-- R173, R225: DEC on the placeholder root raises E_EMPTY, takes no bit and changes nothing else. -/
def Obligations.PlaceholderRaisesEmpty : Prop :=
  ∀ s : State, s.core.fault = false → s.core.tv = true → s.core.nleaf = 0#9 →
    exec .dec s = .next (s.faulting 0x3100#16 0x05#8)

/-- R94, R93: which words are illegal, and how many are legal. -/
def Obligations.IllegalWordsAreTheThreeCases : Prop :=
  (∀ c : CmdWord, (∃ r, decode c = .error r) ↔
    ((c.extractLsb' 8 8 ∉ [0x00#8, 0x10#8, 0x11#8, 0x12#8, 0x20#8, 0x30#8, 0x31#8, 0x40#8, 0x41#8, 0xF0#8, 0xFF#8]) ∨
     (c.extractLsb' 8 8 ∈ [0x00#8, 0x10#8, 0x20#8, 0x31#8, 0x40#8, 0x41#8, 0xFF#8] ∧ c.extractLsb' 0 8 ≠ 0x00#8) ∨
     (c.extractLsb' 8 8 = 0xF0#8 ∧ 7 ≤ (c.extractLsb' 0 8).toNat))) ∧
  (allSymbols.map fun op => allSymbols.countP fun arg =>
    match decode (op ++ arg) with | .ok _ => true | .error _ => false).sum = 782

/-- R222, R239, R94: an illegal word that the FAULT gate lets pass raises E_ILLEGAL: with FAULT = 0 by the fault entry
alone, with FAULT = 1 (a bad NOP, RDSR or SRST word) by its response alone. -/
def Obligations.IllegalWordRaisesIllegal : Prop :=
  ∀ (s : State) (c : CmdWord) (rest : List HostMove) (r : Reject), decode c = .error r →
    (s.core.fault = false → step { s with inbox := .command c :: rest } =
      .next (State.faulting c 0x01#8 { s with inbox := rest })) ∧
    (s.core.fault = true → c.extractLsb' 8 8 ∈ [0x00#8, 0xF0#8, 0xFF#8] →
      step { s with inbox := .command c :: rest } = .next (State.declining 0x01#8 { s with inbox := rest }))

/-- R233: while FAULT = 1 every word, legal or not, whose opcode is not that of NOP, RDSR or SRST is answered E_FAULTED
and has no effect. -/
def Obligations.FaultedCoreRefusesCommands : Prop :=
  ∀ (s : State) (c : CmdWord) (rest : List HostMove), s.core.fault = true →
    c.extractLsb' 8 8 ∉ [0x00#8, 0xF0#8, 0xFF#8] →
    step { s with inbox := .command c :: rest } = .next (State.declining 0x02#8 { s with inbox := rest })

/-- R27, R233, R238, R239: while FAULT = 1 no word but SRST changes the core or a port, so FAULT, ERRCODE and ERRCMD keep
the first fault. -/
def Obligations.FirstFaultIsKept : Prop :=
  ∀ (s : State) (c : CmdWord) (rest : List HostMove), s.core.fault = true → c ≠ 0xFF00#16 →
    ∃ t, step { s with inbox := .command c :: rest } = .next t ∧ t.core = s.core ∧ t.ports = s.ports ∧
      t.inbox = rest ∧ t.resets = s.resets ∧ ∃ r, t.responses = s.responses ++ [r]

/-- R264: with TI = TV = FAULT = 0, as after a reset, NOP, SRST, FCLR and RDSR answer OK, HDES does so given 512 bytes,
and all others fault. -/
def Obligations.FirstCommandsAfterReset : Prop :=
  ∀ s : State, s.core.fault = false → s.core.ti = false → s.core.tv = false →
    (∀ i ∈ [Instr.nop, .srst, .fclr, .rdsr 0#8, .rdsr 1#8, .rdsr 2#8, .rdsr 3#8, .rdsr 4#8, .rdsr 5#8, .rdsr 6#8],
      ∃ (t : State) (v : Weight), exec i s = .next t ∧ t.responses = s.responses ++ [0x00#8 ++ v] ∧ t.core.fault = false) ∧
    (512 ≤ s.ports.hin.unread.length → noFailure 512 s.ports.hin.plan →
      ∃ (t : State) (v : Weight), exec .hdes s = .next t ∧ t.responses = s.responses ++ [0x00#8 ++ v] ∧ t.core.fault = false) ∧
    (∀ x : Symbol, ∀ i ∈ [Instr.finc x, .frd x, .build, .hser],
      exec i s = .next (s.faulting (encode i) 0x03#8)) ∧
    (∀ x : Symbol, ∀ i ∈ [Instr.enc x, .dec], exec i s = .next (s.faulting (encode i) 0x04#8))

/-- R234: the codes each command can report. -/
def Obligations.CodesEachCommandCanReport : Prop :=
  ∀ (i : Instr) (s t : State), i.WellFormed → exec i s = .next t →
    ∃ (e : BitVec 8) (v : Weight), t.responses = s.responses ++ [e ++ v] ∧
      match i with
      | .nop => e = 0x00#8
      | .fclr => e ∈ [0x00#8, 0x02#8]
      | .finc _ => e ∈ [0x00#8, 0x02#8, 0x03#8, 0x07#8]
      | .frd _ => e ∈ [0x00#8, 0x02#8, 0x03#8]
      | .build => e ∈ [0x00#8, 0x02#8, 0x03#8]
      | .enc _ => e ∈ [0x00#8, 0x02#8, 0x04#8, 0x06#8, 0x0A#8]
      | .dec => e ∈ [0x00#8, 0x02#8, 0x04#8, 0x05#8, 0x08#8, 0x0A#8]
      | .hser => e ∈ [0x00#8, 0x02#8, 0x03#8, 0x0A#8]
      | .hdes => e ∈ [0x00#8, 0x02#8, 0x09#8, 0x0A#8]
      | .rdsr _ => e = 0x00#8
      | .srst => e = 0x00#8

/-! ## Whole-machine rules -/

/-- R95: every command word is answered by exactly one response word, whose value is 0 unless its code is OK. -/
def Obligations.OneResponsePerCommand : Prop :=
  ∀ (s t : State) (c : CmdWord) (rest : List HostMove), step { s with inbox := .command c :: rest } = .next t →
    t.inbox = rest ∧ ∃ (e : BitVec 8) (v : Weight), t.responses = s.responses ++ [e ++ v] ∧ e.toNat ≤ 0x0A ∧
      (e ≠ 0x00#8 → v = 0#24)

/-- R35 (d), R32, R30, R36: no command but BUILD and the reset writes NODE, LEAF, NLEAF, NNODES or ROOT. -/
def Obligations.OnlyBuildWritesTheTree : Prop :=
  ∀ (i : Instr) (s t : State), i ≠ .build → i ≠ .srst → exec i s = .next t →
    t.core.node = s.core.node ∧ t.core.leaf = s.core.leaf ∧ t.core.nleaf = s.core.nleaf ∧
    t.core.nnodes = s.core.nnodes ∧ t.core.root = s.core.root

/-- R26, R25, R271: a command that changes the table leaves TV = 0; only BUILD raises TV; only FCLR and HDES raise TI. -/
def Obligations.TableWritesClearTreeValid : Prop :=
  ∀ (i : Instr) (s t : State), exec i s = .next t →
    (t.core.freq ≠ s.core.freq → t.core.tv = false) ∧
    (i ≠ .build → t.core.tv = true → s.core.tv = true) ∧
    (i ≠ .fclr → i ≠ .hdes → t.core.ti = true → s.core.ti = true)

/-- R66: each command uses no port but its own, faulting or not; when it does not fault it makes there exactly as many
requests as R66 says: 512 of HDES and of HSER, and, on a tree with the properties of R35, as many of ENC as the code it
emits is long and as many of DEC as the leaf it reached is deep. -/
def Obligations.EachCommandUsesItsOwnPort : Prop :=
  ∀ (i : Instr) (s t : State), exec i s = .next t →
    (i ≠ .hdes → t.ports.hin = s.ports.hin) ∧ (i ≠ .hser → t.ports.hout = s.ports.hout) ∧
    (i ≠ .dec → t.ports.bin = s.ports.bin) ∧ ((∀ x, i ≠ .enc x) → t.ports.bout = s.ports.bout) ∧
    (t.core.fault = false → s.core.fault = false →
      (i = .hdes → t.ports.hin.asked = s.ports.hin.asked + 512) ∧
      (i = .hser → t.ports.hout.asked = s.ports.hout.asked + 512) ∧
      (i = .dec → t.ports.bin.asked ≤ s.ports.bin.asked + 255 ∧
        (TreeOk s.core → ∃ sym bits, IsCode s.core sym bits ∧ t.ports.bin.asked = s.ports.bin.asked + bits.length ∧
          t.responses = s.responses ++ [0x00#8 ++ sym.setWidth 24])) ∧
      (∀ x, i = .enc x → t.ports.bout.asked ≤ s.ports.bout.asked + 255 ∧
        (∃ v : Weight, v.toNat = t.ports.bout.asked - s.ports.bout.asked ∧
          t.responses = s.responses ++ [0x00#8 ++ v]) ∧
        (TreeOk s.core → ∃ bits, IsCode s.core x bits ∧ t.ports.bout.asked = s.ports.bout.asked + bits.length)))

/-- R77 (d), R236, R263: no step, be it a fault or a reset, takes anything back from an output stream or moves a read
position back. -/
def Obligations.StreamsOnlyAdvance : Prop :=
  ∀ s t : State, step s = .next t →
    s.ports.hout.data <+: t.ports.hout.data ∧ s.ports.bout.data <+: t.ports.bout.data ∧
    s.ports.hin.pos ≤ t.ports.hin.pos ∧ s.ports.bin.pos ≤ t.ports.bin.pos

/-- R262: a command cut short by a hard reset after `k` transfers gets no response and leaves the reset state. On a port on
which the whole command would have made more than `k` requests, exactly its first `k` transfers were made: an output stream
gained the first `k` units it would have gained, an input stream lost the next `k` of its units and still holds what it held.
On every other port the command is as if it had ended. -/
def Obligations.ResetDuringCommandLeavesAPrefix : Prop :=
  ∀ (s u : State) (c : CmdWord) (k : Nat) (rest : List HostMove),
    step { s with inbox := .command c :: rest } = .next u →
    ∃ t, step { s with inbox := .commandCut c k :: rest } = .next t ∧
      t.core.RegistersReset ∧ t.responses = s.responses ∧ t.inbox = rest ∧
      CutOut k s.ports.hout t.ports.hout u.ports.hout ∧ CutOut k s.ports.bout t.ports.bout u.ports.bout ∧
      CutIn k s.ports.hin t.ports.hin u.ports.hin ∧ CutIn k s.ports.bin t.ports.bin u.ports.bin

/-- The reset state meets the invariants. -/
def Obligations.ResetMeetsTheInvariant : Prop := State.reset.Inv

/-- R23, R26, R27, R29, R30, R35, R36, R61: every step keeps the invariants of the spec. -/
def Obligations.EveryStepKeepsTheInvariant : Prop :=
  ∀ s t : State, s.Inv → step s = .next t → t.Inv

/-- R285, R42: in every state that meets the invariants every step answers a next state: no walk leaves the arena, runs
too long or meets a node without symbol. -/
def Obligations.NoStepStops : Prop := ∀ s : State, s.Inv → ∃ t, step s = .next t

/-! ## Step, decoding and encoding -/

/-- R6: when the host's next move is a word that decodes to a command, the step is that command, the word taken from the
host's list. -/
def Obligations.StepRunsTheDecodedCommand : Prop :=
  ∀ (s : State) (c : CmdWord) (i : Instr) (rest : List HostMove), decode c = .ok i →
    step { s with inbox := .command c :: rest } = exec i { s with inbox := rest }

/-- R260: a core with no command to execute waits (the model's reading, log 4). -/
def Obligations.CoreWaitsForACommand : Prop := ∀ s : State, s.inbox = [] → step s = .next s

/-- R93: a word of every command, written out from the opcode map, decodes to it. -/
def Obligations.WordsOfTheOpcodeMapDecode : Prop :=
  decode 0b0000000000000000#16 = .ok .nop ∧ decode 0b0001000000000000#16 = .ok .fclr ∧
  decode 0b0001000101100001#16 = .ok (.finc 0x61#8) ∧ decode 0b0001001011111111#16 = .ok (.frd 0xFF#8) ∧
  decode 0b0010000000000000#16 = .ok .build ∧ decode 0b0011000001100001#16 = .ok (.enc 0x61#8) ∧
  decode 0b0011000100000000#16 = .ok .dec ∧ decode 0b0100000000000000#16 = .ok .hser ∧
  decode 0b0100000100000000#16 = .ok .hdes ∧ decode 0b1111000000000011#16 = .ok (.rdsr 3#8) ∧
  decode 0b1111111100000000#16 = .ok .srst

/-- R90 to R94: decoding what was encoded gives the command back, for every well-formed command. -/
def Obligations.DecodeInvertsEncode : Prop := ∀ i : Instr, i.WellFormed → decode (encode i) = .ok i

/-- R93: a legal word is the encoding of the one well-formed command it decodes to. -/
def Obligations.EncodeInvertsDecode : Prop :=
  ∀ (c : CmdWord) (i : Instr), decode c = .ok i → i.WellFormed ∧ encode i = c

/-- R93: the rows of the opcode map are disjoint; a word decodes to a command of the row it selects, and every word that
selects a row decodes to a command of that row, but for an RDSR with a register number above 6 (R94 (c)). -/
def Obligations.OpcodeRowsAreDisjoint : Prop :=
  (∀ (c : CmdWord) (a b : OpRow), a ∈ opcodeRows → b ∈ opcodeRows → c &&& a.mask = a.pattern →
    c &&& b.mask = b.pattern → a = b) ∧
  (∀ (c : CmdWord) (i : Instr), decode c = .ok i → i.row ∈ opcodeRows ∧ c &&& i.row.mask = i.row.pattern) ∧
  (∀ (c : CmdWord) (a : OpRow), a ∈ opcodeRows → c &&& a.mask = a.pattern →
    (a.pattern = 0xF000#16 → (c.extractLsb' 0 8).toNat ≤ 6) → ∃ i, decode c = .ok i ∧ i.row = a)

/-! ## The file view and the host's sequences -/

/-- R74: Pack lays bit number 8k + j into bit 7 - j of byte k and needs ceil(L / 8) bytes; Unpack inverts it on whole
bytes, and gives the bits back before the padding, whatever the padding is. -/
def Obligations.UnpackInvertsPack : Prop :=
  (∀ (pad : Byte) (bits : List Bool), (pack pad bits).length = (bits.length + 7) / 8 ∧
    (∀ (k j : Nat) (b : Bool), j < 8 → bits[8 * k + j]? = some b →
      ∃ v, (pack pad bits)[k]? = some v ∧ v.getLsbD (7 - j) = b) ∧
    bits <+: unpack (pack pad bits)) ∧
  (∀ (pad : Byte) (bytes : List Byte), pack pad (unpack bytes) = bytes)

/-- R210: the round trip. For every byte sequence in which no value occurs more than 65535 times, a host that follows
R201 to R205 on a core without fault, with fresh ports that never fail, and then R206 to R209 on the file, whatever the
padding, gets only OK responses and the sequence back; the second core may be any core without fault. -/
def Obligations.RoundTripRestoresTheInput : Prop :=
  ∀ (xs : List Byte) (pad : Byte) (s : State), (∀ x : Byte, xs.count x ≤ 65535) → s.core.fault = false →
    s.ports.hout.data = [] → s.ports.bout.data = [] → Answer.fails ∉ s.ports.hout.plan →
    Answer.fails ∉ s.ports.bout.plan →
    ∃ file t, compress pad xs s = some (file, t) ∧
      ∀ u : State, u.core.fault = false → decompress file u = some xs
end

