-- ==== Sys2Proof/Laws/Decode.lean ====
section
/-! SUPPORT. The two fields of a command word, and of an encoded command. -/

namespace Sys2Proof

/-- The bits of a command word put together from its fields. -/
theorem getLsbD_word (op arg : Byte) (i : Nat) :
    BitVec.getLsbD (w := 16) (op ++ arg) i = if i < 8 then arg.getLsbD i else op.getLsbD (i - 8) :=
  BitVec.getLsbD_append (x := op) (y := arg) (i := i)

@[simp] theorem opField_append (op arg : Byte) : opField (op ++ arg) = op := by
  apply BitVec.eq_of_getLsbD_eq
  intro i hi
  simp only [opField, BitVec.getLsbD_extractLsb', getLsbD_word]
  simp [hi]

@[simp] theorem argField_append (op arg : Byte) : argField (op ++ arg) = arg := by
  apply BitVec.eq_of_getLsbD_eq
  intro i hi
  simp only [argField, BitVec.getLsbD_extractLsb', getLsbD_word]
  simp [hi]

/-- The fields of an encoded command are its opcode and its operand (R90). -/
@[simp] theorem opField_encode (i : Instr) : opField (encode i) = i.op := by simp [encode]

@[simp] theorem argField_encode (i : Instr) : argField (encode i) = i.arg := by simp [encode]

/-- A word is its two fields side by side (R90). -/
theorem fields_append (c : CmdWord) : opField c ++ argField c = c := by
  apply BitVec.eq_of_getLsbD_eq
  intro i hi
  simp only [getLsbD_word, opField, argField, BitVec.getLsbD_extractLsb']
  by_cases h : i < 8
  · simp [h]
  · simp [h, show i - 8 < 8 by omega, show 8 + (i - 8) = i by omega]

/-- Decoding an encoded command decodes its fields. -/
theorem decode_encode_fields (i : Instr) : decode (encode i) = decodeFields i.op i.arg := by
  simp [decode]

/-- What a format N word that decodes is (R91). -/
theorem decodeN_eq_ok {op arg : Byte} {i j : Instr} (h : decodeN op arg i = .ok j) : arg = 0x00#8 ∧ i = j := by
  unfold decodeN at h
  by_cases ha : arg = 0#8
  · rw [if_pos ha] at h; injection h with h; exact ⟨ha, h⟩
  · rw [if_neg ha] at h; cases h

/-- What a format R word that decodes is (R91). -/
theorem decodeR_eq_ok {arg : Byte} {i : Instr} (h : decodeR arg = .ok i) : arg ≤ 0x06#8 ∧ .rdsr arg = i := by
  unfold decodeR at h
  by_cases ha : arg ≤ 6#8
  · rw [if_pos ha] at h; injection h with h; exact ⟨ha, h⟩
  · rw [if_neg ha] at h; cases h

end Sys2Proof
end

