-- ==== Sys2Proof/Laws/State.lean ====
section
/-! SUPPORT. One lemma per field per update of the state, and the accessors of the table after an update. -/

namespace Sys2Proof.Machine

open Sys2Proof

/-! ## The ends of a command -/

@[simp] theorem respond_core (e : Code) (v : Weight) (s : State) : (respond e v s).core = s.core := rfl
@[simp] theorem respond_ports (e : Code) (v : Weight) (s : State) : (respond e v s).ports = s.ports := rfl
@[simp] theorem respond_inbox (e : Code) (v : Weight) (s : State) : (respond e v s).inbox = s.inbox := rfl
@[simp] theorem respond_resets (e : Code) (v : Weight) (s : State) : (respond e v s).resets = s.resets := rfl
@[simp] theorem respond_responses (e : Code) (v : Weight) (s : State) :
    (respond e v s).responses = s.responses ++ [e.bits ++ v] := rfl

@[simp] theorem raise_core (w : CmdWord) (e : Code) (s : State) : (raise w e s).core = s.core.faultEntry w e := rfl
@[simp] theorem raise_ports (w : CmdWord) (e : Code) (s : State) : (raise w e s).ports = s.ports := rfl
@[simp] theorem raise_inbox (w : CmdWord) (e : Code) (s : State) : (raise w e s).inbox = s.inbox := rfl
@[simp] theorem raise_resets (w : CmdWord) (e : Code) (s : State) : (raise w e s).resets = s.resets := rfl
@[simp] theorem raise_responses (w : CmdWord) (e : Code) (s : State) :
    (raise w e s).responses = s.responses ++ [e.bits ++ 0#24] := rfl

@[simp] theorem faultEntry_freq (c : CoreState) (w : CmdWord) (e : Code) : (c.faultEntry w e).freq = c.freq := by
  unfold CoreState.faultEntry; split <;> rfl
@[simp] theorem faultEntry_total (c : CoreState) (w : CmdWord) (e : Code) : (c.faultEntry w e).total = c.total := by
  unfold CoreState.faultEntry; split <;> rfl
@[simp] theorem faultEntry_ti (c : CoreState) (w : CmdWord) (e : Code) : (c.faultEntry w e).ti = c.ti := by
  unfold CoreState.faultEntry; split <;> rfl
@[simp] theorem faultEntry_tv (c : CoreState) (w : CmdWord) (e : Code) : (c.faultEntry w e).tv = c.tv := by
  unfold CoreState.faultEntry; split <;> rfl
@[simp] theorem faultEntry_nleaf (c : CoreState) (w : CmdWord) (e : Code) : (c.faultEntry w e).nleaf = c.nleaf := by
  unfold CoreState.faultEntry; split <;> rfl
@[simp] theorem faultEntry_nnodes (c : CoreState) (w : CmdWord) (e : Code) :
    (c.faultEntry w e).nnodes = c.nnodes := by
  unfold CoreState.faultEntry; split <;> rfl
@[simp] theorem faultEntry_root (c : CoreState) (w : CmdWord) (e : Code) : (c.faultEntry w e).root = c.root := by
  unfold CoreState.faultEntry; split <;> rfl
@[simp] theorem faultEntry_node (c : CoreState) (w : CmdWord) (e : Code) : (c.faultEntry w e).node = c.node := by
  unfold CoreState.faultEntry; split <;> rfl
@[simp] theorem faultEntry_leaf (c : CoreState) (w : CmdWord) (e : Code) : (c.faultEntry w e).leaf = c.leaf := by
  unfold CoreState.faultEntry; split <;> rfl
/-- After a fault entry FAULT is 1. -/
@[simp] theorem faultEntry_fault (c : CoreState) (w : CmdWord) (e : Code) : (c.faultEntry w e).fault = true := by
  unfold CoreState.faultEntry; split <;> simp_all
/-- A fault while FAULT = 1 records nothing (R239). -/
theorem faultEntry_of_fault {c : CoreState} (w : CmdWord) (e : Code) (h : c.fault = true) :
    c.faultEntry w e = c := by simp [CoreState.faultEntry, h]
/-- The first fault is recorded (R232). -/
theorem faultEntry_of_noFault {c : CoreState} (w : CmdWord) (e : Code) (h : c.fault = false) :
    c.faultEntry w e = { c with errcode := e.bits, errcmd := w, fault := true } := by simp [CoreState.faultEntry, h]

@[simp] theorem resetCore_core (s : State) : (resetCore s).core = coreAfterReset s.resets := rfl
@[simp] theorem resetCore_ports (s : State) : (resetCore s).ports = s.ports := by
  simp only [resetCore]
@[simp] theorem resetCore_inbox (s : State) : (resetCore s).inbox = s.inbox := by
  simp only [resetCore]
@[simp] theorem resetCore_responses (s : State) : (resetCore s).responses = s.responses := by
  simp only [resetCore]
@[simp] theorem resetCore_resets (s : State) : (resetCore s).resets = s.resets + 1 := rfl

/-- The registers after a reset are those of R41. -/
theorem coreAfterReset_registers (k : Nat) : (coreAfterReset k).RegistersReset := by
  refine ⟨rfl, rfl, rfl, rfl, rfl, rfl, rfl, rfl, rfl, ?_⟩
  simp [CoreState.status, CoreState.empty, CoreState.single, coreAfterReset]

/-! ## The table -/

@[simp] theorem setCount_total (c : CoreState) (x : Symbol) (v : Count) : (c.setCount x v).total = c.total := rfl
@[simp] theorem setCount_ti (c : CoreState) (x : Symbol) (v : Count) : (c.setCount x v).ti = c.ti := rfl
@[simp] theorem setCount_tv (c : CoreState) (x : Symbol) (v : Count) : (c.setCount x v).tv = c.tv := rfl
@[simp] theorem setCount_fault (c : CoreState) (x : Symbol) (v : Count) : (c.setCount x v).fault = c.fault := rfl
@[simp] theorem setCount_errcode (c : CoreState) (x : Symbol) (v : Count) :
    (c.setCount x v).errcode = c.errcode := rfl
@[simp] theorem setCount_errcmd (c : CoreState) (x : Symbol) (v : Count) : (c.setCount x v).errcmd = c.errcmd := rfl
@[simp] theorem setCount_nleaf (c : CoreState) (x : Symbol) (v : Count) : (c.setCount x v).nleaf = c.nleaf := rfl
@[simp] theorem setCount_nnodes (c : CoreState) (x : Symbol) (v : Count) : (c.setCount x v).nnodes = c.nnodes := rfl
@[simp] theorem setCount_root (c : CoreState) (x : Symbol) (v : Count) : (c.setCount x v).root = c.root := rfl
@[simp] theorem setCount_node (c : CoreState) (x : Symbol) (v : Count) : (c.setCount x v).node = c.node := rfl
@[simp] theorem setCount_leaf (c : CoreState) (x : Symbol) (v : Count) : (c.setCount x v).leaf = c.leaf := rfl

/-- A table entry after a write: the value written there, the old one elsewhere. -/
theorem count_setCount (c : CoreState) (x y : Symbol) (v : Count) :
    (c.setCount x v).count y = if x = y then v else c.count y := by
  simp only [CoreState.count, CoreState.setCount, Vector.getElem_set]
  by_cases h : x = y
  · simp [h]
  · have : x.toNat ≠ y.toNat := fun e => h (BitVec.eq_of_toNat_eq e)
    simp [h, this]

@[simp] theorem count_setCount_self (c : CoreState) (x : Symbol) (v : Count) : (c.setCount x v).count x = v := by
  simp [count_setCount]

/-- Reading the table looks at `freq` alone. -/
theorem count_congr {c d : CoreState} (h : c.freq = d.freq) (x : Symbol) : c.count x = d.count x := by
  simp [CoreState.count, h]

/-- Reading the leaf table looks at `leaf` alone. -/
theorem leafOf_congr {c d : CoreState} (h : c.leaf = d.leaf) (x : Symbol) : c.leafOf x = d.leafOf x := by
  simp [CoreState.leafOf, h]

/-- Reading the arena looks at `node` alone. -/
theorem nodeAt_congr {c d : CoreState} (h : c.node = d.node) (n : NodeIdx) : c.nodeAt n = d.nodeAt n := by
  simp [CoreState.nodeAt, h]

/-- Index NIL names no node (R32). -/
@[simp] theorem nodeAt_nil (c : CoreState) : c.nodeAt Config.nil = none := by
  simp [CoreState.nodeAt, Config.nil]

/-- Every other index names one (R32). -/
theorem nodeAt_isSome (c : CoreState) {n : NodeIdx} (h : n ≠ Config.nil) : ∃ nd, c.nodeAt n = some nd := by
  have h1 : n.toNat ≠ 511 := fun e => h (BitVec.eq_of_toNat_eq (by simpa [Config.nil] using e))
  have h2 : n.toNat < 511 := by have := n.isLt; omega
  exact ⟨c.node[n.toNat], by simp [CoreState.nodeAt, h2]⟩

/-- Every symbol is among the 256, once. -/
@[simp] theorem mem_allSymbols (x : Symbol) : x ∈ allSymbols := by
  simp only [allSymbols, List.mem_map, List.mem_range]
  exact ⟨x.toNat, x.isLt, by simp⟩

@[simp] theorem allSymbols_length : allSymbols.length = 256 := by simp [allSymbols]

/-- The symbol in place `i` of the ascending order is `i`. -/
theorem allSymbols_getElem (i : Nat) (h : i < allSymbols.length) : allSymbols[i] = BitVec.ofNat 8 i := by
  simp [allSymbols]

/-- Two tables are equal when they agree on every symbol. -/
theorem freq_ext {f g : Vector Count 256} (h : ∀ x : Symbol, f[x.toNat]'(x.isLt) = g[x.toNat]'(x.isLt)) : f = g := by
  apply Vector.ext
  intro i hi
  have := h (BitVec.ofNat 8 i)
  simpa [Nat.mod_eq_of_lt hi] using this

end Sys2Proof.Machine
end

