-- ==== Sys2Proof/Laws/Ops.lean ====
section
/-! SUPPORT. What the shared operations of Machine/Ops.lean can do: the FAULT gate, the end of a command, `require`. -/

namespace Sys2Proof.Machine

open Sys2Proof

/-! ## The FAULT gate (R231) -/

@[simp] theorem gateCloses_of_noFault {c : CoreState} (w : CmdWord) (h : c.fault = false) :
    gateCloses w c = false := by simp [gateCloses, h]

/-- While FAULT = 1 the gate is closed to every opcode but the three of the system commands (R231, R233). -/
theorem gateCloses_of_fault {c : CoreState} (w : CmdWord) (h : c.fault = true) :
    gateCloses w c = !(opField w == 0x00#8 || opField w == 0xF0#8 || opField w == 0xFF#8) := by
  simp [gateCloses, h]

theorem runBody_of_noFault {s : State} (w : CmdWord) (b : State → Result Weight) (h : s.core.fault = false) :
    runBody w b s = finish w (b s) := by simp [runBody, h]

theorem runBody_closed {s : State} (w : CmdWord) (b : State → Result Weight) (h : gateCloses w s.core = true) :
    runBody w b s = .next (s.declining 0x02#8) := by
  simp only [runBody, h, if_true]; rfl

theorem runBody_open {s : State} (w : CmdWord) (b : State → Result Weight) (h : gateCloses w s.core = false) :
    runBody w b s = finish w (b s) := by simp [runBody, h]

/-! ## The end of a command -/

/-- Responding OK, field by field. -/
theorem respond_ok_eq (v : Weight) (s : State) : respond .ok v s = s.answering v := rfl

/-- The first fault since reset, field by field (R232). -/
theorem raise_of_noFault (w : CmdWord) (e : Code) {s : State} (h : s.core.fault = false) :
    raise w e s = s.faulting w e.bits := by
  simp only [raise, respond, responseWord, State.faulting, faultEntry_of_noFault w e h]

/-- A later fault, field by field (R239). -/
theorem raise_of_fault (w : CmdWord) (e : Code) {s : State} (h : s.core.fault = true) :
    raise w e s = s.declining e.bits := by
  simp only [raise, respond, responseWord, State.declining, faultEntry_of_fault w e h]

@[simp] theorem finish_done (w : CmdWord) (v : Weight) (s : State) :
    finish w (.done v s) = .next (s.answering v) := rfl
@[simp] theorem finish_raised (w : CmdWord) (e : Code) (s : State) :
    finish w (.raised e s) = .next (raise w e s) := rfl
@[simp] theorem finish_stuck (w : CmdWord) (f : Fault) : finish w (.stuck f) = .fault f := rfl

/-- A command that answers a next state was refused by the gate, or completed, or faulted. -/
theorem runBody_next {w : CmdWord} {b : State → Result Weight} {s t : State} (h : runBody w b s = .next t) :
    (gateCloses w s.core = true ∧ t = s.declining 0x02#8) ∨
    (gateCloses w s.core = false ∧ ∃ v u, b s = .done v u ∧ t = u.answering v) ∨
    (gateCloses w s.core = false ∧ ∃ e u, b s = .raised e u ∧ t = raise w e u) := by
  cases hg : gateCloses w s.core with
  | true =>
    rw [runBody_closed w b hg] at h
    exact .inl ⟨rfl, by injection h with h; exact h.symm⟩
  | false =>
    rw [runBody_open w b hg] at h
    cases hb : b s with
    | done v u => rw [hb] at h; injection h with h; exact .inr (.inl ⟨rfl, v, u, rfl, h.symm⟩)
    | raised e u => rw [hb] at h; injection h with h; exact .inr (.inr ⟨rfl, e, u, rfl, h.symm⟩)
    | stuck f => rw [hb] at h; cases h

/-- A command never answers with a refusal of the model. -/
theorem runBody_ne_refused {w : CmdWord} {b : State → Result Weight} {s : State} {r : Refusal} :
    runBody w b s ≠ .refused r := by
  unfold runBody
  split
  · simp
  · cases b s <;> simp

/-! ## `require` and sequencing -/

@[simp] theorem require_true {α : Type} (e : Code) (s : State) (k : Result α) : require true e s k = k := rfl
@[simp] theorem require_false {α : Type} (e : Code) (s : State) (k : Result α) :
    require false e s k = .raised e s := rfl

@[simp] theorem Result.bind_done {α β : Type} (a : α) (s : State) (k : α → State → Result β) :
    (Result.done a s).bind k = k a s := rfl
@[simp] theorem Result.bind_raised {α β : Type} (e : Code) (s : State) (k : α → State → Result β) :
    (Result.raised e s : Result α).bind k = .raised e s := rfl
@[simp] theorem Result.bind_stuck {α β : Type} (f : Fault) (k : α → State → Result β) :
    (Result.stuck f : Result α).bind k = .stuck f := rfl

/-- A `require` that passed gives its continuation; one that failed raised its own code in the same state. -/
theorem require_cases {α : Type} (c : Bool) (e : Code) (s : State) (k : Result α) :
    (c = true ∧ require c e s k = k) ∨ (c = false ∧ require c e s k = .raised e s) := by
  cases c <;> simp

/-- A sequence that completed did so through its first part. -/
theorem Result.bind_eq_done {α β : Type} {r : Result α} {k : α → State → Result β} {b : β} {t : State}
    (h : r.bind k = .done b t) : ∃ a u, r = .done a u ∧ k a u = .done b t := by
  cases r with
  | done a u => exact ⟨a, u, rfl, h⟩
  | raised e u => cases h
  | stuck f => cases h

/-- A sequence that raised did so in its first part or in its second. -/
theorem Result.bind_eq_raised {α β : Type} {r : Result α} {k : α → State → Result β} {e : Code} {t : State}
    (h : r.bind k = .raised e t) : r = .raised e t ∨ ∃ a u, r = .done a u ∧ k a u = .raised e t := by
  cases r with
  | done a u => exact .inr ⟨a, u, rfl, h⟩
  | raised e' u => injection h with h1 h2; exact .inl (by rw [h1, h2])
  | stuck f => cases h

end Sys2Proof.Machine
end

