-- ==== Sys2Proof/Laws/Transfers.lean ====
section
/-! SUPPORT. What the transfer primitives and the transfer loops can do (20_memory.md R62 to R68). -/

namespace Sys2Proof.Machine

open Sys2Proof

/-! ## One request at a port -/

theorem noFailure_head {n : Nat} {plan : List Answer} (h : noFailure (n + 1) plan) : noFailure 1 plan := by
  cases plan with
  | nil => simp [noFailure]
  | cons a l => simp [noFailure] at h ⊢; exact h.1

theorem noFailure_tail {n : Nat} {plan : List Answer} (h : noFailure (n + 1) plan) : noFailure n (plan.drop 1) := by
  cases plan with
  | nil => simp [noFailure]
  | cons a l => simp [noFailure] at h ⊢; exact h.2

theorem noFailure_mono {m n : Nat} {plan : List Answer} (hmn : m ≤ n) (h : noFailure n plan) : noFailure m plan :=
  fun hm => h ((List.take_sublist_take_left hmn).subset hm)

theorem InPort.read_unit {α : Type} (rest : Nat → List α) (move : Nat → Nat) {p : InPort α} {v : α}
    (hp : noFailure 1 p.plan) (hv : p.data[p.pos]? = some v) : p.read rest move = (.unit v, p.took 1) := by
  unfold InPort.read
  split
  · rename_i plan h; simp [noFailure, h] at hp
  · simp [hv, InPort.took]

theorem InPort.read_eof {α : Type} (rest : Nat → List α) (move : Nat → Nat) {p : InPort α}
    (hp : noFailure 1 p.plan) (hv : p.data[p.pos]? = none) :
    p.read rest move = (.eof, { p with plan := p.plan.drop 1, asked := p.asked + 1 }) := by
  unfold InPort.read
  split
  · rename_i plan h; simp [noFailure, h] at hp
  · simp [hv]

theorem InPort.read_fail {α : Type} (rest : Nat → List α) (move : Nat → Nat) {p : InPort α} {plan : List Answer}
    (hp : p.plan = .fails :: plan) : p.read rest move =
      (.fail, p.failedAfter 0 (rest p.asked) (min (move p.asked) (rest p.asked).length) plan) := by
  simp [InPort.read, hp, InPort.failedAfter]

theorem OutPort.write_ok {α : Type} (tail : Nat → List α) (v : α) {p : OutPort α} (hp : noFailure 1 p.plan) :
    p.write tail v = (true, p.wrote [v]) := by
  unfold OutPort.write
  split
  · rename_i plan h; simp [noFailure, h] at hp
  · simp [OutPort.wrote]

theorem OutPort.write_fail {α : Type} (tail : Nat → List α) (v : α) {p : OutPort α} {plan : List Answer}
    (hp : p.plan = .fails :: plan) : p.write tail v = (false, p.failedAfter [] (tail p.asked) plan) := by
  simp [OutPort.write, hp, OutPort.failedAfter]

@[simp] theorem OutPort.wrote_nil {α : Type} (p : OutPort α) : p.wrote [] = p := by simp [OutPort.wrote]
@[simp] theorem OutPort.wrote_wrote {α : Type} (p : OutPort α) (a b : List α) :
    (p.wrote a).wrote b = p.wrote (a ++ b) := by
  simp [OutPort.wrote, List.drop_drop, Nat.add_assoc]
@[simp] theorem OutPort.wrote_plan {α : Type} (p : OutPort α) (a : List α) :
    (p.wrote a).plan = p.plan.drop a.length := rfl
@[simp] theorem OutPort.wrote_asked {α : Type} (p : OutPort α) (a : List α) :
    (p.wrote a).asked = p.asked + a.length := rfl
@[simp] theorem OutPort.wrote_data {α : Type} (p : OutPort α) (a : List α) : (p.wrote a).data = p.data ++ a := rfl
@[simp] theorem InPort.took_zero {α : Type} (p : InPort α) : p.took 0 = p := by simp [InPort.took]
@[simp] theorem InPort.took_took {α : Type} (p : InPort α) (j k : Nat) : (p.took j).took k = p.took (j + k) := by
  simp [InPort.took, List.drop_drop, Nat.add_assoc]
@[simp] theorem InPort.took_plan {α : Type} (p : InPort α) (k : Nat) : (p.took k).plan = p.plan.drop k := rfl
@[simp] theorem InPort.took_data {α : Type} (p : InPort α) (k : Nat) : (p.took k).data = p.data := rfl
@[simp] theorem InPort.took_pos {α : Type} (p : InPort α) (k : Nat) : (p.took k).pos = p.pos + k := rfl
@[simp] theorem InPort.took_asked {α : Type} (p : InPort α) (k : Nat) : (p.took k).asked = p.asked + k := rfl
@[simp] theorem InPort.took_unread {α : Type} (p : InPort α) (k : Nat) : (p.took k).unread = p.unread.drop k := by
  simp [InPort.unread]

/-- The next unit is the head of what is unread. -/
theorem InPort.next_of_unread {α : Type} {p : InPort α} {v : α} {rest : List α} (h : p.unread = v :: rest) :
    p.data[p.pos]? = some v := by
  have := congrArg (·[0]?) h
  simpa [InPort.unread] using this

theorem InPort.eof_of_unread {α : Type} {p : InPort α} (h : p.unread = []) : p.data[p.pos]? = none := by
  have := congrArg (·[0]?) h
  simpa [InPort.unread] using this

/-! ## One request of the core -/

@[simp] theorem withBout_core (s : State) (p : OutPort Bool) : (s.withBout p).core = s.core := rfl
@[simp] theorem withBout_bout (s : State) (p : OutPort Bool) : (s.withBout p).ports.bout = p := rfl
@[simp] theorem withBout_withBout (s : State) (p q : OutPort Bool) : (s.withBout p).withBout q = s.withBout q := rfl
@[simp] theorem withBin_core (s : State) (p : InPort Bool) : (s.withBin p).core = s.core := rfl
@[simp] theorem withBin_bin (s : State) (p : InPort Bool) : (s.withBin p).ports.bin = p := rfl
@[simp] theorem withBin_withBin (s : State) (p q : InPort Bool) : (s.withBin p).withBin q = s.withBin q := rfl
@[simp] theorem withHout_core (s : State) (p : OutPort Byte) : (s.withHout p).core = s.core := rfl
@[simp] theorem withHout_hout (s : State) (p : OutPort Byte) : (s.withHout p).ports.hout = p := rfl
@[simp] theorem withHout_withHout (s : State) (p q : OutPort Byte) : (s.withHout p).withHout q = s.withHout q := rfl
@[simp] theorem withHin_core (s : State) (p : InPort Byte) : (s.withHin p).core = s.core := rfl
@[simp] theorem withHin_hin (s : State) (p : InPort Byte) : (s.withHin p).ports.hin = p := rfl
@[simp] theorem withHin_withHin (s : State) (p q : InPort Byte) : (s.withHin p).withHin q = s.withHin q := rfl
@[simp] theorem withBout_self (s : State) : s.withBout s.ports.bout = s := rfl
@[simp] theorem withBin_self (s : State) : s.withBin s.ports.bin = s := rfl
@[simp] theorem withHout_self (s : State) : s.withHout s.ports.hout = s := rfl
@[simp] theorem withHin_self (s : State) : s.withHin s.ports.hin = s := rfl

theorem bitOut_ok {s : State} (b : Bool) (h : noFailure 1 s.ports.bout.plan) :
    bitOut b s = .done () (s.withBout (s.ports.bout.wrote [b])) := by
  simp only [bitOut, OutPort.write_ok _ _ h, State.withBout]

theorem bitOut_fail {s : State} (b : Bool) {plan : List Answer} (h : s.ports.bout.plan = .fails :: plan) :
    bitOut b s = .raised .io (s.withBout
      (s.ports.bout.failedAfter [] (Config.doubtBout s.ports.bout.asked) plan)) := by
  simp only [bitOut, OutPort.write_fail _ _ h, State.withBout]

theorem byteOut_ok {s : State} (v : Byte) (h : noFailure 1 s.ports.hout.plan) :
    byteOut v s = .done () (s.withHout (s.ports.hout.wrote [v])) := by
  simp only [byteOut, OutPort.write_ok _ _ h, State.withHout]

theorem byteOut_fail {s : State} (v : Byte) {plan : List Answer} (h : s.ports.hout.plan = .fails :: plan) :
    byteOut v s = .raised .io (s.withHout
      (s.ports.hout.failedAfter [] (Config.doubtHout s.ports.hout.asked) plan)) := by
  simp only [byteOut, OutPort.write_fail _ _ h, State.withHout]

theorem bitIn_unit {s : State} {b : Bool} (h : noFailure 1 s.ports.bin.plan)
    (hb : s.ports.bin.data[s.ports.bin.pos]? = some b) : bitIn s = .done b (s.withBin (s.ports.bin.took 1)) := by
  simp only [bitIn, InPort.read_unit _ _ h hb, State.withBin]

theorem bitIn_eof {s : State} (h : noFailure 1 s.ports.bin.plan)
    (hb : s.ports.bin.data[s.ports.bin.pos]? = none) :
    bitIn s = .raised .bitEof (s.withBin
      { s.ports.bin with plan := s.ports.bin.plan.drop 1, asked := s.ports.bin.asked + 1 }) := by
  simp only [bitIn, InPort.read_eof _ _ h hb, State.withBin]

theorem bitIn_fail {s : State} {plan : List Answer} (h : s.ports.bin.plan = .fails :: plan) :
    bitIn s = .raised .io (s.withBin (s.ports.bin.failedAfter 0 (Config.doubtBin s.ports.bin.asked)
      (min (Config.doubtBpos s.ports.bin.asked) (Config.doubtBin s.ports.bin.asked).length) plan)) := by
  simp only [bitIn, InPort.read_fail _ _ h, State.withBin]

theorem byteIn_unit {s : State} {v : Byte} (h : noFailure 1 s.ports.hin.plan)
    (hv : s.ports.hin.data[s.ports.hin.pos]? = some v) : byteIn s = .done v (s.withHin (s.ports.hin.took 1)) := by
  simp only [byteIn, InPort.read_unit _ _ h hv, State.withHin]

theorem byteIn_eof {s : State} (h : noFailure 1 s.ports.hin.plan)
    (hv : s.ports.hin.data[s.ports.hin.pos]? = none) :
    byteIn s = .raised .hdrShort (s.withHin
      { s.ports.hin with plan := s.ports.hin.plan.drop 1, asked := s.ports.hin.asked + 1 }) := by
  simp only [byteIn, InPort.read_eof _ _ h hv, State.withHin]

theorem byteIn_fail {s : State} {plan : List Answer} (h : s.ports.hin.plan = .fails :: plan) :
    byteIn s = .raised .io (s.withHin (s.ports.hin.failedAfter 0 (Config.doubtHin s.ports.hin.asked)
      (min (Config.doubtHpos s.ports.hin.asked) (Config.doubtHin s.ports.hin.asked).length) plan)) := by
  simp only [byteIn, InPort.read_fail _ _ h, State.withHin]

/-! ## The state a body ends in -/

/-- The property `P` of the state a body ends in, if it ends in one. -/
def Result.Ends {α : Type} (P : State → Prop) : Result α → Prop
  | .done _ s => P s
  | .raised _ s => P s
  | .stuck _ => True

theorem Result.Ends.mono {α : Type} {P Q : State → Prop} {r : Result α} (h : r.Ends P) (hPQ : ∀ s, P s → Q s) :
    r.Ends Q := by cases r <;> simp_all [Result.Ends]

/-- A sequence keeps what its first part establishes and every continuation from there keeps. -/
theorem Result.Ends.bind {α β : Type} {P : State → Prop} {r : Result α} {k : α → State → Result β}
    (h : r.Ends P) (hk : ∀ a s, P s → (k a s).Ends P) : (r.bind k).Ends P := by
  cases r with
  | done a s => exact hk a s h
  | raised e s => exact h
  | stuck f => trivial

/-- `u` differs from `s` in BOUT alone, which has only grown. -/
structure OnlyBout (s u : State) : Prop where
  rest : u = s.withBout u.ports.bout
  grows : s.ports.bout.data <+: u.ports.bout.data
  asked : s.ports.bout.asked ≤ u.ports.bout.asked

/-- `u` differs from `s` in HOUT alone, which has only grown. -/
structure OnlyHout (s u : State) : Prop where
  rest : u = s.withHout u.ports.hout
  grows : s.ports.hout.data <+: u.ports.hout.data
  asked : s.ports.hout.asked ≤ u.ports.hout.asked

/-- `u` differs from `s` in BIN alone, which has only advanced. -/
structure OnlyBin (s u : State) : Prop where
  rest : u = s.withBin u.ports.bin
  advances : s.ports.bin.pos ≤ u.ports.bin.pos
  asked : s.ports.bin.asked ≤ u.ports.bin.asked

/-- `u` differs from `s` in HIN alone, which has only advanced. -/
structure OnlyHin (s u : State) : Prop where
  rest : u = s.withHin u.ports.hin
  advances : s.ports.hin.pos ≤ u.ports.hin.pos
  asked : s.ports.hin.asked ≤ u.ports.hin.asked

theorem OnlyBout.refl (s : State) : OnlyBout s s := ⟨rfl, List.prefix_refl _, Nat.le_refl _⟩
theorem OnlyHout.refl (s : State) : OnlyHout s s := ⟨rfl, List.prefix_refl _, Nat.le_refl _⟩
theorem OnlyBin.refl (s : State) : OnlyBin s s := ⟨rfl, Nat.le_refl _, Nat.le_refl _⟩
theorem OnlyHin.refl (s : State) : OnlyHin s s := ⟨rfl, Nat.le_refl _, Nat.le_refl _⟩

theorem OnlyBout.trans {s t u : State} (h : OnlyBout s t) (k : OnlyBout t u) : OnlyBout s u :=
  ⟨by rw [k.rest, h.rest]; rfl, h.grows.trans k.grows, h.asked.trans k.asked⟩
theorem OnlyHout.trans {s t u : State} (h : OnlyHout s t) (k : OnlyHout t u) : OnlyHout s u :=
  ⟨by rw [k.rest, h.rest]; rfl, h.grows.trans k.grows, h.asked.trans k.asked⟩
theorem OnlyBin.trans {s t u : State} (h : OnlyBin s t) (k : OnlyBin t u) : OnlyBin s u :=
  ⟨by rw [k.rest, h.rest]; rfl, h.advances.trans k.advances, h.asked.trans k.asked⟩
theorem OnlyHin.trans {s t u : State} (h : OnlyHin s t) (k : OnlyHin t u) : OnlyHin s u :=
  ⟨by rw [k.rest, h.rest]; rfl, h.advances.trans k.advances, h.asked.trans k.asked⟩

/-- Everything one write request can do to its port: one request more, and the data grows. -/
theorem OutPort.write_frame {α : Type} (tail : Nat → List α) (v : α) (p : OutPort α) :
    p.data <+: (p.write tail v).2.data ∧ (p.write tail v).2.asked = p.asked + 1 := by
  unfold OutPort.write
  split <;> simp

/-- Everything one read request can do to its port: one request more, and the position does not go back. -/
theorem InPort.read_frame {α : Type} (rest : Nat → List α) (move : Nat → Nat) (p : InPort α) :
    p.pos ≤ (p.read rest move).2.pos ∧ (p.read rest move).2.asked = p.asked + 1 := by
  unfold InPort.read
  split
  · simp
  · split <;> simp

/-- A read position that has not passed the end of its stream does not pass it by a request (R61). -/
theorem InPort.read_bound {α : Type} (rest : Nat → List α) (move : Nat → Nat) {p : InPort α}
    (h : p.pos ≤ p.data.length) : (p.read rest move).2.pos ≤ (p.read rest move).2.data.length := by
  unfold InPort.read
  split
  · simp only [List.length_append, List.length_take]; omega
  · split
    · rename_i v hv
      have := (List.getElem?_eq_some_iff.mp hv).1
      simp only; omega
    · exact h

theorem bitOut_frame (b : Bool) (s : State) :
    (bitOut b s).Ends fun u => OnlyBout s u ∧ u.ports.bout.asked = s.ports.bout.asked + 1 := by
  have h := OutPort.write_frame Config.doubtBout b s.ports.bout
  unfold bitOut
  split <;> rename_i p hp <;> rw [hp] at h <;>
    exact ⟨⟨rfl, h.1, by rw [show _ = p.asked from rfl, h.2]; omega⟩, h.2⟩

theorem byteOut_frame (v : Byte) (s : State) :
    (byteOut v s).Ends fun u => OnlyHout s u ∧ u.ports.hout.asked = s.ports.hout.asked + 1 := by
  have h := OutPort.write_frame Config.doubtHout v s.ports.hout
  unfold byteOut
  split <;> rename_i p hp <;> rw [hp] at h <;>
    exact ⟨⟨rfl, h.1, by rw [show _ = p.asked from rfl, h.2]; omega⟩, h.2⟩

theorem bitIn_frame (s : State) :
    (bitIn s).Ends fun u => OnlyBin s u ∧ u.ports.bin.asked = s.ports.bin.asked + 1 := by
  have h := InPort.read_frame Config.doubtBin Config.doubtBpos s.ports.bin
  unfold bitIn
  split <;> rename_i hp <;> rw [hp] at h <;> exact ⟨⟨rfl, h.1, h.2 ▸ Nat.le_succ _⟩, h.2⟩

theorem byteIn_frame (s : State) :
    (byteIn s).Ends fun u => OnlyHin s u ∧ u.ports.hin.asked = s.ports.hin.asked + 1 := by
  have h := InPort.read_frame Config.doubtHin Config.doubtHpos s.ports.hin
  unfold byteIn
  split <;> rename_i hp <;> rw [hp] at h <;> exact ⟨⟨rfl, h.1, h.2 ▸ Nat.le_succ _⟩, h.2⟩

end Sys2Proof.Machine
end

