-- ==== Sys2Proof/Laws/Loops.lean ====
section
/-! SUPPORT. What the loops inside ENC, DEC, HSER and HDES can do, and the small laws of BUILD's queue. -/

namespace Sys2Proof.Machine

open Sys2Proof

/-- Failing after some units were accepted, and then some more. -/
@[simp] theorem OutPort.failedAfter_wrote {α : Type} (p : OutPort α) (us vs tail : List α) (plan : List Answer) :
    (p.wrote us).failedAfter vs tail plan = p.failedAfter (us ++ vs) tail plan := by
  simp [OutPort.failedAfter, OutPort.wrote, Nat.add_assoc]

/-! ## ENC -/

theorem emitBits_ok (bits : List Bool) {s : State} (h : noFailure bits.length s.ports.bout.plan) :
    emitBits bits s = .done () (s.withBout (s.ports.bout.wrote bits)) := by
  induction bits generalizing s with
  | nil => simp [emitBits]
  | cons b bs ih =>
    have h1 := noFailure_head h
    rw [emitBits, bitOut_ok b h1, Result.bind_done, ih (by simpa using noFailure_tail h)]
    simp

theorem emitBits_fail (pre post : List Bool) (b : Bool) {s : State} {plan : List Answer}
    (h : s.ports.bout.plan = List.replicate pre.length .serves ++ .fails :: plan) :
    ∃ tail, emitBits (pre ++ b :: post) s =
      .raised .io (s.withBout (s.ports.bout.failedAfter pre tail plan)) := by
  induction pre generalizing s with
  | nil =>
    refine ⟨Config.doubtBout s.ports.bout.asked, ?_⟩
    rw [List.nil_append, emitBits, bitOut_fail b (by simpa using h), Result.bind_raised]
  | cons a as ih =>
    have h1 : noFailure 1 s.ports.bout.plan := by simp [h, noFailure, List.replicate_succ]
    have h2 : (s.withBout (s.ports.bout.wrote [a])).ports.bout.plan =
        List.replicate as.length .serves ++ .fails :: plan := by
      simp [h, List.replicate_succ]
    obtain ⟨tail, ht⟩ := ih h2
    refine ⟨tail, ?_⟩
    rw [List.cons_append, emitBits, bitOut_ok a h1, Result.bind_done, ht]
    simp

theorem emitBits_frame (bits : List Bool) (s : State) : (emitBits bits s).Ends (OnlyBout s) := by
  induction bits generalizing s with
  | nil => exact OnlyBout.refl s
  | cons b bs ih =>
    exact ((bitOut_frame b s).mono fun u hu => hu.1).bind fun _ t ht => (ih t).mono fun u hu => ht.trans hu

/-- An emission that completed made one request a bit. -/
theorem emitBits_asked (bits : List Bool) {s u : State} (h : emitBits bits s = .done () u) :
    u.ports.bout.asked = s.ports.bout.asked + bits.length := by
  induction bits generalizing s with
  | nil => simp only [emitBits, Result.done.injEq, true_and] at h; simp [h]
  | cons b bs ih =>
    obtain ⟨_, t, ht, hk⟩ := Result.bind_eq_done h
    have hf := bitOut_frame b s
    rw [ht] at hf
    rw [ih hk, hf.2, List.length_cons]
    omega

/-- A walk up takes at most one bit for every unit of fuel but the last (R161). -/
theorem walkUp_length (c : CoreState) {fuel : Nat} {n : NodeIdx} {path bits : List Bool}
    (h : walkUp c fuel n path = .ok bits) : bits.length + 1 ≤ path.length + fuel := by
  induction fuel generalizing n path with
  | zero => cases h
  | succ k ih =>
    unfold walkUp at h
    split at h
    · cases h
    · split at h
      · injection h with h; subst h; omega
      · split at h
        · cases h
        · have := ih h
          simp only [List.length_cons] at this
          omega

/-! ## DEC -/

/-- A walk down touches BIN alone and makes at most one request for every unit of fuel. -/
theorem walkDown_frame (fuel : Nat) (cur : NodeIdx) (s : State) :
    (walkDown fuel cur s).Ends fun u => OnlyBin s u ∧ u.ports.bin.asked ≤ s.ports.bin.asked + fuel := by
  induction fuel generalizing cur s with
  | zero => trivial
  | succ k ih =>
    unfold walkDown
    split
    · trivial
    · split
      · split
        · exact ⟨OnlyBin.refl s, by omega⟩
        · trivial
      · have hf := bitIn_frame s
        cases hb : bitIn s with
        | stuck f => trivial
        | raised e t =>
          rw [hb] at hf
          exact ⟨hf.1, by have := hf.2; omega⟩
        | done b t =>
          rw [hb] at hf
          rw [Result.bind_done]
          refine (ih _ t).mono fun u hu => ⟨hf.1.trans hu.1, ?_⟩
          have := hf.2
          have := hu.2
          omega

/-- A walk down that completed left one unit of its fuel for the leaf (R171). -/
theorem walkDown_asked {fuel : Nat} {cur : NodeIdx} {s u : State} {v : Symbol}
    (h : walkDown fuel cur s = .done v u) : u.ports.bin.asked + 1 ≤ s.ports.bin.asked + fuel := by
  induction fuel generalizing cur s with
  | zero => cases h
  | succ k ih =>
    unfold walkDown at h
    split at h
    · cases h
    · split at h
      · split at h
        · injection h with h1 h2; subst h2; omega
        · cases h
      · obtain ⟨b, t, hb, hk⟩ := Result.bind_eq_done h
        have hf := bitIn_frame s
        rw [hb] at hf
        have := hf.2
        have := ih hk
        omega

/-! ## HSER -/

/-- Giving HOUT a list of bytes. -/
def emitBytes : List Byte → State → Result Unit
  | [], s => .done () s
  | v :: vs, s => (byteOut v s).bind fun _ t => emitBytes vs t

/-- The bytes of the header for the symbols given, high byte first (R97). -/
def headerOf (freq : Symbol → Count) (syms : List Symbol) : List Byte :=
  syms.flatMap fun x => [hiByte (freq x), loByte (freq x)]

@[simp] theorem headerOf_length (freq : Symbol → Count) (syms : List Symbol) :
    (headerOf freq syms).length = 2 * syms.length := by
  induction syms with
  | nil => rfl
  | cons x rest ih => simp only [headerOf, List.flatMap_cons, List.length_append] at ih ⊢; simp [ih]; omega

/-- HSER's loop gives HOUT the bytes of the header: no transfer changes the table in between. -/
theorem hserLoop_eq_emitBytes (syms : List Symbol) (s : State) :
    hserLoop syms s = emitBytes (headerOf s.core.count syms) s := by
  induction syms generalizing s with
  | nil => rfl
  | cons x rest ih =>
    have key : ∀ v (k k' : Unit → State → Result Unit) (s : State),
        (∀ t, t.core = s.core → k () t = k' () t) → (byteOut v s).bind k = (byteOut v s).bind k' := by
      intro v k k' s hk
      have hf := byteOut_frame v s
      cases hb : byteOut v s with
      | done a t =>
        rw [hb] at hf
        exact hk t (by rw [hf.1.rest]; rfl)
      | raised e t => rfl
      | stuck f => rfl
    simp only [hserLoop, headerOf, List.flatMap_cons, List.cons_append, List.nil_append, emitBytes]
    apply key
    intro t ht
    rw [ht]
    apply key
    intro u hu
    rw [ih u, hu, ht]
    rfl

theorem emitBytes_ok (vs : List Byte) {s : State} (h : noFailure vs.length s.ports.hout.plan) :
    emitBytes vs s = .done () (s.withHout (s.ports.hout.wrote vs)) := by
  induction vs generalizing s with
  | nil => simp [emitBytes]
  | cons b bs ih =>
    rw [emitBytes, byteOut_ok b (noFailure_head h), Result.bind_done, ih (by simpa using noFailure_tail h)]
    simp

theorem emitBytes_fail (pre post : List Byte) (b : Byte) {s : State} {plan : List Answer}
    (h : s.ports.hout.plan = List.replicate pre.length .serves ++ .fails :: plan) :
    ∃ tail, emitBytes (pre ++ b :: post) s =
      .raised .io (s.withHout (s.ports.hout.failedAfter pre tail plan)) := by
  induction pre generalizing s with
  | nil =>
    refine ⟨Config.doubtHout s.ports.hout.asked, ?_⟩
    rw [List.nil_append, emitBytes, byteOut_fail b (by simpa using h), Result.bind_raised]
  | cons a as ih =>
    have h1 : noFailure 1 s.ports.hout.plan := by simp [h, noFailure, List.replicate_succ]
    have h2 : (s.withHout (s.ports.hout.wrote [a])).ports.hout.plan =
        List.replicate as.length .serves ++ .fails :: plan := by
      simp [h, List.replicate_succ]
    obtain ⟨tail, ht⟩ := ih h2
    refine ⟨tail, ?_⟩
    rw [List.cons_append, emitBytes, byteOut_ok a h1, Result.bind_done, ht]
    simp

theorem emitBytes_frame (vs : List Byte) (s : State) : (emitBytes vs s).Ends (OnlyHout s) := by
  induction vs generalizing s with
  | nil => exact OnlyHout.refl s
  | cons b bs ih =>
    exact ((byteOut_frame b s).mono fun u hu => hu.1).bind fun _ t ht => (ih t).mono fun u hu => ht.trans hu

theorem emitBytes_asked (vs : List Byte) {s u : State} (h : emitBytes vs s = .done () u) :
    u.ports.hout.asked = s.ports.hout.asked + vs.length := by
  induction vs generalizing s with
  | nil => simp only [emitBytes, Result.done.injEq, true_and] at h; simp [h]
  | cons b bs ih =>
    obtain ⟨_, t, ht, hk⟩ := Result.bind_eq_done h
    have hf := byteOut_frame b s
    rw [ht] at hf
    rw [ih hk, hf.2, List.length_cons]
    omega

/-! ## HDES -/

@[simp] theorem loadCount_ti (c : CoreState) (x : Symbol) (v : Count) : (c.loadCount x v).ti = c.ti := rfl
@[simp] theorem loadCount_tv (c : CoreState) (x : Symbol) (v : Count) : (c.loadCount x v).tv = c.tv := rfl
@[simp] theorem loadCount_total (c : CoreState) (x : Symbol) (v : Count) :
    (c.loadCount x v).total = c.total + zext24 v := rfl
@[simp] theorem loadCount_freq (c : CoreState) (x : Symbol) (v : Count) :
    (c.loadCount x v).freq = c.freq.set x.toNat v x.isLt := rfl

/-- Loading an entry touches FREQ and TOTAL alone. -/
theorem loadCount_eq_withTable (c : CoreState) (x : Symbol) (v : Count) :
    c.loadCount x v = c.withTable (c.freq.set x.toNat v x.isLt) (c.total + zext24 v) c.ti c.tv := rfl

/-- `u` differs from `s` in HIN, which has only advanced, and in FREQ and TOTAL. -/
structure OnlyHinAndTable (s u : State) : Prop where
  rest : u = { s.withHin u.ports.hin with core := s.core.withTable u.core.freq u.core.total s.core.ti s.core.tv }
  advances : s.ports.hin.pos ≤ u.ports.hin.pos
  asked : s.ports.hin.asked ≤ u.ports.hin.asked

theorem OnlyHinAndTable.refl (s : State) : OnlyHinAndTable s s := ⟨rfl, Nat.le_refl _, Nat.le_refl _⟩

theorem OnlyHinAndTable.trans {s t u : State} (h : OnlyHinAndTable s t) (k : OnlyHinAndTable t u) :
    OnlyHinAndTable s u :=
  ⟨by rw [k.rest, h.rest]; rfl, h.advances.trans k.advances, h.asked.trans k.asked⟩

theorem OnlyHin.withTable {s u : State} (h : OnlyHin s u) : OnlyHinAndTable s u :=
  ⟨by rw [h.rest]; rfl, h.advances, h.asked⟩

theorem hdesLoop_frame (syms : List Symbol) (s : State) : (hdesLoop syms s).Ends (OnlyHinAndTable s) := by
  induction syms generalizing s with
  | nil => exact OnlyHinAndTable.refl s
  | cons x rest ih =>
    refine ((byteIn_frame s).mono fun u hu => hu.1.withTable).bind fun hi t ht => ?_
    refine ((byteIn_frame t).mono fun u hu => ht.trans hu.1.withTable).bind fun lo u hu => ?_
    exact (ih _).mono fun w hw => hu.trans (OnlyHinAndTable.trans
      (t := { u with core := u.core.loadCount x (hi ++ lo) }) ⟨rfl, Nat.le_refl _, Nat.le_refl _⟩ hw)

/-- A header read that completed made two requests a symbol. -/
theorem hdesLoop_asked (syms : List Symbol) {s u : State} (h : hdesLoop syms s = .done () u) :
    u.ports.hin.asked = s.ports.hin.asked + 2 * syms.length := by
  induction syms generalizing s with
  | nil => simp only [hdesLoop, Result.done.injEq, true_and] at h; simp [h]
  | cons x rest ih =>
    obtain ⟨hi, t, ht, hk⟩ := Result.bind_eq_done h
    obtain ⟨lo, w, hw, hk⟩ := Result.bind_eq_done hk
    have h1 := byteIn_frame s
    have h2 := byteIn_frame t
    rw [ht] at h1
    rw [hw] at h2
    rw [ih hk, show State.ports _ = w.ports from rfl, h2.2, h1.2, List.length_cons]
    omega

/-! ## BUILD's queue -/

@[simp] theorem extractMin_eq_none {q : List QEntry} : extractMin q = none ↔ q = [] := by
  cases q with
  | nil => simp [extractMin]
  | cons x rest =>
    simp only [extractMin, reduceCtorEq, iff_false]
    split
    · simp
    · split <;> simp

/-- Extraction takes one element out (R145). -/
theorem extractMin_length {q others : List QEntry} {x : QEntry} (h : extractMin q = some (x, others)) :
    others.length + 1 = q.length := by
  induction q generalizing x others with
  | nil => simp [extractMin] at h
  | cons y rest ih =>
    simp only [extractMin] at h
    split at h
    · rename_i hr
      rw [extractMin_eq_none] at hr
      simp only [Option.some.injEq, Prod.mk.injEq] at h
      simp [← h.2, hr]
    · rename_i m o hr
      split at h <;> simp only [Option.some.injEq, Prod.mk.injEq] at h
      · simp [← h.2]
      · simp [← h.2, ih hr]

/-- The loop shape of the merge phase: fewer than two elements end it (R141). -/
theorem mergePhase_of_short {b : BuildState} (h : b.q.length ≤ 1) (fuel : Nat) : mergePhase fuel b = b := by
  cases fuel with
  | zero => rfl
  | succ k =>
    unfold mergePhase
    split
    · rfl
    · rename_i x q1 hx
      have hl := extractMin_length hx
      have : q1 = [] := List.eq_nil_of_length_eq_zero (by omega)
      subst this
      simp [extractMin]

/-- One pass of the merge phase (R141, R144). -/
theorem mergePhase_step {b : BuildState} {x y : QEntry} {q1 q2 : List QEntry} (fuel : Nat)
    (hx : extractMin b.q = some (x, q1)) (hy : extractMin q1 = some (y, q2)) :
    mergePhase (fuel + 1) b = mergePhase fuel (mergeStep x y q2 b) := by
  conv_lhs => unfold mergePhase
  simp only [hx, hy]

@[simp] theorem mergeStep_n (x y : QEntry) (q : List QEntry) (b : BuildState) : (mergeStep x y q b).n = b.n + 1 := rfl
@[simp] theorem mergeStep_leaf (x y : QEntry) (q : List QEntry) (b : BuildState) :
    (mergeStep x y q b).leaf = b.leaf := rfl
@[simp] theorem mergeStep_q (x y : QEntry) (q : List QEntry) (b : BuildState) :
    (mergeStep x y q b).q = q ++ [{ w := x.w + y.w, n := BitVec.ofNat 9 b.n }] := rfl

/-- Reading a node after `setParent`: its parent replaced at the index, itself elsewhere. -/
theorem getElem?_setParent (node : Vector Node 511) (i p : NodeIdx) (k : Nat) :
    (setParent node i p)[k]? =
      if i.toNat = k then node[k]?.map fun nd => { nd with parent := p } else node[k]? := by
  unfold setParent
  split
  · rename_i nd h
    have hlt : i.toNat < 511 := by
      by_contra hc
      rw [Vector.getElem?_eq_none (by omega)] at h
      cases h
    rw [Vector.getElem?_setIfInBounds]
    split
    · rename_i e; subst e; simp [h]
    · rfl
  · rename_i h
    split
    · rename_i e; subst e; simp [h]
    · rfl

end Sys2Proof.Machine
end

