-- ==== Sys2Proof/Laws/Commands.lean ====
section
/-! SUPPORT. What each command can do, said once: the state its body ends in and the codes it can raise. -/

namespace Sys2Proof.Machine

open Sys2Proof

/-- The body of each command. -/
def bodyOf : Instr → State → Result Weight
  | .nop => nopBody
  | .fclr => fclrBody
  | .finc sym => fincBody sym
  | .frd sym => frdBody sym
  | .build => buildBody
  | .enc sym => encBody sym
  | .dec => decBody
  | .hser => hserBody
  | .hdes => hdesBody
  | .rdsr r => rdsrBody r
  | .srst => srstBody

/-- Every command is its body behind the FAULT gate (R231). -/
theorem exec_eq_runBody (i : Instr) (s : State) : exec i s = runBody (encode i) (bodyOf i) s := by
  cases i <;> rfl

/-- No command is refused by the model. -/
theorem exec_ne_refused (i : Instr) (s : State) (r : Refusal) : exec i s ≠ .refused r := by
  rw [exec_eq_runBody]; exact runBody_ne_refused

/-! ## The codes a body can raise -/

/-- Every code the body raises is in the list. -/
def Result.Codes {α : Type} (es : List Code) : Result α → Prop
  | .done _ _ => True
  | .raised e _ => e ∈ es
  | .stuck _ => True

theorem Result.Codes.mono {α : Type} {es fs : List Code} {r : Result α} (h : r.Codes es) (hs : es ⊆ fs) :
    r.Codes fs := by
  cases r with
  | done a s => trivial
  | raised e s => exact hs h
  | stuck f => trivial

theorem Result.Codes.bind {α β : Type} {es : List Code} {r : Result α} {k : α → State → Result β}
    (h : r.Codes es) (hk : ∀ a s, (k a s).Codes es) : (r.bind k).Codes es := by
  cases r with
  | done a s => exact hk a s
  | raised e s => exact h
  | stuck f => trivial

theorem Result.Codes.require {α : Type} {es : List Code} {c : Bool} {e : Code} {s : State} {k : Result α}
    (he : e ∈ es) (hk : k.Codes es) : (require c e s k).Codes es := by
  cases c
  · exact he
  · exact hk

theorem bitOut_codes (b : Bool) (s : State) : (bitOut b s).Codes [.io] := by
  unfold bitOut; split <;> simp [Result.Codes]

theorem byteOut_codes (v : Byte) (s : State) : (byteOut v s).Codes [.io] := by
  unfold byteOut; split <;> simp [Result.Codes]

theorem bitIn_codes (s : State) : (bitIn s).Codes [.bitEof, .io] := by
  unfold bitIn; split <;> simp [Result.Codes]

theorem byteIn_codes (s : State) : (byteIn s).Codes [.hdrShort, .io] := by
  unfold byteIn; split <;> simp [Result.Codes]

theorem emitBits_codes (bits : List Bool) (s : State) : (emitBits bits s).Codes [.io] := by
  induction bits generalizing s with
  | nil => trivial
  | cons b bs ih => exact (bitOut_codes b s).bind fun _ t => ih t

theorem walkDown_codes (fuel : Nat) (cur : NodeIdx) (s : State) : (walkDown fuel cur s).Codes [.bitEof, .io] := by
  induction fuel generalizing cur s with
  | zero => trivial
  | succ k ih =>
    unfold walkDown
    split
    · trivial
    · split
      · split <;> trivial
      · exact (bitIn_codes s).bind fun _ t => ih _ t

theorem hserLoop_codes (syms : List Symbol) (s : State) : (hserLoop syms s).Codes [.io] := by
  induction syms generalizing s with
  | nil => trivial
  | cons x rest ih => exact (byteOut_codes _ s).bind fun _ t => (byteOut_codes _ t).bind fun _ u => ih u

theorem hdesLoop_codes (syms : List Symbol) (s : State) : (hdesLoop syms s).Codes [.hdrShort, .io] := by
  induction syms generalizing s with
  | nil => trivial
  | cons x rest ih => exact (byteIn_codes s).bind fun _ t => (byteIn_codes t).bind fun _ u => ih _

/-- The codes of R234 besides OK and E_FAULTED. -/
def raisedCodes : Instr → List Code
  | .nop => []
  | .fclr => []
  | .finc _ => [.noTable, .countOvf]
  | .frd _ => [.noTable]
  | .build => [.noTable]
  | .enc _ => [.noTree, .noLeaf, .io]
  | .dec => [.noTree, .empty, .bitEof, .io]
  | .hser => [.noTable, .io]
  | .hdes => [.hdrShort, .io]
  | .rdsr _ => [.illegal]
  | .srst => []

theorem bodyOf_codes (i : Instr) (s : State) : (bodyOf i s).Codes (raisedCodes i) := by
  cases i with
  | nop => trivial
  | fclr => trivial
  | finc sym => exact .require (by simp [raisedCodes]) (.require (by simp [raisedCodes]) trivial)
  | frd sym => exact .require (by simp [raisedCodes]) trivial
  | build => exact .require (by simp [raisedCodes]) trivial
  | enc sym =>
    refine .require (by simp [raisedCodes]) (.require (by simp [raisedCodes]) ?_)
    split
    · trivial
    · exact ((emitBits_codes _ s).mono (by simp [raisedCodes])).bind fun _ _ => trivial
  | dec =>
    refine .require (by simp [raisedCodes]) (.require (by simp [raisedCodes]) ?_)
    exact ((walkDown_codes _ _ s).mono (by simp [raisedCodes])).bind fun _ _ => trivial
  | hser =>
    refine .require (by simp [raisedCodes]) ?_
    exact ((hserLoop_codes _ s).mono (by simp [raisedCodes])).bind fun _ _ => trivial
  | hdes => exact ((hdesLoop_codes _ _).mono (by simp [raisedCodes])).bind fun _ _ => trivial
  | rdsr r =>
    simp only [bodyOf, rdsrBody]
    split
    · trivial
    · simp [illegalBody, Result.Codes, raisedCodes]
  | srst => trivial

/-! ## The state a body ends in -/

theorem Result.Ends.require {α : Type} {P : State → Prop} {c : Bool} {e : Code} {s : State} {k : Result α}
    (hs : P s) (hk : k.Ends P) : (require c e s k).Ends P := by
  cases c
  · exact hs
  · exact hk

theorem encBody_frame (sym : Symbol) (s : State) : (encBody sym s).Ends (OnlyBout s) := by
  refine .require (.refl s) (.require (.refl s) ?_)
  split
  · trivial
  · exact (emitBits_frame _ s).bind fun _ _ ht => ht

theorem decBody_frame (s : State) : (decBody s).Ends (OnlyBin s) := by
  refine .require (.refl s) (.require (.refl s) ?_)
  exact ((walkDown_frame _ _ s).mono fun _ hu => hu.1).bind fun _ _ ht => ht

theorem hserBody_frame (s : State) : (hserBody s).Ends (OnlyHout s) := by
  refine .require (.refl s) ?_
  rw [hserLoop_eq_emitBytes]
  exact (emitBytes_frame _ s).bind fun _ _ ht => ht

/-- HDES leaves HIN advanced, the table rewritten in part or whole, TV = 0, and TI = 1 exactly when it completed. -/
theorem hdesBody_frame (s : State) : (hdesBody s).Ends fun u =>
    (∃ ti, u = { s.withHin u.ports.hin with core := s.core.withTable u.core.freq u.core.total ti false }) ∧
      s.ports.hin.pos ≤ u.ports.hin.pos ∧ s.ports.hin.asked ≤ u.ports.hin.asked := by
  have hf := hdesLoop_frame allSymbols { s with core := s.core.hdesStart }
  unfold hdesBody
  cases hb : hdesLoop allSymbols { s with core := s.core.hdesStart } with
  | stuck f => trivial
  | raised e u =>
    rw [hb] at hf
    exact ⟨⟨false, hf.rest⟩, hf.advances, hf.asked⟩
  | done a u =>
    rw [hb] at hf
    refine ⟨⟨true, ?_⟩, hf.advances, hf.asked⟩
    conv_lhs => rw [hf.rest]
    rfl

/-- The state `u` the body of a command may end in when it starts in `s`, done or raised. -/
def BodyEnd (i : Instr) (s u : State) : Prop :=
  match i with
  | .nop => u = s
  | .fclr => u = { s with core := s.core.clearTable }
  | .finc sym => u = s ∨ u = { s with core := s.core.countOne sym }
  | .frd _ => u = s
  | .build => u = s ∨ u = { s with core := s.core.built }
  | .enc _ => OnlyBout s u
  | .dec => OnlyBin s u
  | .hser => OnlyHout s u
  | .hdes =>
    (∃ ti, u = { s.withHin u.ports.hin with core := s.core.withTable u.core.freq u.core.total ti false }) ∧
      s.ports.hin.pos ≤ u.ports.hin.pos ∧ s.ports.hin.asked ≤ u.ports.hin.asked
  | .rdsr _ => u = s
  | .srst => u = resetCore s

theorem bodyOf_ends (i : Instr) (s : State) : (bodyOf i s).Ends (BodyEnd i s) := by
  cases i with
  | nop => exact rfl
  | fclr => exact rfl
  | finc sym => exact .require (.inl rfl) (.require (.inl rfl) (.inr rfl))
  | frd sym => exact .require rfl rfl
  | build => exact .require (.inl rfl) (.inr rfl)
  | enc sym => exact encBody_frame sym s
  | dec => exact decBody_frame s
  | hser => exact hserBody_frame s
  | hdes => exact hdesBody_frame s
  | rdsr r =>
    simp only [bodyOf, rdsrBody]
    split <;> exact rfl
  | srst => exact rfl

/-- No body touches the responses or the host's moves. -/
theorem BodyEnd.host {i : Instr} {s u : State} (h : BodyEnd i s u) :
    u.responses = s.responses ∧ u.inbox = s.inbox := by
  cases i with
  | nop => exact h ▸ ⟨rfl, rfl⟩
  | fclr => exact h ▸ ⟨rfl, rfl⟩
  | finc sym => rcases h with rfl | rfl <;> exact ⟨rfl, rfl⟩
  | frd sym => exact h ▸ ⟨rfl, rfl⟩
  | build => rcases h with rfl | rfl <;> exact ⟨rfl, rfl⟩
  | enc sym => rw [h.rest]; exact ⟨rfl, rfl⟩
  | dec => rw [h.rest]; exact ⟨rfl, rfl⟩
  | hser => rw [h.rest]; exact ⟨rfl, rfl⟩
  | hdes => obtain ⟨⟨ti, h⟩, -⟩ := h; rw [h]; exact ⟨rfl, rfl⟩
  | rdsr r => exact h ▸ ⟨rfl, rfl⟩
  | srst => subst h; simp

/-- What a command that answers a next state has done: the gate refused it, or its body ended in `u`, with a value or
with a fault. -/
theorem exec_next {i : Instr} {s t : State} (h : exec i s = .next t) :
    (gateCloses (encode i) s.core = true ∧ t = s.declining 0x02#8) ∨
    (gateCloses (encode i) s.core = false ∧ ∃ v u, bodyOf i s = .done v u ∧ BodyEnd i s u ∧ t = u.answering v) ∨
    (gateCloses (encode i) s.core = false ∧ ∃ e u, bodyOf i s = .raised e u ∧ e ∈ raisedCodes i ∧ BodyEnd i s u ∧
      t = raise (encode i) e u) := by
  rw [exec_eq_runBody] at h
  have he := bodyOf_ends i s
  have hc := bodyOf_codes i s
  rcases runBody_next h with hg | ⟨hg, v, u, hb, ht⟩ | ⟨hg, e, u, hb, ht⟩
  · exact .inl hg
  · rw [hb] at he
    exact .inr (.inl ⟨hg, v, u, hb, he, ht⟩)
  · rw [hb] at he hc
    exact .inr (.inr ⟨hg, e, u, hb, hc, he, ht⟩)

/-- What a body leaves on the four streams only adds to them or moves on in them (R236). -/
theorem BodyEnd.streams {i : Instr} {s u : State} (h : BodyEnd i s u) :
    s.ports.hout.data <+: u.ports.hout.data ∧ s.ports.bout.data <+: u.ports.bout.data ∧
    s.ports.hin.pos ≤ u.ports.hin.pos ∧ s.ports.bin.pos ≤ u.ports.bin.pos := by
  have same : ∀ {t : State}, t.ports = s.ports →
      s.ports.hout.data <+: t.ports.hout.data ∧ s.ports.bout.data <+: t.ports.bout.data ∧
      s.ports.hin.pos ≤ t.ports.hin.pos ∧ s.ports.bin.pos ≤ t.ports.bin.pos :=
    fun ht => ht ▸ ⟨List.prefix_refl _, List.prefix_refl _, Nat.le_refl _, Nat.le_refl _⟩
  cases i with
  | nop => exact h ▸ same rfl
  | fclr => exact h ▸ same rfl
  | finc x => rcases h with h | h <;> exact h ▸ same rfl
  | frd x => exact h ▸ same rfl
  | build => rcases h with h | h <;> exact h ▸ same rfl
  | enc x =>
    have hb := h.grows
    rw [h.rest]
    exact ⟨List.prefix_refl _, hb, Nat.le_refl _, Nat.le_refl _⟩
  | dec =>
    have hb := h.advances
    rw [h.rest]
    exact ⟨List.prefix_refl _, List.prefix_refl _, Nat.le_refl _, hb⟩
  | hser =>
    have hb := h.grows
    rw [h.rest]
    exact ⟨hb, List.prefix_refl _, Nat.le_refl _, Nat.le_refl _⟩
  | hdes =>
    obtain ⟨⟨ti, h⟩, hb, -⟩ := h
    rw [h]
    exact ⟨List.prefix_refl _, List.prefix_refl _, hb, Nat.le_refl _⟩
  | rdsr r => exact h ▸ same rfl
  | srst => exact h ▸ same (resetCore_ports s)

/-- A cut output stream stands between the one before the command and the one after it (R262). -/
theorem OutPort.cut_prefix {α : Type} (k : Nat) {p q : OutPort α} (h : p.data <+: q.data) :
    p.data <+: (p.cut k q).data ∧ (p.cut k q).data <+: q.data := by
  unfold OutPort.cut
  split
  · obtain ⟨l, hl⟩ := h
    refine ⟨List.prefix_append _ _, ?_⟩
    simp only [← hl, List.drop_left]
    exact ⟨l.drop k, by rw [List.append_assoc, List.take_append_drop]⟩
  · exact ⟨h, List.prefix_refl _⟩

/-- A cut read position is not before the one the command started from (R262). -/
theorem InPort.cut_pos {α : Type} (k : Nat) {p q : InPort α} (h : p.pos ≤ q.pos) : p.pos ≤ (p.cut k q).pos := by
  unfold InPort.cut
  split
  · simp
  · exact h

/-! ## Every request but a last, unserved one moves its stream by one unit -/

/-- With `pos` the place a stream has reached and `asked` its number of requests: a body that completed moved by one unit a
request, and one that raised a fault made at most one request that moved nothing. -/
def Result.Paced {α : Type} (pos asked : State → Nat) (s : State) : Result α → Prop
  | .done _ u => pos u + asked s = pos s + asked u
  | .raised _ u => pos s + asked u ≤ pos u + asked s + 1
  | .stuck _ => True

theorem Result.Paced.bind {α β : Type} {pos asked : State → Nat} {s : State} {r : Result α}
    {k : α → State → Result β} (h : r.Paced pos asked s) (hk : ∀ a t, (k a t).Paced pos asked t) :
    (r.bind k).Paced pos asked s := by
  cases r with
  | stuck f => trivial
  | raised e t => exact h
  | done a t =>
    have h2 := hk a t
    simp only [Result.bind_done]
    cases hr : k a t with
    | stuck f => trivial
    | done b u =>
      rw [hr] at h2
      simp only [Result.Paced] at h h2 ⊢
      omega
    | raised e u =>
      rw [hr] at h2
      simp only [Result.Paced] at h h2 ⊢
      omega

theorem Result.Paced.require {α : Type} {pos asked : State → Nat} {c : Bool} {e : Code} {s : State} {k : Result α}
    (hk : k.Paced pos asked s) : (require c e s k).Paced pos asked s := by
  cases c
  · exact Nat.le_succ _
  · exact hk

theorem bitOut_paced (b : Bool) (s : State) :
    (bitOut b s).Paced (·.ports.bout.data.length) (·.ports.bout.asked) s := by
  unfold bitOut OutPort.write
  split <;> rename_i p hp <;> split at hp <;> cases hp <;> simp [Result.Paced] <;> omega

theorem byteOut_paced (v : Byte) (s : State) :
    (byteOut v s).Paced (·.ports.hout.data.length) (·.ports.hout.asked) s := by
  unfold byteOut OutPort.write
  split <;> rename_i p hp <;> split at hp <;> cases hp <;> simp [Result.Paced] <;> omega

theorem bitIn_paced (s : State) : (bitIn s).Paced (·.ports.bin.pos) (·.ports.bin.asked) s := by
  have h := InPort.read_frame Config.doubtBin Config.doubtBpos s.ports.bin
  unfold bitIn
  split
  · rename_i p hp
    unfold InPort.read at hp
    split at hp
    · cases hp
    · split at hp <;> cases hp
      simp only [Result.Paced]; omega
  · rename_i hp; rw [hp] at h; simp only [Result.Paced] at h ⊢; omega
  · rename_i hp; rw [hp] at h; simp only [Result.Paced] at h ⊢; omega

theorem byteIn_paced (s : State) : (byteIn s).Paced (·.ports.hin.pos) (·.ports.hin.asked) s := by
  have h := InPort.read_frame Config.doubtHin Config.doubtHpos s.ports.hin
  unfold byteIn
  split
  · rename_i p hp
    unfold InPort.read at hp
    split at hp
    · cases hp
    · split at hp <;> cases hp
      simp only [Result.Paced]; omega
  · rename_i hp; rw [hp] at h; simp only [Result.Paced] at h ⊢; omega
  · rename_i hp; rw [hp] at h; simp only [Result.Paced] at h ⊢; omega

theorem emitBits_paced (bits : List Bool) (s : State) :
    (emitBits bits s).Paced (·.ports.bout.data.length) (·.ports.bout.asked) s := by
  induction bits generalizing s with
  | nil => rfl
  | cons b bs ih => exact (bitOut_paced b s).bind fun _ t => ih t

theorem walkDown_paced (fuel : Nat) (cur : NodeIdx) (s : State) :
    (walkDown fuel cur s).Paced (·.ports.bin.pos) (·.ports.bin.asked) s := by
  induction fuel generalizing cur s with
  | zero => trivial
  | succ k ih =>
    unfold walkDown
    split
    · trivial
    · split
      · split
        · rfl
        · trivial
      · exact (bitIn_paced s).bind fun _ t => ih _ t

theorem hserLoop_paced (syms : List Symbol) (s : State) :
    (hserLoop syms s).Paced (·.ports.hout.data.length) (·.ports.hout.asked) s := by
  induction syms generalizing s with
  | nil => rfl
  | cons x rest ih => exact (byteOut_paced _ s).bind fun _ t => (byteOut_paced _ t).bind fun _ u => ih u

theorem hdesLoop_paced (syms : List Symbol) (s : State) :
    (hdesLoop syms s).Paced (·.ports.hin.pos) (·.ports.hin.asked) s := by
  induction syms generalizing s with
  | nil => rfl
  | cons x rest ih =>
    exact (byteIn_paced s).bind fun hi t => (byteIn_paced t).bind fun lo u =>
      ih { u with core := u.core.loadCount x (hi ++ lo) }

theorem encBody_paced (sym : Symbol) (s : State) :
    (encBody sym s).Paced (·.ports.bout.data.length) (·.ports.bout.asked) s := by
  refine .require (.require ?_)
  split
  · trivial
  · exact (emitBits_paced _ s).bind fun _ _ => rfl

theorem decBody_paced (s : State) : (decBody s).Paced (·.ports.bin.pos) (·.ports.bin.asked) s :=
  .require (.require ((walkDown_paced _ _ s).bind fun _ _ => rfl))

theorem hserBody_paced (s : State) : (hserBody s).Paced (·.ports.hout.data.length) (·.ports.hout.asked) s :=
  .require ((hserLoop_paced _ s).bind fun _ _ => rfl)

theorem hdesBody_paced (s : State) : (hdesBody s).Paced (·.ports.hin.pos) (·.ports.hin.asked) s :=
  (hdesLoop_paced _ { s with core := s.core.hdesStart }).bind fun _ _ => rfl

/-- A cut output stream holds exactly `k` units more, where the command made more than `k` requests at its pace (R262). -/
theorem OutPort.cut_units {α : Type} {k : Nat} {p q : OutPort α} (hk : p.asked + k < q.asked)
    (hp : p.data.length + q.asked ≤ q.data.length + p.asked + 1) :
    p.cut k q = { data := p.data ++ (q.data.drop p.data.length).take k, plan := p.plan.drop k, asked := p.asked + k } ∧
      (p.cut k q).data.length = p.data.length + k := by
  have h : p.cut k q =
      { data := p.data ++ (q.data.drop p.data.length).take k, plan := p.plan.drop k, asked := p.asked + k } := by
    unfold OutPort.cut
    rw [if_pos (by omega)]
  refine ⟨h, ?_⟩
  rw [h]
  simp only [List.length_append, List.length_take, List.length_drop]
  omega

/-- A command that made at most `k` requests is not cut (R262). -/
theorem OutPort.cut_whole {α : Type} {k : Nat} {p q : OutPort α} (hk : q.asked ≤ p.asked + k) : p.cut k q = q := by
  unfold OutPort.cut
  rw [if_neg (by omega)]

theorem InPort.cut_units {α : Type} {k : Nat} {p q : InPort α} (hk : p.asked + k < q.asked) :
    p.cut k q = { p with pos := p.pos + k, plan := p.plan.drop k, asked := p.asked + k } := by
  unfold InPort.cut
  rw [if_pos (by omega)]

theorem InPort.cut_whole {α : Type} {k : Nat} {p q : InPort α} (hk : q.asked ≤ p.asked + k) : p.cut k q = q := by
  unfold InPort.cut
  rw [if_neg (by omega)]

/-- Every stream of `u` has moved on from `s` by all requests made on it but at most one. -/
structure KeepsPace (s u : State) : Prop where
  hout : s.ports.hout.data.length + u.ports.hout.asked ≤ u.ports.hout.data.length + s.ports.hout.asked + 1
  bout : s.ports.bout.data.length + u.ports.bout.asked ≤ u.ports.bout.data.length + s.ports.bout.asked + 1
  hin : s.ports.hin.pos + u.ports.hin.asked ≤ u.ports.hin.pos + s.ports.hin.asked + 1
  bin : s.ports.bin.pos + u.ports.bin.asked ≤ u.ports.bin.pos + s.ports.bin.asked + 1

theorem KeepsPace.of_same_ports {s u : State} (h : u.ports = s.ports) : KeepsPace s u := by
  constructor <;> rw [h] <;> omega

theorem Result.Paced.ends {α : Type} {pos asked : State → Nat} {s : State} {r : Result α} (h : r.Paced pos asked s) :
    r.Ends fun u => pos s + asked u ≤ pos u + asked s + 1 := by
  cases r with
  | done a u => simp only [Result.Paced] at h; simp only [Result.Ends]; omega
  | raised e u => exact h
  | stuck f => trivial

theorem Result.Ends.and {α : Type} {P Q : State → Prop} {r : Result α} (hP : r.Ends P) (hQ : r.Ends Q) :
    r.Ends fun u => P u ∧ Q u := by
  cases r with
  | done a u => exact ⟨hP, hQ⟩
  | raised e u => exact ⟨hP, hQ⟩
  | stuck f => trivial

/-- Whatever a body does, it leaves at most one request unserved (R62 to R65, R236). -/
theorem bodyOf_keepsPace (i : Instr) (s : State) : (bodyOf i s).Ends (KeepsPace s) := by
  have he := bodyOf_ends i s
  cases i with
  | nop => exact he.mono fun u hu => by cases hu; exact .of_same_ports rfl
  | fclr => exact he.mono fun u hu => by cases hu; exact .of_same_ports rfl
  | finc x => exact he.mono fun u hu => by rcases hu with rfl | rfl <;> exact .of_same_ports rfl
  | frd x => exact he.mono fun u hu => by cases hu; exact .of_same_ports rfl
  | build => exact he.mono fun u hu => by rcases hu with rfl | rfl <;> exact .of_same_ports rfl
  | enc x =>
    refine ((encBody_frame x s).and (encBody_paced x s).ends).mono fun u hu => ?_
    refine ⟨?_, hu.2, ?_, ?_⟩ <;> rw [hu.1.rest] <;> simp [State.withBout]
  | dec =>
    refine ((decBody_frame s).and (decBody_paced s).ends).mono fun u hu => ?_
    refine ⟨?_, ?_, ?_, hu.2⟩ <;> rw [hu.1.rest] <;> simp [State.withBin]
  | hser =>
    refine ((hserBody_frame s).and (hserBody_paced s).ends).mono fun u hu => ?_
    refine ⟨hu.2, ?_, ?_, ?_⟩ <;> rw [hu.1.rest] <;> simp [State.withHout]
  | hdes =>
    refine ((hdesBody_frame s).and (hdesBody_paced s).ends).mono fun u hu => ?_
    obtain ⟨⟨⟨ti, h⟩, -⟩, h2⟩ := hu
    refine ⟨?_, ?_, h2, ?_⟩ <;> rw [h] <;> simp [State.withHin]
  | rdsr r => exact he.mono fun u hu => by cases hu; exact .of_same_ports rfl
  | srst => exact he.mono fun u hu => .of_same_ports (by rw [show u = resetCore s from hu]; simp)

end Sys2Proof.Machine
end

