-- ==== Sys2Proof/Laws/PerInstr.lean ====
section
/-! SUPPORT. Statements about a command as syntax, one lemma per constructor of Instr. -/

/-- Decoding inverts encoding for the command (R90 to R94). -/
def Sys2Proof.Laws.DecodeEncode.Statement (i : Sys2Proof.Instr) : Prop :=
  i.WellFormed → Sys2Proof.decode (Sys2Proof.encode i) = .ok i

namespace Sys2Proof.Laws.DecodeEncode

open Sys2Proof

theorem nop : Statement .nop := fun _ => by rw [decode_encode_fields]; rfl
theorem fclr : Statement .fclr := fun _ => by rw [decode_encode_fields]; rfl
theorem finc (s : Symbol) : Statement (.finc s) := fun _ => by rw [decode_encode_fields]; rfl
theorem frd (s : Symbol) : Statement (.frd s) := fun _ => by rw [decode_encode_fields]; rfl
theorem build : Statement .build := fun _ => by rw [decode_encode_fields]; rfl
theorem enc (s : Symbol) : Statement (.enc s) := fun _ => by rw [decode_encode_fields]; rfl
theorem dec : Statement .dec := fun _ => by rw [decode_encode_fields]; rfl
theorem hser : Statement .hser := fun _ => by rw [decode_encode_fields]; rfl
theorem hdes : Statement .hdes := fun _ => by rw [decode_encode_fields]; rfl
theorem rdsr (r : Byte) : Statement (.rdsr r) := fun h => by
  rw [decode_encode_fields]
  have h' : r ≤ 0x06#8 := of_decide_eq_true h
  simp [decodeFields, decodeR, Instr.op, Instr.arg, h']
theorem srst : Statement .srst := fun _ => by rw [decode_encode_fields]; rfl

end Sys2Proof.Laws.DecodeEncode
end

