-- ==== Sys2Proof/Laws/Tree.lean ====
section
/-! SUPPORT. The walks of ENC and DEC on a tree with the properties of R35: each follows `code(s)` (42_encode.md R162). -/

namespace Sys2Proof.Machine

open Sys2Proof

/-- An index below NNODES is not NIL: the arena has no more than 511 records. -/
theorem TreeOk.index_ne_nil {c : CoreState} (T : TreeOk c) {n : NodeIdx} (h : n.toNat < c.nnodes.toNat) :
    n ≠ Config.nil := by
  rintro rfl
  have : (Config.nil : NodeIdx).toNat = 511 := rfl
  rcases T.sizes with ⟨_, h3, _⟩ | ⟨h3, h4, h5, _⟩
  · rw [h3] at h; simp at h
  · omega

/-- The root is a node of the tree. -/
theorem TreeOk.root_lt {c : CoreState} (T : TreeOk c) : c.root.toNat < c.nnodes.toNat := by
  rcases T.sizes with ⟨_, h3, h4⟩ | ⟨h3, h4, h5, _⟩
  · rw [h3, h4]; decide
  · omega

/-- The leaf of a symbol is a node of the tree. -/
theorem TreeOk.leafOf_lt {c : CoreState} (T : TreeOk c) {sym : Symbol} (hs : c.leafOf sym ≠ Config.nil) :
    (c.leafOf sym).toNat < c.nnodes.toNat := by
  have := (T.leafNode sym hs).1
  rcases T.sizes with ⟨h3, _, _⟩ | ⟨h3, h4, h5, _⟩
  · rw [h3] at this; simp at this
  · omega

/-- Every node but the root has a parent: an internal node of the tree, above it, with it as exactly one child. -/
theorem TreeOk.parent_step {c : CoreState} (T : TreeOk c) {n : NodeIdx} (hn : n.toNat < c.nnodes.toNat)
    (hr : n ≠ c.root) {nd : Node} (hnd : c.nodeAt n = some nd) :
    nd.parent.toNat < c.nnodes.toNat ∧ nd.parent ≠ Config.nil ∧ n.toNat < nd.parent.toNat ∧
      c.nleaf.toNat ≤ nd.parent.toNat ∧
      ∃ pd, c.nodeAt nd.parent = some pd ∧ (pd.zero = n ∨ pd.one = n) ∧ pd.zero ≠ pd.one := by
  have h1 : nd.parent.toNat < c.nnodes.toNat := T.otherParents _ hn (fun h => hr (BitVec.eq_of_toNat_eq h)) nd hnd
  have h2 := T.index_ne_nil h1
  obtain ⟨pd, hpd⟩ := nodeAt_isSome c h2
  have hl := (T.parentLinks _ h1 _ hn pd hpd nd hnd).1 rfl
  have hl' : pd.zero = n ∨ pd.one = n := hl.imp BitVec.eq_of_toNat_eq BitVec.eq_of_toNat_eq
  have hz : pd.zero ≠ Config.nil := by
    intro hz
    rcases hl' with h | h
    · exact T.index_ne_nil hn (h ▸ hz)
    · exact T.index_ne_nil hn (h ▸ ((T.fullTree _ h1 pd hpd).1 hz))
  obtain ⟨b1, b2, b3⟩ := T.childBelow _ h1 pd hpd hz
  refine ⟨h1, h2, ?_, ?_, pd, hpd, hl', b3⟩
  · rcases hl with h | h <;> omega
  · by_contra hc
    exact hz (T.leaves _ (by omega) pd hpd).1

/-- The walk up from a node of the tree ends at the root and has then recorded the node's path (R161, R162). -/
theorem TreeOk.walkUp_path {c : CoreState} (T : TreeOk c) : ∀ (fuel : Nat) (n : NodeIdx) (path : List Bool),
    n.toNat < c.nnodes.toNat → c.nnodes.toNat ≤ n.toNat + fuel →
    ∃ bits, walkUp c fuel n path = .ok (bits ++ path) ∧ PathTo c n bits := by
  intro fuel
  induction fuel with
  | zero => intro n p h1 h2; omega
  | succ k ih =>
    intro n p h1 h2
    obtain ⟨nd, hnd⟩ := nodeAt_isSome c (T.index_ne_nil h1)
    unfold walkUp
    simp only [hnd]
    by_cases hr : n = c.root
    · subst hr
      rw [if_pos (T.rootParent nd hnd)]
      exact ⟨[], rfl, .root⟩
    · obtain ⟨q1, q2, q3, q4, pd, q5, q6, q7⟩ := T.parent_step h1 hr hnd
      rw [if_neg q2]
      simp only [q5]
      obtain ⟨bits, hb, hp⟩ := ih nd.parent ((if pd.zero = n then false else true) :: p) q1 (by omega)
      by_cases hz : pd.zero = n
      · rw [if_pos hz] at hb ⊢
        exact ⟨bits ++ [false], by rw [hb]; simp, .zero hp hr hnd rfl q5 hz⟩
      · rw [if_neg hz] at hb ⊢
        exact ⟨bits ++ [true], by rw [hb]; simp, .one hp hr hnd rfl q5 (q6.resolve_left hz)⟩

/-- Every symbol with a leaf has a code of at most 255 bits, and it is what ENC computes (R38, R161, R162). -/
theorem TreeOk.codeOf_isCode {c : CoreState} (T : TreeOk c) {sym : Symbol} (hs : c.leafOf sym ≠ Config.nil) :
    ∃ bits, c.codeOf sym = .ok bits ∧ IsCode c sym bits ∧ bits.length ≤ 255 := by
  obtain ⟨hl, nd, hnd, hz, _, _⟩ := T.leafNode sym hs
  have hnn : 1 ≤ c.nleaf.toNat ∧ c.nleaf.toNat ≤ 256 ∧ c.nnodes.toNat = 2 * c.nleaf.toNat - 1 := by
    rcases T.sizes with ⟨h3, _, _⟩ | ⟨h3, h4, h5, _⟩
    · rw [h3] at hl; simp at hl
    · exact ⟨h3, h4, h5⟩
  have hnd' : c.nodeAt (c.leafOf sym) = some nd := hnd
  have key : ∃ bits, c.codeOf sym = .ok bits ∧ PathTo c (c.leafOf sym) bits := by
    unfold CoreState.codeOf Config.maxDepth
    by_cases hr : c.leafOf sym = c.root
    · unfold walkUp
      simp only [hnd']
      rw [if_pos (T.rootParent nd (hr ▸ hnd'))]
      exact ⟨[], rfl, by rw [hr]; exact .root⟩
    · obtain ⟨q1, q2, q3, q4, pd, q5, q6, q7⟩ := T.parent_step (by omega) hr hnd'
      unfold walkUp
      simp only [hnd', q5]
      rw [if_neg q2]
      obtain ⟨bits, hb, hp⟩ :=
        T.walkUp_path 255 nd.parent ((if pd.zero = c.leafOf sym then false else true) :: []) q1 (by omega)
      by_cases hz : pd.zero = c.leafOf sym
      · rw [if_pos hz] at hb ⊢
        exact ⟨bits ++ [false], by rw [hb], .zero hp hr hnd' rfl q5 hz⟩
      · rw [if_neg hz] at hb ⊢
        exact ⟨bits ++ [true], by rw [hb], .one hp hr hnd' rfl q5 (q6.resolve_left hz)⟩
  obtain ⟨bits, h1, h2⟩ := key
  refine ⟨bits, h1, ⟨hs, h2⟩, ?_⟩
  have := walkUp_length c h1
  simp [Config.maxDepth] at this; omega

/-- A node of the tree has one path (R162). -/
theorem TreeOk.path_unique {c : CoreState} (T : TreeOk c) {n : NodeIdx} {a b : List Bool} (ha : PathTo c n a)
    (hb : PathTo c n b) (hn : n.toNat < c.nnodes.toNat) : a = b := by
  induction ha generalizing b with
  | root =>
    cases hb with
    | root => rfl
    | zero h1 h2 => exact absurd rfl h2
    | one h1 h2 => exact absurd rfl h2
  | @zero n p nd pd bits h1 h2 h3 h4 h5 h6 ih =>
    obtain ⟨q1, q2, q3, q4, pd', q5, q6, q7⟩ := T.parent_step hn h2 h3
    cases hb with
    | root => exact absurd rfl h2
    | zero k1 k2 k3 k4 k5 k6 =>
      rw [h3] at k3; cases k3; subst h4; subst k4
      rw [ih k1 q1]
    | one k1 k2 k3 k4 k5 k6 =>
      rw [h3] at k3; cases k3; subst h4; subst k4
      rw [h5] at k5; cases k5; rw [h5] at q5; cases q5
      exact absurd (h6.trans k6.symm) q7
  | @one n p nd pd bits h1 h2 h3 h4 h5 h6 ih =>
    obtain ⟨q1, q2, q3, q4, pd', q5, q6, q7⟩ := T.parent_step hn h2 h3
    cases hb with
    | root => exact absurd rfl h2
    | one k1 k2 k3 k4 k5 k6 =>
      rw [h3] at k3; cases k3; subst h4; subst k4
      rw [ih k1 q1]
    | zero k1 k2 k3 k4 k5 k6 =>
      rw [h3] at k3; cases k3; subst h4; subst k4
      rw [h5] at k5; cases k5; rw [h5] at q5; cases q5
      exact absurd (k6.trans h6.symm) q7

/-- What ENC computes for a symbol is its code (R161, R162). -/
theorem TreeOk.codeOf_eq {c : CoreState} (T : TreeOk c) {sym : Symbol} {bits : List Bool} (h : IsCode c sym bits) :
    c.codeOf sym = .ok bits ∧ bits.length ≤ 255 := by
  obtain ⟨b, h1, h2, h3⟩ := T.codeOf_isCode h.1
  rw [T.path_unique h.2 h2.2 (T.leafOf_lt h.1)]
  exact ⟨h1, h3⟩

/-- A walk down that completes from a node of path `pre` ends at the leaf of the symbol it answers, having made one request
for every further bit of that symbol's code (R171, R177). -/
theorem walkDown_isCode {fuel : Nat} {n : NodeIdx} {pre : List Bool} {s u : State} {v : Symbol} (T : TreeOk s.core)
    (hn : n.toNat < s.core.nnodes.toNat) (hl : 1 ≤ s.core.nleaf.toNat) (hp : PathTo s.core n pre)
    (h : walkDown fuel n s = .done v u) :
    ∃ bits, IsCode s.core v (pre ++ bits) ∧ u.ports.bin.asked = s.ports.bin.asked + bits.length := by
  induction fuel generalizing n pre s with
  | zero => cases h
  | succ k ih =>
    obtain ⟨nd, hnd⟩ := nodeAt_isSome s.core (T.index_ne_nil hn)
    unfold walkDown at h
    simp only [hnd] at h
    split at h
    · rename_i hz
      have hlt : n.toNat < s.core.nleaf.toNat := by
        by_contra hc
        exact (T.internals hl _ hn (by omega) nd hnd).1 hz
      obtain ⟨_, w, hw, hwn⟩ := T.leaves _ hlt nd hnd
      have hw' : nd.sym = some w := hw
      rw [hw'] at h
      simp only at h
      injection h with h1 h2
      subst h1; subst h2
      have e : s.core.leafOf w = n := BitVec.eq_of_toNat_eq hwn
      exact ⟨[], ⟨by rw [e]; exact T.index_ne_nil hn, by rw [e]; simpa using hp⟩, by simp⟩
    · rename_i hz
      obtain ⟨b, t, hb, hk⟩ := Result.bind_eq_done h
      have hfr := bitIn_frame s
      rw [hb] at hfr
      have hcore : t.core = s.core := by rw [hfr.1.rest]; rfl
      obtain ⟨c1, c2, c3⟩ := T.childBelow _ hn nd hnd hz
      have childP : ∀ {m : NodeIdx} {md : Node}, (nd.zero = m ∨ nd.one = m) → m.toNat < n.toNat →
          s.core.nodeAt m = some md → md.parent = n := by
        intro m md hm hlt hmd
        exact BitVec.eq_of_toNat_eq
          ((T.parentLinks _ hn m.toNat (by omega) nd hnd md hmd).2 (hm.imp (congrArg _) (congrArg _)))
      have hroot : n.toNat ≤ s.core.root.toNat := by
        rcases T.sizes with ⟨h3, h4, h5⟩ | ⟨h3, h4, h5, h6⟩
        · rw [h3] at hl; simp at hl
        · omega
      have nr : ∀ {m : NodeIdx}, m.toNat < n.toNat → m ≠ s.core.root := by
        rintro m hm rfl; omega
      have fin : ∀ (m : NodeIdx) (x : Bool), m.toNat < n.toNat → PathTo s.core m (pre ++ [x]) →
          walkDown k m t = .done v u →
          ∃ bits, IsCode s.core v (pre ++ bits) ∧ u.ports.bin.asked = s.ports.bin.asked + bits.length := by
        intro m x hm hpm hw
        have T' : TreeOk t.core := hcore ▸ T
        obtain ⟨bits, i1, i2⟩ := ih T' (by rw [hcore]; omega) (by rw [hcore]; exact hl) (by rw [hcore]; exact hpm) hw
        rw [hcore] at i1
        refine ⟨x :: bits, by simpa using i1, ?_⟩
        have := hfr.2
        simp only [List.length_cons]; omega
      cases b with
      | false =>
        obtain ⟨md, hmd⟩ := nodeAt_isSome s.core (T.index_ne_nil (n := nd.zero) (by omega))
        exact fin nd.zero false c1 (.zero hp (nr c1) hmd (childP (.inl rfl) c1 hmd) hnd rfl) hk
      | true =>
        obtain ⟨md, hmd⟩ := nodeAt_isSome s.core (T.index_ne_nil (n := nd.one) (by omega))
        exact fin nd.one true c2 (.one hp (nr c2) hmd (childP (.inr rfl) c2 hmd) hnd rfl) hk

end Sys2Proof.Machine
end

