-- ==== Sys2Proof/Machine/Asm.lean ====
section
/-! DEFINITION. The assembler syntax of 30_encoding.md R101 and the pseudo-instructions of R102, one line at a time, on
lists of characters. -/

namespace Sys2Proof.Machine

open Sys2Proof

/-- The value of a digit character, decimal or hexadecimal. -/
def digitOf (c : Char) : Option Nat :=
  let v := c.toNat
  if 48 ≤ v ∧ v ≤ 57 then some (v - 48)
  else if 97 ≤ v ∧ v ≤ 102 then some (v - 87)
  else if 65 ≤ v ∧ v ≤ 70 then some (v - 55)
  else none

/-- The number a list of digits writes in a base, `acc` being what stands before them. -/
def numberOf (base : Nat) : Nat → List Char → Option Nat
  | acc, [] => some acc
  | acc, c :: rest =>
    match digitOf c with
    | some d => if d < base then numberOf base (acc * base + d) rest else none
    | none => none

/-- A number: `0x` and hexadecimal digits, or decimal digits. R101 gives the two bases for a symbol operand alone, writes a
hexadecimal byte with two digits, and does not say how a register number is written, nor R102 the `n` of `.dec`: here every
number is in either base, with any count of digits of either case, leading zeros included (DESIGN CHOICE, log 18). -/
def numeral : List Char → Option Nat
  | [] => none
  | ['0', 'x'] => none
  | '0' :: 'x' :: rest => numberOf 16 0 rest
  | cs => numberOf 10 0 cs

/-- A value as an operand byte. -/
def asByte (n : Nat) : Option Byte := if n < 256 then some (BitVec.ofNat 8 n) else none

/-- Printable ASCII: 0x20 to 0x7E. -/
def printable (c : Char) : Bool := decide (32 ≤ c.toNat ∧ c.toNat ≤ 126)

/-- A mnemonic, a name or a number, which runs up to the next blank or comment; a blank is a space (DESIGN CHOICE, log 18). -/
def splitToken (cs : List Char) : List Char × List Char :=
  (cs.takeWhile fun c => c != ' ' && c != ';', cs.dropWhile fun c => c != ' ' && c != ';')

/-- The characters after the leading blanks. -/
def skipBlanks (cs : List Char) : List Char := cs.dropWhile (· == ' ')

/-- Nothing but an optional comment is left on the line (R101). -/
def lineEnds (cs : List Char) : Bool :=
  match skipBlanks cs with
  | [] => true
  | c :: _ => c == ';'

/-- One symbol operand (R101): a character in single quotes, or a number; and what follows it. -/
def symbolOperand (cs : List Char) : Option (Byte × List Char) :=
  match skipBlanks cs with
  | '\'' :: c :: '\'' :: rest => if printable c then (asByte c.toNat).map fun v => (v, rest) else none
  | t => let (tok, rest) := splitToken t; (numeral tok).bind asByte |>.map fun v => (v, rest)

/-- The number of a status register by its name or its number (R29, R101). -/
def registerOperand (tok : List Char) : Option Byte :=
  if tok = ['S', 'T', 'A', 'T', 'U', 'S'] then some 0#8
  else if tok = ['E', 'R', 'R', 'C', 'O', 'D', 'E'] then some 1#8
  else if tok = ['E', 'R', 'R', 'C', 'M', 'D'] then some 2#8
  else if tok = ['T', 'O', 'T', 'A', 'L'] then some 3#8
  else if tok = ['N', 'L', 'E', 'A', 'F'] then some 4#8
  else if tok = ['N', 'N', 'O', 'D', 'E', 'S'] then some 5#8
  else if tok = ['R', 'O', 'O', 'T'] then some 6#8
  else (numeral tok).bind fun n => if n ≤ 6 then asByte n else none

/-- The bytes of a string up to its closing double quote, and what follows it (R102). Which bytes a character stands for
R102 leaves open: here one byte, its code, and a character whose code is 256 or more is outside the syntax. A string has no
escapes, may be empty, and a `;` in it begins no comment (DESIGN CHOICE, each of these, log 18). -/
def stringBody : List Char → Option (List Byte × List Char)
  | [] => none
  | c :: rest =>
    if c = '"' then some ([], rest)
    else
      match asByte c.toNat, stringBody rest with
      | some v, some (vs, t) => some (v :: vs, t)
      | _, _ => none

/-- The operands of `.scan` and `.enc` (R102): symbols and strings up to the end of the line. `fuel` bounds how many. R102
writes at least `b0` and does not speak of a line with none: here it is in the syntax and stands for no command. Nor does
R102 say whether a blank must part two operands: here nothing need follow the closing quote of a character or a string,
while a number runs up to the next blank or comment (DESIGN CHOICE, both, log 18). -/
def symbolList : Nat → List Char → Option (List Byte)
  | 0, _ => none
  | fuel + 1, cs =>
    if lineEnds cs then some []
    else
      match skipBlanks cs with
      | '"' :: rest => (stringBody rest).bind fun p => (symbolList fuel p.2).map (p.1 ++ ·)
      | _ => (symbolOperand cs).bind fun p => (symbolList fuel p.2).map (p.1 :: ·)

/-- A format N command takes no operand (R101). -/
def assembleN (i : Instr) (rest : List Char) : Option (List Instr) := if lineEnds rest then some [i] else none

/-- A format S command takes one symbol operand (R101). -/
def assembleS (mk : Symbol → Instr) (rest : List Char) : Option (List Instr) :=
  (symbolOperand rest).bind fun p => if lineEnds p.2 then some [mk p.1] else none

/-- RDSR takes one register operand (R101). -/
def assembleR (rest : List Char) : Option (List Instr) :=
  let (tok, tail) := splitToken (skipBlanks rest)
  (registerOperand tok).bind fun r => if lineEnds tail then some [.rdsr r] else none

/-- `.dec n` is DEC repeated n times (R102); with `n` 0 it stands for no command. -/
def assembleDecs (rest : List Char) : Option (List Instr) :=
  let (tok, tail) := splitToken (skipBlanks rest)
  (numeral tok).bind fun n => if lineEnds tail then some (List.replicate n .dec) else none

/-- One line of the syntax of R101 and R102 as the commands it stands for; none where it is not in the syntax. Blanks may
stand before the mnemonic, and a line with nothing on it but blanks and a comment stands for no command (DESIGN CHOICE,
log 18). -/
def assembleLine (line : List Char) : Option (List Instr) :=
  if lineEnds line then some []
  else
    let (m, rest) := splitToken (skipBlanks line)
    if m = ['N', 'O', 'P'] then assembleN .nop rest
    else if m = ['F', 'C', 'L', 'R'] then assembleN .fclr rest
    else if m = ['F', 'I', 'N', 'C'] then assembleS .finc rest
    else if m = ['F', 'R', 'D'] then assembleS .frd rest
    else if m = ['B', 'U', 'I', 'L', 'D'] then assembleN .build rest
    else if m = ['E', 'N', 'C'] then assembleS .enc rest
    else if m = ['D', 'E', 'C'] then assembleN .dec rest
    else if m = ['H', 'S', 'E', 'R'] then assembleN .hser rest
    else if m = ['H', 'D', 'E', 'S'] then assembleN .hdes rest
    else if m = ['R', 'D', 'S', 'R'] then assembleR rest
    else if m = ['S', 'R', 'S', 'T'] then assembleN .srst rest
    else if m = ['.', 's', 'c', 'a', 'n'] then (symbolList (rest.length + 1) rest).map (·.map .finc)
    else if m = ['.', 'e', 'n', 'c'] then (symbolList (rest.length + 1) rest).map (·.map .enc)
    else if m = ['.', 'd', 'e', 'c'] then assembleDecs rest
    else none

end Sys2Proof.Machine
end

