-- ==== Sys2Proof/Tests/Slice0.lean ====
section
/-! SUPPORT. Tests of the model on the vectors of 95_test_vectors.md, one step each, and for every statement with
hypotheses a state that meets them. Expected values are the spec's, never the model's own. -/

namespace Sys2Proof.Tests

open Sys2Proof Sys2Proof.Machine

-- Kernel evaluations one after another: side by side they need more memory than the check allows.
set_option Elab.async false

/-! ## Words: what is well-formed, the opcode map bit by bit (30_encoding.md R90 to R94) -/

/-- R29, R91: register 7 is reserved. -/
theorem test_wf_rejects_register7 : ¬ (Instr.rdsr 7#8).WellFormed := by decide

/-- R29, R91: register 6 is the last. -/
theorem test_wf_accepts_register6 : (Instr.rdsr 6#8).WellFormed := by decide

theorem test_decode_nop : decode 0b0000000000000000#16 = .ok .nop := by decide
theorem test_decode_fclr : decode 0b0001000000000000#16 = .ok .fclr := by decide
theorem test_decode_finc : decode 0b0001000111111111#16 = .ok (.finc 0xFF#8) := by decide
theorem test_decode_frd : decode 0b0001001001111010#16 = .ok (.frd 0x7A#8) := by decide
theorem test_decode_build : decode 0b0010000000000000#16 = .ok .build := by decide
theorem test_decode_enc : decode 0b0011000010100101#16 = .ok (.enc 0xA5#8) := by decide
theorem test_decode_dec : decode 0b0011000100000000#16 = .ok .dec := by decide
theorem test_decode_hser : decode 0b0100000000000000#16 = .ok .hser := by decide
theorem test_decode_hdes : decode 0b0100000100000000#16 = .ok .hdes := by decide
theorem test_decode_rdsr : decode 0b1111000000000110#16 = .ok (.rdsr 6#8) := by decide
theorem test_decode_srst : decode 0b1111111100000000#16 = .ok .srst := by decide

/-- V-X1 to V-X5. -/
theorem test_decode_rejects : decode 0x0001#16 = .error (.nonzeroArg 0x00#8 0x01#8) ∧
    decode 0xFFFF#16 = .error (.nonzeroArg 0xFF#8 0xFF#8) ∧ decode 0x2100#16 = .error (.unknownOpcode 0x21#8) ∧
    decode 0xF007#16 = .error (.reservedRegister 0x07#8) := by decide

/-- The worked encodings of P1 and P3. -/
theorem test_encode : encode (.finc 0x61#8) = 0x1161#16 ∧ encode (.enc 0x41#8) = 0x3041#16 ∧
    encode .build = 0x2000#16 ∧ encode (.rdsr 3#8) = 0xF003#16 ∧ encode .srst = 0xFF00#16 := by decide

/-- The opcode table's bits are the command word as it stands. -/
theorem test_tableWord : decodeTableWord 16 0x1161 = some (.finc 0x61#8) ∧ decodeTableWord 16 0x0100 = none := by decide

/-- The host's next word is the one `withFetchWord` puts there. -/
theorem test_fetchWord : (State.reset.withFetchWord 16 0x2000).inbox = [.command 0x2000#16] := by decide

/-! ## States -/

/-- A table with the counts given and 0 elsewhere. -/
def tableOf (xs : List (Nat × Count)) : Vector Count 256 :=
  xs.foldl (fun f x => f.setIfInBounds x.1 x.2) (Vector.replicate 256 0#16)

/-- A leaf table with the entries given and NIL elsewhere. -/
def leavesOf (xs : List (Nat × NodeIdx)) : Vector NodeIdx 256 :=
  xs.foldl (fun f x => f.setIfInBounds x.1 x.2) (Vector.replicate 256 0x1FF#9)

/-- An arena with the records given at 0, 1, ... -/
def arenaOf (xs : List Node) : Vector Node 511 :=
  (xs.zipIdx).foldl (fun f x => f.setIfInBounds x.2 x.1) (Vector.replicate 511 Node.blank)

/-- A leaf record. -/
def leafNode (w : Weight) (sym : Symbol) (parent : NodeIdx) : Node :=
  { w := w, sym := some sym, zero := 0x1FF#9, one := 0x1FF#9, parent := parent }

/-- An internal record. -/
def innerNode (w : Weight) (zero one parent : NodeIdx) : Node :=
  { w := w, sym := none, zero := zero, one := one, parent := parent }

/-- A core with a table and no tree. -/
def tableCore (f : Vector Count 256) (total : Weight) : CoreState :=
  { CoreState.reset with freq := f, total := total, ti := true }

/-- A machine with the core given, and nothing at its ports. -/
def machine (c : CoreState) : State := { State.reset with core := c }

/-- T0 of the vectors. -/
def t0 : State := machine (tableCore (tableOf []) 0#24)
/-- T(ab) of the vectors. -/
def tAb : State := machine (tableCore (tableOf [(0x61, 1), (0x62, 1)]) 2#24)
/-- The table of V-B3, "aabc". -/
def tAabc : State := machine (tableCore (tableOf [(0x61, 2), (0x62, 1), (0x63, 1)]) 4#24)
/-- The table of one 'A'. -/
def tA : State := machine (tableCore (tableOf [(0x41, 1)]) 1#24)

/-- The tree of S1. -/
def bAbCore : CoreState :=
  { tAb.core with
    node := arenaOf [leafNode 1 0x61 2, leafNode 1 0x62 2, innerNode 2 0 1 0x1FF]
    leaf := leavesOf [(0x61, 0), (0x62, 1)]
    nleaf := 2, nnodes := 3, root := 2, tv := true }
/-- B(ab) of the vectors. -/
def bAb : State := machine bAbCore

/-- The tree of V-B3: codes a `0`, b `10`, c `11`. -/
def bAabcCore : CoreState :=
  { tAabc.core with
    node := arenaOf [leafNode 2 0x61 4, leafNode 1 0x62 3, leafNode 1 0x63 3, innerNode 2 1 2 4, innerNode 4 0 3 0x1FF]
    leaf := leavesOf [(0x61, 0), (0x62, 1), (0x63, 2)]
    nleaf := 3, nnodes := 5, root := 4, tv := true }
def bAabc : State := machine bAabcCore

/-- The tree of V-B2. -/
def bACore : CoreState :=
  { tA.core with node := arenaOf [leafNode 1 0x41 0x1FF], leaf := leavesOf [(0x41, 0)], nleaf := 1, nnodes := 1, root := 0
                 tv := true }
/-- B(A) of the vectors. -/
def bA : State := machine bACore

/-- The tree of V-B1. -/
def b0Core : CoreState :=
  { t0.core with node := arenaOf [innerNode 0 0x1FF 0x1FF 0x1FF], leaf := leavesOf [], nleaf := 0, nnodes := 1, root := 0
                 tv := true }
/-- B(0) of the vectors. -/
def b0 : State := machine b0Core

/-- The state after V-F7. -/
def faulted : State :=
  machine { CoreState.reset with fault := true, errcode := 0x03#8, errcmd := 0x1161#16 }

/-- The machine with the bits given to read on BIN and the plan given for it. -/
def reading (s : State) (bits : List Bool) (plan : List Answer) : State :=
  s.withBin { data := bits, pos := 0, plan := plan, asked := 0 }

/-- The machine with the bytes given to read on HIN and the plan given for it. -/
def loading (s : State) (bytes : List Byte) (plan : List Answer) : State :=
  s.withHin { data := bytes, pos := 0, plan := plan, asked := 0 }

/-- The header of S1. -/
def abHeader : List Byte := List.replicate 195 0x00#8 ++ [0x01#8, 0x00#8, 0x01#8] ++ List.replicate 314 0x00#8

/-- The state a command answers, if it answers one. -/
def after (o : Host.Outcome State Fault Refusal) (p : State → Bool) : Bool :=
  match o with
  | .next t => p t
  | .fault _ => false
  | .refused _ => false

theorem next_of_after {o : Host.Outcome State Fault Refusal} {p : State → Bool} (h : after o p = true) :
    ∃ t, o = .next t ∧ p t = true := by
  cases o with
  | next t => exact ⟨t, rfl, h⟩
  | fault f => cases h
  | refused r => cases h

/-! ## One step of every command -/

/-- V-X9: NOP runs while FAULT = 1. -/
theorem test_nop : exec .nop faulted = .next { faulted with responses := [0x00000000#32] } := rfl

/-- V-F2. -/
theorem test_fclr : after (exec .fclr bAb) (fun t => decide (t.responses = [0x00000000#32] ∧ t.core.status = 0x01#8 ∧
    t.core.total = 0#24 ∧ t.core.nnodes = 3#9 ∧ t.core.count 0x61#8 = 0#16)) := by decide +kernel

/-- V-X6. -/
theorem test_fclr_faulted : exec .fclr faulted = .next { faulted with responses := [0x02000000#32] } := rfl

/-- V-F4. -/
theorem test_finc : after (exec (.finc 0x61#8) tAb) (fun t => decide (t.responses = [0x00000002#32] ∧
    t.core.count 0x61#8 = 2#16 ∧ t.core.count 0x62#8 = 1#16 ∧ t.core.total = 3#24)) := by decide +kernel

/-- V-F8: the 65536th occurrence. -/
theorem test_finc_overflow :
    after (exec (.finc 0x41#8) (machine (tableCore (tableOf [(0x41, 65535)]) 65535#24))) (fun t => decide
      (t.responses = [0x07000000#32] ∧ t.core.count 0x41#8 = 65535#16 ∧ t.core.total = 65535#24 ∧
        t.core.status = 0x81#8 ∧ t.core.errcmd = 0x1141#16)) := by decide +kernel

/-- V-F13. -/
theorem test_frd : after (exec (.frd 0x62#8) bAb) (fun t => decide (t.responses = [0x00000001#32] ∧
    t.core.status = 0x03#8)) := by decide +kernel

/-- V-F12. -/
theorem test_frd_reset : after (exec (.frd 0x61#8) State.reset) (fun t => decide (t.responses = [0x03000000#32] ∧
    t.core.errcode = 0x03#8)) := by decide +kernel

/-- S1, V-B5: a tie of two leaves. -/
theorem test_build_ab : after (exec .build tAb) (fun t => decide (t.responses = [0x00000002#32] ∧
    t.core.nodeAt 0#9 = some (leafNode 1 0x61 2) ∧ t.core.nodeAt 1#9 = some (leafNode 1 0x62 2) ∧
    t.core.nodeAt 2#9 = some (innerNode 2 0 1 0x1FF) ∧ t.core.root = 2#9 ∧ t.core.leafOf 0x62#8 = 1#9 ∧
    t.core.leafOf 0x63#8 = 0x1FF#9)) := by decide +kernel

/-- V-B3: a tie of a leaf and an internal node. -/
theorem test_build_aabc : after (exec .build tAabc) (fun t => decide (t.responses = [0x00000003#32] ∧
    t.core.nodeAt 0#9 = some (leafNode 2 0x61 4) ∧ t.core.nodeAt 1#9 = some (leafNode 1 0x62 3) ∧
    t.core.nodeAt 2#9 = some (leafNode 1 0x63 3) ∧ t.core.nodeAt 3#9 = some (innerNode 2 1 2 4) ∧
    t.core.nodeAt 4#9 = some (innerNode 4 0 3 0x1FF) ∧ t.core.root = 4#9)) := by decide +kernel

/-- A BUILD on a table answers a state with the built core. -/
theorem exec_build_next {s : State} (hf : s.core.fault = false) (hi : s.core.ti = true) :
    exec .build s = .next (State.answering (zext24 s.core.built.nleaf) { s with core := s.core.built }) := by
  rw [exec_eq_runBody, runBody_of_noFault _ _ hf]
  simp only [bodyOf, buildBody, hi, require_true, finish_done]

/-- V-B3's code of 'b': `10`, the root's bit first. -/
theorem test_enc : after (exec (.enc 0x62#8) bAabc) (fun t => decide (t.responses = [0x00000002#32] ∧
    t.ports.bout.data = [true, false])) := by decide +kernel

/-- V-E9. -/
theorem test_enc_noleaf : after (exec (.enc 0x42#8) bA) (fun t => decide (t.responses = [0x06000000#32] ∧
    t.ports.bout.data = [] ∧ t.core.errcmd = 0x3042#16)) := by decide +kernel

/-- V-B3's code of 'b', read back; V-D2 has the same shape. -/
theorem test_dec : after (exec .dec (reading bAabc [true, false, true] [])) (fun t => decide
    (t.responses = [0x00000062#32] ∧ t.ports.bin.pos = 2)) := by decide +kernel

/-- As V-D4: the code breaks off after one bit. -/
theorem test_dec_eof : after (exec .dec (reading bAabc [true] [])) (fun t => decide
    (t.responses = [0x08000000#32] ∧ t.ports.bin.pos = 1 ∧ t.core.errcmd = 0x3100#16 ∧ t.core.status = 0x83#8)) := by
  decide +kernel

/-- V-H1. -/
theorem test_hser : after (exec .hser tAb) (fun t => decide (t.responses = [0x00000200#32] ∧
    (t.ports.hout.data.drop 194).take 4 = [0x00, 0x01, 0x00, 0x01])) := by decide +kernel

/-- V-H2, bytes 130 and 131. -/
theorem test_hser_order : after (exec .hser (machine (tableCore (tableOf [(0x41, 1000)]) 1000#24))) (fun t => decide
    ((t.ports.hout.data.drop 130).take 2 = [0x03, 0xE8])) := by decide +kernel

/-- V-H6. -/
theorem test_hdes : after (exec .hdes (loading State.reset abHeader [])) (fun t => decide
    (t.responses = [0x00000002#32] ∧ t.core.count 0x61#8 = 1#16 ∧ t.ports.hin.pos = 512)) := by decide +kernel

/-- V-H4. -/
theorem test_hdes_short : after (exec .hdes (loading State.reset [0x00, 0x01, 0x00, 0x02, 0x00] [])) (fun t => decide
    (t.responses = [0x09000000#32] ∧ t.ports.hin.pos = 5 ∧ t.core.count 0#8 = 1#16 ∧ t.core.count 1#8 = 2#16 ∧
      t.core.total = 3#24 ∧ t.core.status = 0x80#8 ∧ t.core.errcmd = 0x4100#16)) := by decide +kernel

/-- V-S4: TI, TV and SINGLE. -/
theorem test_rdsr_status : after (exec (.rdsr 0#8) bA) (fun t => decide (t.responses = [0x0000000B#32])) := by
  decide +kernel

/-- V-S2, the last of the seven. -/
theorem test_rdsr_root : after (exec (.rdsr 6#8) State.reset) (fun t => decide (t.responses = [0x000001FF#32])) := by
  decide +kernel

/-- V-S7 and V-S9. -/
theorem test_srst : after (exec .srst faulted) (fun t => decide (t.responses = [0x00000000#32] ∧ t.core.fault = false ∧
    t.core.errcode = 0x00#8 ∧ t.core.errcmd = 0x0000#16 ∧ t.core.root = 0x1FF#9)) := by decide +kernel

/-- V-X8: an illegal word while FAULT = 1 records nothing. -/
theorem test_nested_illegal : step (faulted.withCommand 0xF007#16) =
    .next { faulted with responses := [0x01000000#32] } := rfl

/-- V-X7: the gate comes before legality. -/
theorem test_gate_first : step (faulted.withCommand 0x1234#16) =
    .next { faulted with responses := [0x02000000#32] } := rfl

/-- V-E13's shape: a sink that fails on the second bit. -/
theorem test_enc_fail : after (exec (.enc 0x62#8) (bAabc.withBout { data := [], plan := [.serves, .fails], asked := 0 }))
    (fun t => decide (t.responses = [0x0A000000#32] ∧ t.ports.bout.data.head? = some true ∧
      t.core.errcmd = 0x3062#16)) := by decide +kernel

/-- R262: a reset after the first of two bits leaves that bit and no response. -/
theorem test_cut : after (takeMove (.commandCut 0x3062#16 1) bAabc) (fun t => decide (t.responses = [] ∧
    t.ports.bout.data = [true] ∧ t.core.tv = false)) := by decide +kernel

/-! ## The file view and the syntax -/

/-- S1: the payload of "ab" with padding of zeros, and of ones. -/
theorem test_pack : pack 0x00#8 [false, true] = [0x40#8] ∧ pack 0xFF#8 [false, true] = [0x7F#8] := by decide

/-- V-D8: the bits of 0x40. -/
theorem test_unpack : unpack [0x40#8] = [false, true, false, false, false, false, false, false] := by decide

/-- The syntax of P1 and P2 (R101, R102). -/
theorem test_assemble :
    assembleLine ['F', 'I', 'N', 'C', ' ', '\'', 'a', '\''] = some [.finc 0x61#8] ∧
    assembleLine ['R', 'D', 'S', 'R', ' ', 'T', 'O', 'T', 'A', 'L', ' ', ';', 'x'] = some [.rdsr 3#8] ∧
    assembleLine ['.', 's', 'c', 'a', 'n', ' ', '"', 'a', 'b', '"'] = some [.finc 0x61#8, .finc 0x62#8] ∧
    assembleLine ['.', 'd', 'e', 'c', ' ', '2'] = some [.dec, .dec] := by decide +kernel

/-! ## Witnesses: for every statement with hypotheses, states and operands that meet them all -/

/-- The tree of V-B3 has every property of R35. -/
theorem tree_aabc : TreeOk bAabcCore := by constructor <;> decide +kernel

/-- So has the one-leaf tree of V-B2. -/
theorem tree_A : TreeOk bACore := by constructor <;> decide +kernel

/-- code('b') = `10` in V-B3. -/
theorem code_b : IsCode bAabcCore 0x62#8 [true, false] :=
  ⟨by decide +kernel, by
    rw [show bAabcCore.leafOf 0x62#8 = 1#9 by decide +kernel]
    have h3 : PathTo bAabcCore 3#9 [true] := .one (bits := []) (p := 4#9) (nd := innerNode 2 1 2 4)
      (pd := innerNode 4 0 3 0x1FF) .root (by decide +kernel) (by decide +kernel) rfl (by decide +kernel) rfl
    exact .zero (nd := leafNode 1 0x62 3) (pd := innerNode 2 1 2 4) h3 (by decide +kernel) (by decide +kernel) rfl
      (by decide +kernel) rfl⟩

/-- code('a') = `0` in V-B3. -/
theorem code_a : IsCode bAabcCore 0x61#8 [false] :=
  ⟨by decide +kernel, by
    rw [show bAabcCore.leafOf 0x61#8 = 0#9 by decide +kernel]
    exact .zero (bits := []) (p := 4#9) (nd := leafNode 2 0x61 4) (pd := innerNode 4 0 3 0x1FF) .root
      (by decide +kernel) (by decide +kernel) rfl (by decide +kernel) rfl⟩

theorem witness_RdsrAnswersTheRegister : (6#8).toNat ≤ 6 ∧ 7 ≤ (7#8).toNat ∧ 7 ≤ (255#8).toNat := by decide

theorem witness_NopOnlyAnswers : (0x01#8 : Byte) ≠ 0x00#8 ∧ (0xFF#8 : Byte) ≠ 0x00#8 := by decide

theorem witness_FclrClearsTheTable : bAb.core.fault = false ∧ faulted.core.fault = true := by decide +kernel

theorem witness_FincCountsOneOccurrence :
    faulted.core.fault = true ∧ (State.reset.core.fault = false ∧ State.reset.core.ti = false) ∧
    (∃ s : State, s.core.fault = false ∧ s.core.ti = true ∧ s.core.count 0xFF#8 = 0xFFFF#16) ∧
    (∃ s : State, s.core.fault = false ∧ s.core.ti = true ∧ s.core.count 0xFF#8 = 0xFFFE#16 ∧
      s.core.count 0xFF#8 ≠ 0xFFFF#16) :=
  ⟨by decide +kernel, by decide +kernel, ⟨machine (tableCore (tableOf [(0xFF, 65535)]) 65535#24), by decide +kernel⟩,
    ⟨machine (tableCore (tableOf [(0xFF, 65534)]) 65534#24), by decide +kernel⟩⟩

theorem witness_FrdAnswersTheCount : faulted.core.fault = true ∧
    (State.reset.core.fault = false ∧ State.reset.core.ti = false) ∧ (tAb.core.fault = false ∧ tAb.core.ti = true) := by
  decide +kernel

theorem witness_ScanCountsOccurrences :
    State.reset.core.fault = false ∧ (∀ x : Byte, [0x61#8, 0x62#8, 0x61#8].count x ≤ 65535) :=
  ⟨rfl, fun _ => List.count_le_length.trans (by decide)⟩

theorem witness_BuildMakesAValidTree :
    tAabc.core.fault = false ∧ tAabc.core.ti = true ∧ tAabc.core.total.toNat = tAabc.core.tableSum := by decide +kernel

/-- Nodes 3 and 4 of V-B3's tree are internal; node 0 has no parent while node 3 is made. -/
theorem built_aabc : tAabc.core.built.nleaf = 3#9 ∧ tAabc.core.built.nnodes = 5#9 ∧
    tAabc.core.built.node[3]? = some (innerNode 2 1 2 4) ∧ tAabc.core.built.node[4]? = some (innerNode 4 0 3 0x1FF) := by
  decide +kernel

theorem witness_BuildMergesTheTwoFirstNodes :
    ∃ (t : State) (nd : Node), exec .build tAabc = .next t ∧ tAabc.core.fault = false ∧ tAabc.core.ti = true ∧
      t.core.nleaf.toNat ≤ 3 ∧ 1 ≤ t.core.nleaf.toNat ∧ 3 < t.core.nnodes.toNat ∧ t.core.node[3]? = some nd ∧
      (∃ zd, t.core.nodeAt nd.zero = some zd) ∧ (∃ od, t.core.nodeAt nd.one = some od) ∧
      (∃ md : Node, t.core.node[0]? = some md ∧ 3 < md.parent.toNat) := by
  refine ⟨_, innerNode 2 1 2 4, exec_build_next rfl rfl, rfl, rfl, ?_, ?_, ?_, built_aabc.2.2.1, ?_, ?_, ?_⟩
  · exact built_aabc.1 ▸ by decide
  · exact built_aabc.1 ▸ by decide
  · exact built_aabc.2.1 ▸ by decide
  · exact nodeAt_isSome _ (by decide)
  · exact nodeAt_isSome _ (by decide)
  · exact ⟨leafNode 2 0x61 4, by decide +kernel, by decide⟩

theorem witness_InternalWeightsDoNotDecrease :
    ∃ t : State, exec .build tAabc = .next t ∧ tAabc.core.fault = false ∧ tAabc.core.ti = true ∧
      1 ≤ t.core.nleaf.toNat ∧ t.core.nleaf.toNat ≤ 3 ∧ 4 < t.core.nnodes.toNat ∧
      t.core.node[3]? = some (innerNode 2 1 2 4) ∧ t.core.node[4]? = some (innerNode 4 0 3 0x1FF) :=
  ⟨_, exec_build_next rfl rfl, rfl, rfl, built_aabc.1 ▸ by decide, built_aabc.1 ▸ by decide, built_aabc.2.1 ▸ by decide,
    built_aabc.2.2.1, built_aabc.2.2.2⟩

theorem witness_ExtractMinTakesTheFirst :
    (([] : List QEntry).map QEntry.n).Nodup ∧
    ([{ w := 1#24, n := 3#9 }, { w := 1#24, n := 2#9 }].map QEntry.n).Nodup := by decide

theorem witness_BuildOnZeroTableMakesPlaceholder :
    t0.core.fault = false ∧ t0.core.ti = true ∧ ∀ x : Symbol, t0.core.count x = 0#16 := by decide +kernel

theorem witness_BuildOnOneSymbolMakesOneLeaf : tA.core.fault = false ∧ tA.core.ti = true ∧
    tA.core.count 0x41#8 ≠ 0#16 ∧ ∀ x : Symbol, x ≠ 0x41#8 → tA.core.count x = 0#16 := by decide +kernel

theorem witness_BuildDependsOnTheTableAlone : tAabc.core.fault = false ∧ bAabc.core.fault = false ∧
    tAabc.core.ti = true ∧ bAabc.core.ti = true ∧ tAabc.core.freq = bAabc.core.freq := ⟨rfl, rfl, rfl, rfl, rfl⟩

/-- BOUT serves the two bits of the code and would fail a third request. -/
theorem witness_EncEmitsTheCode :
    (TreeOk bAabcCore ∧ bAabcCore.leafOf 0x62#8 ≠ 0x1FF#9) ∧
    ∃ s : State, s.core.fault = false ∧ s.core.tv = true ∧ TreeOk s.core ∧ IsCode s.core 0x62#8 [true, false] ∧
      s.ports.bout.plan = [.serves, .serves, .fails] ∧ noFailure [true, false].length s.ports.bout.plan :=
  ⟨⟨tree_aabc, code_b.1⟩, bAabc.withBout { data := [], plan := [.serves, .serves, .fails], asked := 0 }, rfl, rfl,
    tree_aabc, code_b, rfl, by decide⟩

theorem witness_EncOnOneLeafEmitsNothing : bA.core.fault = false ∧ bA.core.tv = true ∧ TreeOk bA.core ∧
    bA.core.nleaf = 1#9 ∧ bA.core.leafOf 0x41#8 ≠ 0x1FF#9 := ⟨rfl, rfl, tree_A, rfl, by decide +kernel⟩

theorem witness_EncFailurePartWayKeepsTheBits :
    ∃ s : State, s.core.fault = false ∧ s.core.tv = true ∧ TreeOk s.core ∧
      IsCode s.core 0x62#8 ([true] ++ false :: []) ∧
      s.ports.bout.plan = List.replicate [true].length .serves ++ .fails :: [] :=
  ⟨bAabc.withBout { data := [], plan := [.serves, .fails], asked := 0 }, rfl, rfl, tree_aabc, code_b, rfl⟩

theorem witness_CodesArePrefixFree : TreeOk bAabcCore ∧ IsCode bAabcCore 0x62#8 [true, false] ∧
    IsCode bAabcCore 0x61#8 [false] ∧ (0x62#8 : Symbol) ≠ 0x61#8 := ⟨tree_aabc, code_b, code_a, by decide⟩

theorem witness_DecInvertsTheCode :
    ∃ s : State, s.core.fault = false ∧ s.core.tv = true ∧ TreeOk s.core ∧ IsCode s.core 0x62#8 [true, false] ∧
      s.ports.bin.unread = [true, false] ++ [true] ∧ noFailure [true, false].length s.ports.bin.plan :=
  ⟨reading bAabc [true, false, true] [], rfl, rfl, tree_aabc, code_b, rfl, by decide⟩

theorem witness_DecAcceptsEveryBitSequence :
    ∃ s : State, s.core.fault = false ∧ s.core.tv = true ∧ TreeOk s.core ∧ s.core.nleaf ≠ 0#9 ∧
      255 ≤ s.ports.bin.unread.length ∧ noFailure 255 s.ports.bin.plan :=
  ⟨reading bAabc (List.replicate 255 true) [], rfl, rfl, tree_aabc, by decide +kernel, by decide +kernel, by decide⟩

theorem witness_DecOnOneLeafTakesNoBit :
    bA.core.fault = false ∧ bA.core.tv = true ∧ TreeOk bA.core ∧ bA.core.nleaf = 1#9 := ⟨rfl, rfl, tree_A, rfl⟩

theorem witness_DecExhaustionRaisesBitEof :
    ∃ s : State, s.core.fault = false ∧ s.core.tv = true ∧ TreeOk s.core ∧
      IsCode s.core 0x62#8 ([true] ++ false :: []) ∧ s.ports.bin.unread = [true] ∧
      noFailure ([true].length + 1) s.ports.bin.plan :=
  ⟨reading bAabc [true] [], rfl, rfl, tree_aabc, code_b, rfl, by decide⟩

theorem witness_DecFailureRaisesIo :
    ∃ s : State, s.core.fault = false ∧ s.core.tv = true ∧ TreeOk s.core ∧
      IsCode s.core 0x62#8 ([true] ++ false :: []) ∧ s.ports.bin.unread = [true] ++ [false] ∧
      s.ports.bin.plan = List.replicate [true].length .serves ++ .fails :: [] :=
  ⟨reading bAabc [true, false] [.serves, .fails], rfl, rfl, tree_aabc, code_b, rfl, rfl⟩

theorem witness_HserWritesTheHeader :
    tAb.core.fault = false ∧ tAb.core.ti = true ∧ noFailure 512 tAb.ports.hout.plan := ⟨rfl, rfl, by decide⟩

/-- The first byte and the last. -/
theorem witness_HserFailurePartWayKeepsTheBytes : ∀ k ∈ [0, 511], ∃ s : State,
    s.core.fault = false ∧ s.core.ti = true ∧ k < 512 ∧
      s.ports.hout.plan = List.replicate k .serves ++ .fails :: [] := fun k hk =>
  ⟨tAb.withHout { data := [], plan := List.replicate k .serves ++ .fails :: [], asked := 0 }, rfl, rfl,
    by simp at hk; omega, rfl⟩

theorem length_abHeader : abHeader.length = 512 := by decide +kernel

theorem witness_HdesReadsTheHeader :
    ∃ s : State, s.core.fault = false ∧ abHeader.length = 512 ∧ s.ports.hin.unread = abHeader ++ [0x40#8] ∧
      noFailure 512 s.ports.hin.plan :=
  ⟨loading State.reset (abHeader ++ [0x40#8]) [], rfl, length_abHeader, rfl, by decide⟩

/-- No byte, an odd number of them, and all but one. -/
theorem witness_HdesOnShortHeaderRaisesHdrShort :
    ∀ got ∈ [[], [0x00#8, 0x01#8, 0x00#8, 0x02#8, 0x00#8], List.replicate 511 0x00#8], ∃ s : State,
      s.core.fault = false ∧ s.ports.hin.unread = got ∧ got.length < 512 ∧
      noFailure (got.length + 1) s.ports.hin.plan := fun got hg =>
  ⟨loading State.reset got [], rfl, rfl, by
    rcases List.mem_cons.mp hg with rfl | hg
    · decide
    · rcases List.mem_cons.mp hg with rfl | hg
      · decide
      · rw [List.mem_singleton.mp hg, List.length_replicate]; decide,
    by simp [noFailure, loading]⟩

theorem witness_HdesOnFailingSourceRaisesIo :
    ∃ s : State, s.core.fault = false ∧ s.ports.hin.unread = [0x00#8, 0x01#8, 0x00#8] ++ [0x02#8] ∧
      [0x00#8, 0x01#8, 0x00#8].length < 512 ∧
      s.ports.hin.plan = List.replicate [0x00#8, 0x01#8, 0x00#8].length .serves ++ .fails :: [] :=
  ⟨loading State.reset [0x00, 0x01, 0x00, 0x02] [.serves, .serves, .serves, .fails], rfl, rfl, by decide, rfl⟩

/-- HSER completes where HOUT serves. -/
theorem exec_hser_next {s : State} (hf : s.core.fault = false) (hi : s.core.ti = true) (hp : s.ports.hout.plan = []) :
    exec .hser s = .next (State.answering 512#24
      (s.withHout (s.ports.hout.wrote (headerOf s.core.count allSymbols)))) := by
  rw [exec_eq_runBody, runBody_of_noFault _ _ hf]
  simp only [bodyOf, hserBody, hi, require_true, hserLoop_eq_emitBytes]
  rw [emitBytes_ok _ (by simp [noFailure, hp])]
  rfl

theorem witness_HdesUndoesHser :
    ∃ s1 t : State, tAb.core.fault = false ∧ tAb.core.ti = true ∧ noFailure 512 tAb.ports.hout.plan ∧
      exec .hser tAb = .next s1 ∧ t.core.fault = false ∧
      t.ports.hin.unread = s1.ports.hout.data.drop tAb.ports.hout.data.length ++ [] ∧
      noFailure 512 t.ports.hin.plan := by
  have key : ∀ hdr : List Byte, (loading State.reset hdr []).ports.hin.unread =
      (tAb.ports.hout.wrote hdr).data.drop tAb.ports.hout.data.length ++ [] := fun hdr => by
    rw [OutPort.wrote_data, List.drop_left, List.append_nil]; rfl
  exact ⟨_, loading State.reset (headerOf tAb.core.count allSymbols) [], rfl, rfl, by decide,
    exec_hser_next rfl rfl rfl, rfl, key _, by decide⟩

theorem witness_NoTableRaisesNotable : State.reset.core.fault = false ∧ State.reset.core.ti = false := by decide +kernel

theorem witness_NoTreeRaisesNotree : tAb.core.fault = false ∧ tAb.core.tv = false := by decide +kernel

theorem witness_AbsentSymbolRaisesNoleaf :
    bA.core.fault = false ∧ bA.core.tv = true ∧ bA.core.leafOf 0x42#8 = 0x1FF#9 := by decide +kernel

theorem witness_PlaceholderRaisesEmpty : b0.core.fault = false ∧ b0.core.tv = true ∧ b0.core.nleaf = 0#9 := by
  decide +kernel

/-- An illegal word while FAULT = 0, and one that the gate lets pass while FAULT = 1. -/
theorem witness_IllegalWordRaisesIllegal :
    (∃ r, decode 0x0100#16 = .error r) ∧ State.reset.core.fault = false ∧
    (∃ r, decode 0xF007#16 = .error r) ∧ faulted.core.fault = true ∧
    (0xF007#16).extractLsb' 8 8 ∈ [0x00#8, 0xF0#8, 0xFF#8] :=
  ⟨⟨_, rfl⟩, rfl, ⟨_, rfl⟩, rfl, by decide⟩

/-- The opcodes next to those the gate lets pass. -/
theorem witness_FaultedCoreRefusesCommands : faulted.core.fault = true ∧
    (0x0100#16).extractLsb' 8 8 ∉ [0x00#8, 0xF0#8, 0xFF#8] ∧ (0xEFFF#16).extractLsb' 8 8 ∉ [0x00#8, 0xF0#8, 0xFF#8] ∧
    (0xF100#16).extractLsb' 8 8 ∉ [0x00#8, 0xF0#8, 0xFF#8] ∧ (0xFEFF#16).extractLsb' 8 8 ∉ [0x00#8, 0xF0#8, 0xFF#8] := by
  decide +kernel

theorem witness_FirstFaultIsKept : faulted.core.fault = true ∧ (0xFF01#16 : CmdWord) ≠ 0xFF00#16 := by decide +kernel

theorem witness_FirstCommandsAfterReset :
    ∃ s : State, s.core.fault = false ∧ s.core.ti = false ∧ s.core.tv = false ∧ 512 ≤ s.ports.hin.unread.length ∧
      noFailure 512 s.ports.hin.plan :=
  ⟨loading State.reset abHeader [], rfl, rfl, rfl, length_abHeader.ge, by decide⟩

theorem witness_CodesEachCommandCanReport :
    (Instr.rdsr 6#8).WellFormed ∧ ∃ t, exec (.rdsr 6#8) State.reset = .next t := ⟨by decide, _, rfl⟩

theorem witness_OneResponsePerCommand :
    ∃ t, step { faulted with inbox := .command 0x1234#16 :: [.hardReset] } = .next t := ⟨_, rfl⟩

theorem witness_OnlyBuildWritesTheTree :
    Instr.fclr ≠ .build ∧ Instr.fclr ≠ .srst ∧ ∃ t, exec .fclr bAb = .next t := ⟨by decide, by decide, _, rfl⟩

/-- FCLR on B(ab) changes the table; FINC, on a table, keeps TI. -/
theorem witness_TableWritesClearTreeValid : ∃ t, exec .fclr bAb = .next t ∧ t.core.freq ≠ bAb.core.freq ∧
    Instr.fclr ≠ .build ∧ t.core.ti = true :=
  ⟨_, rfl, fun h => absurd (congrArg (fun f => f[0x61]) h) (by decide +kernel), by decide, rfl⟩

/-- One witness for each of the four commands that use a port. -/
theorem witness_EachCommandUsesItsOwnPort :
    (∃ t, exec .hdes (loading State.reset abHeader []) = .next t ∧ t.core.fault = false) ∧ State.reset.core.fault = false ∧
    (∃ t, exec .hser tAb = .next t ∧ t.core.fault = false) ∧ tAb.core.fault = false ∧
    (∃ t, exec .dec (reading bAabc [true, false] []) = .next t ∧ t.core.fault = false) ∧
    (∃ t, exec (.enc 0x62#8) bAabc = .next t ∧ t.core.fault = false) ∧ bAabc.core.fault = false ∧
    TreeOk bAabc.core := by
  refine ⟨?_, rfl, ⟨_, exec_hser_next rfl rfl rfl, rfl⟩, rfl, ?_, ?_, rfl, tree_aabc⟩
  · obtain ⟨t, h, hf⟩ := next_of_after (p := fun t => !t.core.fault)
      (show after (exec .hdes (loading State.reset abHeader [])) _ = true by decide +kernel)
    exact ⟨t, h, by simpa using hf⟩
  · obtain ⟨t, h, hf⟩ := next_of_after (p := fun t => !t.core.fault)
      (show after (exec .dec (reading bAabc [true, false] [])) _ = true by decide +kernel)
    exact ⟨t, h, by simpa using hf⟩
  · obtain ⟨t, h, hf⟩ := next_of_after (p := fun t => !t.core.fault)
      (show after (exec (.enc 0x62#8) bAabc) _ = true by decide +kernel)
    exact ⟨t, h, by simpa using hf⟩

theorem witness_StreamsOnlyAdvance : ∃ t, step (faulted.withCommand 0xFF00#16) = .next t := ⟨_, rfl⟩

/-- ENC and DEC of a code of two bits: more than one request, and not more than two. -/
theorem witness_ResetDuringCommandLeavesAPrefix :
    (∃ u, step { bAabc with inbox := .command 0x3062#16 :: [] } = .next u ∧
      bAabc.ports.bout.asked + 1 < u.ports.bout.asked ∧ u.ports.bout.asked ≤ bAabc.ports.bout.asked + 2) ∧
    (∃ s u : State, step { s with inbox := .command 0x3100#16 :: [] } = .next u ∧
      s.ports.bin.asked + 1 < u.ports.bin.asked ∧ u.ports.bin.asked ≤ s.ports.bin.asked + 2) := by
  constructor
  · obtain ⟨u, h, hu⟩ := next_of_after (p := fun u => decide (u.ports.bout.asked = 2))
      (show after (step { bAabc with inbox := .command 0x3062#16 :: [] }) _ = true by decide +kernel)
    have hu := of_decide_eq_true hu
    exact ⟨u, h, by rw [hu]; decide, by rw [hu]; decide⟩
  · obtain ⟨u, h, hu⟩ := next_of_after (p := fun u => decide (u.ports.bin.asked = 2))
      (show after (step { reading bAabc [true, false] [] with inbox := .command 0x3100#16 :: [] }) _ = true by
        decide +kernel)
    have hu := of_decide_eq_true hu
    exact ⟨reading bAabc [true, false] [], u, h, by rw [hu]; decide, by rw [hu]; decide⟩

/-- B(aabc) meets the invariants. -/
theorem inv_aabc : bAabc.Inv where
  core := {
    totalSum := by decide +kernel
    totalRange := by decide +kernel
    tvTi := fun _ => rfl
    noFault := fun _ => ⟨rfl, rfl⟩
    faultCode := fun h => by cases h
    sizes := .inr tree_aabc.sizes
    tree := fun _ => tree_aabc }
  hpos := Nat.le_refl 0
  bpos := Nat.le_refl 0

theorem witness_EveryStepKeepsTheInvariant :
    ∃ s t : State, s.Inv ∧ s.inbox = [.command 0x1000#16] ∧ step s = .next t :=
  ⟨bAabc.withCommand 0x1000#16, _, ⟨inv_aabc.core, inv_aabc.hpos, inv_aabc.bpos⟩, rfl, rfl⟩

theorem witness_NoStepStops : (bAabc.withCommand 0x3062#16).Inv := ⟨inv_aabc.core, inv_aabc.hpos, inv_aabc.bpos⟩

theorem witness_StepRunsTheDecodedCommand : decode 0x11FF#16 = .ok (.finc 0xFF#8) := by decide

theorem witness_CoreWaitsForACommand : State.reset.inbox = [] := rfl

theorem witness_DecodeInvertsEncode : (Instr.rdsr 6#8).WellFormed ∧ (Instr.finc 0xFF#8).WellFormed := by decide

theorem witness_EncodeInvertsDecode : decode 0xF006#16 = .ok (.rdsr 6#8) := by decide

/-- A word of the row of FINC, and the last register of RDSR. -/
theorem witness_OpcodeRowsAreDisjoint :
    (∃ a ∈ opcodeRows, 0x11FF#16 &&& a.mask = a.pattern) ∧ decode 0x11FF#16 = .ok (.finc 0xFF#8) ∧
    (∃ a ∈ opcodeRows, 0xF006#16 &&& a.mask = a.pattern ∧ a.pattern = 0xF000#16) ∧
    ((0xF006#16).extractLsb' 0 8).toNat ≤ 6 :=
  ⟨⟨⟨"FINC", 0x1100#16, 0xFF00#16⟩, by decide, by decide⟩, by decide,
    ⟨⟨"RDSR", 0xF000#16, 0xFF00#16⟩, by decide, by decide, rfl⟩, by decide⟩

theorem witness_UnpackInvertsPack : 1 < 8 ∧ [false, true][8 * 0 + 1]? = some true := by decide

theorem witness_RoundTripRestoresTheInput :
    (∀ x : Byte, [0x61#8, 0x62#8].count x ≤ 65535) ∧ State.reset.core.fault = false ∧
    State.reset.ports.hout.data = [] ∧ State.reset.ports.bout.data = [] ∧
    Answer.fails ∉ State.reset.ports.hout.plan ∧ Answer.fails ∉ State.reset.ports.bout.plan ∧
    faulted.core.fault ≠ bAb.core.fault ∧ bAb.core.fault = false :=
  ⟨fun _ => List.count_le_length.trans (by decide), rfl, rfl, rfl, by decide, by decide, by decide +kernel, rfl⟩

end Sys2Proof.Tests
end

section
/-! What one step does with the host's next move (00_scope.md R6): the equations of `step` and `handle`. -/

namespace Sys2Proof.Machine

open Sys2Proof

/-- R6: the oldest move is taken from the host's list and carried out; the moves behind it only wait. -/
theorem step_inbox_cons (s : State) (m : HostMove) (rest : List HostMove) :
    step { s with inbox := m :: rest } = takeMove m { s with inbox := rest } := rfl

theorem takeMove_command (c : CmdWord) (s : State) : takeMove (.command c) s = handle c s := rfl

/-- R231: a word that decodes is its command's meaning, which holds the FAULT gate itself. -/
theorem handle_of_decode {c : CmdWord} {i : Instr} (h : decode c = .ok i) (s : State) : handle c s = exec i s := by
  simp only [handle, h]

/-- Settles O50: the step takes the word, and the word is handled as the command it decodes to. -/
theorem stepRunsTheDecodedCommand : Obligations.StepRunsTheDecodedCommand := by
  intro s c i rest hdec
  calc step { s with inbox := .command c :: rest }
      = takeMove (.command c) { s with inbox := rest } := step_inbox_cons s (.command c) rest
    _ = handle c { s with inbox := rest } := takeMove_command c _
    _ = exec i { s with inbox := rest } := handle_of_decode hdec _

end Sys2Proof.Machine
end

section
/-! Node indices as numbers (10_state.md R32), and the sum of the table (R23, R29): its range, and what one changed
count does to it. -/

namespace Sys2Proof.Machine

open Sys2Proof

/-- NIL as a number: the one index that names no node (R32). -/
theorem nil_toNat : (Config.nil : NodeIdx).toNat = 511 := rfl

/-- A number below 512 fits a node index (R8). -/
theorem idx_toNat {n : Nat} (h : n < 512) : (BitVec.ofNat 9 n).toNat = n := Nat.mod_eq_of_lt h

/-- The symbols as numbers are 0 to 255 in order. -/
theorem allSymbols_pairwise_lt : allSymbols.Pairwise (· < ·) := by
  refine List.pairwise_map.mpr (List.pairwise_lt_range.imp_of_mem fun {i j} hi hj hij => ?_)
  rw [List.mem_range] at hi hj
  simp only [BitVec.lt_def, BitVec.toNat_ofNat]
  omega

theorem allSymbols_nodup : allSymbols.Nodup := allSymbols_pairwise_lt.imp BitVec.ne_of_lt

/-- The sum of the counts of the symbols listed; that of all symbols is `CoreState.tableSum`. -/
def CoreState.sumOver (c : CoreState) (l : List Symbol) : Nat := (l.map fun s => (c.count s).toNat).sum

@[simp] theorem sumOver_nil (c : CoreState) : c.sumOver [] = 0 := rfl

@[simp] theorem sumOver_cons (c : CoreState) (x : Symbol) (l : List Symbol) :
    c.sumOver (x :: l) = (c.count x).toNat + c.sumOver l := rfl

@[simp] theorem sumOver_append (c : CoreState) (l k : List Symbol) :
    c.sumOver (l ++ k) = c.sumOver l + c.sumOver k := by
  simp [CoreState.sumOver]

theorem sumOver_congr {c d : CoreState} (h : d.freq = c.freq) (l : List Symbol) : d.sumOver l = c.sumOver l := by
  simp only [CoreState.sumOver, count_congr h]

theorem tableSum_congr {c d : CoreState} (h : d.freq = c.freq) : d.tableSum = c.tableSum :=
  sumOver_congr h allSymbols

/-- A count is at most 65535 (R22). -/
theorem sumOver_le (c : CoreState) (l : List Symbol) : c.sumOver l ≤ 65535 * l.length := by
  induction l with
  | nil => exact Nat.le_refl 0
  | cons x l ih =>
    have := (c.count x).isLt
    rw [sumOver_cons, List.length_cons]
    omega

/-- TOTAL's range: 256 counts of at most 65535 (R29). -/
theorem tableSum_le (c : CoreState) : c.tableSum ≤ 16776960 :=
  (sumOver_le c allSymbols).trans (by rw [allSymbols_length])

/-- A count fits a weight (R10). -/
theorem zext24_count_toNat (v : Count) : (zext24 v).toNat = v.toNat := by
  have := v.isLt
  simp only [zext24, BitVec.toNat_setWidth]
  omega

/-- A count that is not listed does not matter. -/
theorem sumOver_setCount_of_notMem (c : CoreState) {x : Symbol} (v : Count) {l : List Symbol} (h : x ∉ l) :
    (c.setCount x v).sumOver l = c.sumOver l := by
  refine congrArg List.sum (List.map_congr_left fun y hy => ?_)
  rw [count_setCount, if_neg (fun e : x = y => h (e ▸ hy))]

/-- A listed count takes its old value out of the sum and puts its new one in. -/
theorem sumOver_setCount_of_mem (c : CoreState) {x : Symbol} (v : Count) {l : List Symbol} (hd : l.Nodup) (h : x ∈ l) :
    (c.setCount x v).sumOver l + (c.count x).toNat = c.sumOver l + v.toNat := by
  induction l with
  | nil => exact absurd h List.not_mem_nil
  | cons y l ih =>
    rw [List.nodup_cons] at hd
    obtain ⟨hy, hl⟩ := hd
    rw [sumOver_cons, sumOver_cons]
    by_cases e : x = y
    · subst e
      rw [sumOver_setCount_of_notMem c v hy, count_setCount_self]
      omega
    · have hx := ih hl ((List.mem_cons.mp h).resolve_left e)
      rw [count_setCount, if_neg e]
      omega

/-- One changed count changes the table's sum by as much (R23). -/
theorem tableSum_setCount (c : CoreState) (x : Symbol) (v : Count) :
    (c.setCount x v).tableSum + (c.count x).toNat = c.tableSum + v.toNat :=
  sumOver_setCount_of_mem c v allSymbols_nodup (mem_allSymbols x)

/-- A table of zeros sums to 0 (R120). -/
theorem clearTable_tableSum (c : CoreState) : c.clearTable.tableSum = 0 := by
  have hcount (x : Symbol) : c.clearTable.count x = 0#16 := by simp [CoreState.count, CoreState.clearTable]
  rw [CoreState.tableSum, List.sum_eq_zero]
  intro n hn
  obtain ⟨x, -, rfl⟩ := List.mem_map.mp hn
  rw [hcount]
  rfl

/-- Counting one occurrence below the limit adds one to the table's sum (R122). -/
theorem countOne_tableSum {c : CoreState} {x : Symbol} (h : c.count x ≠ Config.cntMax) :
    (c.countOne x).tableSum = c.tableSum + 1 := by
  have hset := tableSum_setCount c x (c.count x + 1#16)
  have hlt := (c.count x).isLt
  have hmax : (c.count x).toNat ≠ 65535 := fun e => h (BitVec.eq_of_toNat_eq e)
  have hfreq : (c.countOne x).freq = (c.setCount x (c.count x + 1#16)).freq := rfl
  rw [tableSum_congr hfreq]
  rw [BitVec.toNat_add] at hset
  simp only [BitVec.toNat_ofNat] at hset
  omega

end Sys2Proof.Machine
end

section
/-! The load phase of BUILD (41_build.md R141, R142): what the arena, the leaf table and the queue hold after it. -/

namespace Sys2Proof.Machine

open Sys2Proof

/-- The symbols with a non-zero count, in ascending order: those that get a leaf (R30, R142). -/
def CoreState.present (c : CoreState) : List Symbol := allSymbols.filter fun s => decide (c.count s ≠ 0#16)

/-- The record of the leaf of `s` before it has a parent (R142). -/
def CoreState.leafRecord (c : CoreState) (s : Symbol) : Node :=
  { w := zext24 (c.count s), sym := some s, zero := Config.nil, one := Config.nil, parent := Config.nil }

theorem mem_present {c : CoreState} {s : Symbol} : s ∈ c.present ↔ c.count s ≠ 0#16 := by
  simp [CoreState.present]

theorem present_pairwise_lt (c : CoreState) : c.present.Pairwise (· < ·) := allSymbols_pairwise_lt.filter _

theorem present_length (c : CoreState) : c.present.length = c.presentSymbols :=
  (List.countP_eq_length_filter ..).symm

theorem present_length_le (c : CoreState) : c.present.length ≤ 256 :=
  (List.length_filter_le ..).trans allSymbols_length.le

/-- A later leaf belongs to a greater symbol (R35 (e)). -/
theorem present_lt {c : CoreState} {i j : Nat} (hi : i < c.present.length) (hj : j < c.present.length) (h : i < j) :
    c.present[i].toNat < c.present[j].toNat :=
  BitVec.lt_def.mp (List.pairwise_iff_getElem.mp (present_pairwise_lt c) i j hi hj h)

/-- The load phase takes its symbols one after the other, the last one last. -/
theorem loadPhase_append_singleton (freq : Symbol → Count) (xs : List Symbol) (y : Symbol) (b : BuildState) :
    loadPhase freq (xs ++ [y]) b = loadSymbol (freq y) y (loadPhase freq xs b) := by
  induction xs generalizing b with
  | nil => rfl
  | cons x xs ih => exact ih _

/-- What BUILD has made of the core `c` when the symbols `leaves` have got a leaf and the symbols `absent` none. -/
structure LoadedAs (c : CoreState) (leaves absent : List Symbol) (b : BuildState) : Prop where
  count : b.n = leaves.length
  nodes : ∀ (i : Nat) (h : i < leaves.length), b.node[i]? = some (c.leafRecord leaves[i])
  above : ∀ i, leaves.length ≤ i → b.node[i]? = c.node[i]?
  leaf : ∀ (i : Nat) (h : i < leaves.length), b.leaf[leaves[i].toNat]? = some (BitVec.ofNat 9 i)
  noLeaf : ∀ s ∈ absent, b.leaf[s.toNat]? = some Config.nil
  queue : b.q = leaves.mapIdx fun i s => { w := zext24 (c.count s), n := BitVec.ofNat 9 i }

/-- A symbol with count 0 gets the mark NIL and nothing else (R142). -/
theorem LoadedAs.skip {c : CoreState} {leaves absent : List Symbol} {b : BuildState} {y : Symbol}
    (h : LoadedAs c leaves absent b) (hy : c.count y = 0#16) (hnew : y ∉ leaves) :
    LoadedAs c leaves (absent ++ [y]) (loadSymbol (c.count y) y b) := by
  have ne {s : Symbol} (hs : s ≠ y) : y.toNat ≠ s.toNat := fun e => hs (BitVec.eq_of_toNat_eq e.symm)
  rw [loadSymbol, if_pos hy]
  refine { h with leaf := fun i hi => ?_, noLeaf := fun s hs => ?_ }
  · rw [Vector.getElem?_set_ne _ (ne fun e => hnew (e ▸ List.getElem_mem hi))]
    exact h.leaf i hi
  · by_cases e : s = y
    · simp [e]
    · rw [Vector.getElem?_set_ne _ (ne e)]
      exact h.noLeaf s (by simpa [e] using hs)

/-- A symbol with a non-zero count gets the next node of the arena as its leaf, and the leaf goes into Q (R142). -/
theorem LoadedAs.add {c : CoreState} {leaves absent : List Symbol} {b : BuildState} {y : Symbol}
    (h : LoadedAs c leaves absent b) (hy : c.count y ≠ 0#16) (hnew : y ∉ leaves ++ absent)
    (hroom : leaves.length < 511) :
    LoadedAs c (leaves ++ [y]) absent (loadSymbol (c.count y) y b) := by
  rw [List.mem_append, not_or] at hnew
  obtain ⟨hl, ha⟩ := hnew
  have ne {s : Symbol} (hs : s ≠ y) : y.toNat ≠ s.toNat := fun e => hs (BitVec.eq_of_toNat_eq e.symm)
  rw [loadSymbol, if_neg hy]
  refine ⟨by simp [h.count], fun i hi => ?_, fun i hi => ?_, fun i hi => ?_, fun s hs => ?_, ?_⟩
  · rw [List.length_append, List.length_singleton] at hi
    by_cases e : i < leaves.length
    · rw [Vector.getElem?_setIfInBounds_ne (by rw [h.count]; omega), List.getElem_append_left e]
      exact h.nodes i e
    · obtain rfl : i = leaves.length := by omega
      simp [h.count, hroom, CoreState.leafRecord]
  · rw [List.length_append, List.length_singleton] at hi
    rw [Vector.getElem?_setIfInBounds_ne (by rw [h.count]; omega)]
    exact h.above i (by omega)
  · rw [List.length_append, List.length_singleton] at hi
    by_cases e : i < leaves.length
    · rw [List.getElem_append_left e, Vector.getElem?_set_ne _ (ne fun e' => hl (e' ▸ List.getElem_mem e))]
      exact h.leaf i e
    · obtain rfl : i = leaves.length := by omega
      simp [h.count]
  · rw [Vector.getElem?_set_ne _ (ne fun e => ha (e ▸ hs))]
    exact h.noLeaf s hs
  · simp [h.queue, h.count, List.mapIdx_append]

/-- The load phase over distinct symbols. -/
theorem loadPhase_loadedAs (c : CoreState) {syms : List Symbol} (hd : syms.Nodup) (hroom : syms.length ≤ 511) :
    LoadedAs c (syms.filter fun s => decide (c.count s ≠ 0#16)) (syms.filter fun s => decide (c.count s = 0#16))
      (loadPhase c.count syms { node := c.node, leaf := c.leaf, n := 0, q := [] }) := by
  induction syms using List.reverseRecOn with
  | nil => exact ⟨rfl, by simp, by simp [loadPhase], by simp, by simp, rfl⟩
  | append_singleton xs y ih =>
    rw [List.nodup_append'] at hd
    obtain ⟨hxs, -, hdis⟩ := hd
    have hy : y ∉ xs := fun h => hdis h (List.mem_singleton_self y)
    rw [List.length_append, List.length_singleton] at hroom
    have hb := ih hxs (by omega)
    rw [loadPhase_append_singleton, List.filter_append, List.filter_append]
    by_cases e : c.count y = 0#16
    · simpa [e] using hb.skip e fun h => hy (List.mem_filter.mp h).1
    · have hlen := List.length_filter_le (fun s => decide (c.count s ≠ 0#16)) xs
      simpa [e] using hb.add e (by simp [hy]) (by omega)

/-- The load phase of BUILD: one leaf for every symbol with a non-zero count, in ascending order (R141, R142). -/
theorem loaded_loadedAs (c : CoreState) :
    LoadedAs c c.present (allSymbols.filter fun s => decide (c.count s = 0#16)) c.loaded :=
  loadPhase_loadedAs c allSymbols_nodup (by simp)

theorem loaded_n (c : CoreState) : c.loaded.n = c.present.length := (loaded_loadedAs c).count

end Sys2Proof.Machine
end

section
/-! The merge phase of BUILD (41_build.md R141, R143 to R145): what one merge does to the arena, and the forest that
every merge keeps. -/

namespace Sys2Proof.Machine

open Sys2Proof

/-! ## The queue and the loop -/

/-- Extraction takes one element out and loses none (R143). -/
theorem extractMin_perm {q others : List QEntry} {x : QEntry} (h : extractMin q = some (x, others)) :
    q.Perm (x :: others) := by
  induction q generalizing x others with
  | nil => simp [extractMin] at h
  | cons y rest ih =>
    simp only [extractMin] at h
    split at h
    · rename_i hr
      obtain rfl := extractMin_eq_none.mp hr
      simp only [Option.some.injEq, Prod.mk.injEq] at h
      obtain ⟨rfl, rfl⟩ := h
      exact .refl _
    · rename_i m o hr
      split at h <;> simp only [Option.some.injEq, Prod.mk.injEq] at h <;> obtain ⟨rfl, rfl⟩ := h
      · exact .refl _
      · exact ((ih hr).cons y).trans (.swap ..)

/-- What every merge keeps holds after the merge phase. -/
theorem mergePhase_keeps {I : BuildState → Prop}
    (hstep : ∀ b x y q1 q2, I b → extractMin b.q = some (x, q1) → extractMin q1 = some (y, q2) → I (mergeStep x y q2 b))
    (fuel : Nat) {b : BuildState} (h : I b) : I (mergePhase fuel b) := by
  induction fuel generalizing b with
  | zero => exact h
  | succ k ih =>
    unfold mergePhase
    split
    · exact h
    · rename_i x q1 hx
      split
      · exact h
      · rename_i y q2 hy
        exact ih (hstep _ _ _ _ _ h hx hy)

/-- With as much fuel as there are elements in Q, at most one is left (R145). -/
theorem mergePhase_q_length {fuel : Nat} {b : BuildState} (h : b.q.length ≤ fuel) :
    (mergePhase fuel b).q.length ≤ 1 := by
  induction fuel generalizing b with
  | zero => exact h.trans (Nat.zero_le 1)
  | succ k ih =>
    unfold mergePhase
    split
    · rename_i hx
      simp [extractMin_eq_none.mp hx]
    · rename_i x q1 hx
      have hlx := extractMin_length hx
      split
      · rename_i hy
        obtain rfl := extractMin_eq_none.mp hy
        exact hlx.ge
      · rename_i y q2 hy
        have hly := extractMin_length hy
        refine ih ?_
        rw [mergeStep_q, List.length_append, List.length_singleton]
        omega

/-- No merge touches the leaf table (R141). -/
theorem mergePhase_leaf (fuel : Nat) (b : BuildState) : (mergePhase fuel b).leaf = b.leaf :=
  mergePhase_keeps (I := fun m => m.leaf = b.leaf) (fun _ _ _ _ _ h _ _ => h) fuel rfl

/-! ## The arena after one merge -/

/-- The record `nd` of node `k` after a merge of `x` and `y` into node `p`. -/
def Node.adopted (x y : QEntry) (p : NodeIdx) (k : Nat) (nd : Node) : Node :=
  { nd with parent := if x.n.toNat = k ∨ y.n.toNat = k then p else nd.parent }

section
variable {x y : QEntry} {p : NodeIdx} {k : Nat} {nd : Node}

@[simp] theorem adopted_w : (nd.adopted x y p k).w = nd.w := rfl
@[simp] theorem adopted_sym : (nd.adopted x y p k).sym = nd.sym := rfl
@[simp] theorem adopted_zero : (nd.adopted x y p k).zero = nd.zero := rfl
@[simp] theorem adopted_one : (nd.adopted x y p k).one = nd.one := rfl
theorem adopted_parent_child (h : x.n.toNat = k ∨ y.n.toNat = k) : (nd.adopted x y p k).parent = p := if_pos h
theorem adopted_parent_other (h : ¬ (x.n.toNat = k ∨ y.n.toNat = k)) : (nd.adopted x y p k).parent = nd.parent :=
  if_neg h

end

/-- Every node but the new one keeps its record, its parent aside (R141). -/
theorem mergeStep_node_old (x y : QEntry) (q : List QEntry) (b : BuildState) {k : Nat} (hk : k ≠ b.n) :
    (mergeStep x y q b).node[k]? = b.node[k]?.map (Node.adopted x y (BitVec.ofNat 9 b.n) k) := by
  simp only [mergeStep, getElem?_setParent, Vector.getElem?_setIfInBounds_ne hk.symm]
  cases b.node[k]? with
  | none => simp
  | some nd => by_cases hx : x.n.toNat = k <;> by_cases hy : y.n.toNat = k <;> simp [hx, hy, Node.adopted]

/-- Where the record of an old node comes from. -/
theorem mergeStep_old_record {x y : QEntry} {q : List QEntry} {b : BuildState} {k : Nat} (hk : k < b.n) {nd : Node}
    (hnd : nd ∈ (mergeStep x y q b).node[k]?) :
    ∃ od ∈ b.node[k]?, nd = od.adopted x y (BitVec.ofNat 9 b.n) k := by
  rw [mergeStep_node_old x y q b hk.ne] at hnd
  obtain ⟨od, hod, rfl⟩ := Option.mem_map.mp hnd
  exact ⟨od, hod, rfl⟩

/-- An old node can be read after the merge, with the same weight. -/
theorem mergeStep_keeps_weight (x y : QEntry) (q : List QEntry) {b : BuildState} {k : Nat} (hk : k < b.n) {od : Node}
    (hod : od ∈ b.node[k]?) : ∃ nd ∈ (mergeStep x y q b).node[k]?, nd.w = od.w :=
  ⟨_, by rw [mergeStep_node_old x y q b hk.ne, Option.mem_def.mp hod]; rfl, adopted_w⟩

/-- The new node: an internal node with `x` and `y` as its children (R141, R144). -/
theorem mergeStep_node_new {x y : QEntry} (q : List QEntry) {b : BuildState} (hn : b.n < 511) (hx : x.n.toNat < b.n)
    (hy : y.n.toNat < b.n) : (mergeStep x y q b).node[b.n]? =
      some { w := x.w + y.w, sym := none, zero := x.n, one := y.n, parent := Config.nil } := by
  simp only [mergeStep, getElem?_setParent, if_neg hx.ne, if_neg hy.ne]
  exact Vector.getElem?_setIfInBounds_self_of_lt hn

/-! ## The forest -/

/-- `nd`, an internal node with index `i`, has two children below it, whose weights it sums up (R35 (c), (f)). -/
structure InnerNode (node : Vector Node 511) (i : Nat) (nd : Node) : Prop where
  sym : nd.sym = none
  zero_lt : nd.zero.toNat < i
  one_lt : nd.one.toNat < i
  ne : nd.zero ≠ nd.one
  weight : ∃ z ∈ node[nd.zero.toNat]?, ∃ o ∈ node[nd.one.toNat]?, nd.w.toNat = z.w.toNat + o.w.toNat

/-- What BUILD holds between two merges: a forest over the nodes below `n`, the leaves of the core's present symbols
first, whose roots are the elements of Q. -/
structure Forest (c : CoreState) (b : BuildState) : Prop where
  size : b.n + b.q.length = 2 * c.present.length
  someRoot : b.q ≠ []
  leavesFirst : c.present.length ≤ b.n
  leaf : ∀ (i : Nat) (h : i < c.present.length), ∃ p, b.node[i]? = some { c.leafRecord c.present[i] with parent := p }
  inner : ∀ i, c.present.length ≤ i → i < b.n → ∀ nd ∈ b.node[i]?, InnerNode b.node i nd
  links : ∀ i < b.n, ∀ m < b.n, ∀ nd ∈ b.node[i]?, ∀ md ∈ b.node[m]?,
    (md.parent.toNat = i ↔ (nd.zero.toNat = m ∨ nd.one.toNat = m))
  queued : ∀ e ∈ b.q, e.n.toNat < b.n ∧ ∃ nd ∈ b.node[e.n.toNat]?, nd.w = e.w ∧ nd.parent = Config.nil
  distinct : (b.q.map QEntry.n).Nodup
  parents : ∀ m < b.n, ∀ md ∈ b.node[m]?, md.parent.toNat < b.n ∨ ∃ e ∈ b.q, e.n.toNat = m
  weights : (b.q.map fun e => e.w.toNat).sum = c.tableSum
  above : ∀ i, b.n ≤ i → b.node[i]? = c.node[i]?

namespace Forest

variable {c : CoreState} {b : BuildState} {x y : QEntry} {q2 : List QEntry}

/-- The arena is never full: at most 511 nodes in all (R32, R145). -/
theorem n_lt (F : Forest c b) : b.n < 512 := by
  have := F.size
  have := present_length_le c
  have := List.length_pos_of_ne_nil F.someRoot
  omega

/-- The first `L` nodes are leaves, without children. -/
theorem leaf_childless (F : Forest c b) {i : Nat} (h : i < c.present.length) {nd : Node} (hnd : nd ∈ b.node[i]?) :
    nd.zero = Config.nil ∧ nd.one = Config.nil := by
  obtain ⟨p, hp⟩ := F.leaf i h
  obtain rfl := Option.some.inj (hp.symm.trans hnd)
  exact ⟨rfl, rfl⟩

/-- A child link leads below the node or nowhere. -/
theorem child_lt_or_nil (F : Forest c b) {i : Nat} (hi : i < b.n) {nd : Node} (hnd : nd ∈ b.node[i]?) :
    (nd.zero = Config.nil ∧ nd.one = Config.nil) ∨ InnerNode b.node i nd := by
  by_cases h : i < c.present.length
  · exact .inl (F.leaf_childless h hnd)
  · exact .inr (F.inner i (by omega) hi nd hnd)

/-- An element of Q has no parent yet. -/
theorem parent_of_queued (F : Forest c b) {e : QEntry} (he : e ∈ b.q) {nd : Node} (hnd : nd ∈ b.node[e.n.toNat]?) :
    nd.parent = Config.nil := by
  obtain ⟨-, md, hmd, -, hp⟩ := F.queued e he
  exact Option.some.inj (hnd.symm.trans hmd) ▸ hp

section
variable (F : Forest c b) (hq : b.q.Perm (x :: y :: q2))
include F hq

theorem room : b.n < 511 := by
  have := F.size
  have := present_length_le c
  have := hq.length_eq
  simp only [List.length_cons] at this
  omega

theorem newIdx_toNat : (BitVec.ofNat 9 b.n).toNat = b.n := by
  have := F.room hq
  exact idx_toNat (by omega)

theorem first_lt : x.n.toNat < b.n := (F.queued x (hq.mem_iff.mpr (by simp))).1

theorem second_lt : y.n.toNat < b.n := (F.queued y (hq.mem_iff.mpr (by simp))).1

theorem queue_distinct : x.n ≠ y.n ∧ (∀ e ∈ q2, ¬ (x.n.toNat = e.n.toNat ∨ y.n.toNat = e.n.toNat)) ∧
    (q2.map QEntry.n).Nodup := by
  have h := (hq.map QEntry.n).nodup_iff.mp F.distinct
  simp only [List.map_cons, List.nodup_cons, List.mem_cons, List.mem_map, not_or, not_exists, not_and] at h
  obtain ⟨⟨hxy, hx⟩, hy, hd⟩ := h
  refine ⟨hxy, fun e he => ?_, hd⟩
  rintro (h | h)
  · exact hx e he (BitVec.eq_of_toNat_eq h.symm)
  · exact hy e he (BitVec.eq_of_toNat_eq h.symm)

/-- R150: the weight of the new node does not overflow, since Q holds the whole table's weight. -/
theorem weight_add : (x.w + y.w).toNat = x.w.toNat + y.w.toNat ∧
    x.w.toNat + y.w.toNat + (q2.map fun e => e.w.toNat).sum = c.tableSum := by
  have h := ((hq.map fun e => e.w.toNat).sum_eq).symm.trans F.weights
  simp only [List.map_cons, List.sum_cons] at h
  have := tableSum_le c
  refine ⟨?_, by omega⟩
  rw [BitVec.toNat_add]
  omega

/-- The two nodes that a merge takes had no parent. -/
theorem no_parent_of_merged {m : Nat} (hm : x.n.toNat = m ∨ y.n.toNat = m) {md : Node} (hmd : md ∈ b.node[m]?) :
    md.parent = Config.nil := by
  rcases hm with rfl | rfl
  · exact F.parent_of_queued (hq.mem_iff.mpr (by simp)) hmd
  · exact F.parent_of_queued (hq.mem_iff.mpr (by simp)) hmd

/-- A node that is neither merged nor a child yet stays in Q. -/
theorem parents_of_other {m : Nat} (hm : m < b.n) (hne : ¬ (x.n.toNat = m ∨ y.n.toNat = m)) {md : Node}
    (hmd : md ∈ b.node[m]?) : md.parent.toNat < b.n ∨ ∃ e ∈ q2, e.n.toNat = m := by
  refine (F.parents m hm md hmd).imp_right fun ⟨e, he, hem⟩ => ⟨e, ?_, hem⟩
  rcases List.mem_cons.mp (hq.mem_iff.mp he) with rfl | he
  · exact absurd (.inl hem) hne
  rcases List.mem_cons.mp he with rfl | he
  · exact absurd (.inr hem) hne
  · exact he

/-- The record of the new node. -/
theorem new_record {nd : Node} (hnd : nd ∈ (mergeStep x y q2 b).node[b.n]?) :
    nd = { w := x.w + y.w, sym := none, zero := x.n, one := y.n, parent := Config.nil } := by
  rw [mergeStep_node_new q2 (F.room hq) (F.first_lt hq) (F.second_lt hq)] at hnd
  exact (Option.some.inj hnd).symm

theorem inner_merge {i : Nat} (hL : c.present.length ≤ i) (hi : i < b.n + 1) {nd : Node}
    (hnd : nd ∈ (mergeStep x y q2 b).node[i]?) : InnerNode (mergeStep x y q2 b).node i nd := by
  rcases Nat.lt_succ_iff_lt_or_eq.mp hi with hi | rfl
  · obtain ⟨od, hod, rfl⟩ := mergeStep_old_record hi hnd
    obtain ⟨hs, hz, ho, hne, z, hzm, o, hom, hw⟩ := F.inner i hL hi od hod
    obtain ⟨z', hz', hzw⟩ := mergeStep_keeps_weight x y q2 (hz.trans hi) hzm
    obtain ⟨o', ho', how⟩ := mergeStep_keeps_weight x y q2 (ho.trans hi) hom
    exact ⟨hs, hz, ho, hne, z', hz', o', ho', by rw [hzw, how]; exact hw⟩
  · obtain rfl := F.new_record hq hnd
    obtain ⟨hx, xd, hxd, hxw, -⟩ := F.queued x (hq.mem_iff.mpr (by simp))
    obtain ⟨hy, yd, hyd, hyw, -⟩ := F.queued y (hq.mem_iff.mpr (by simp))
    obtain ⟨x', hx', hxw'⟩ := mergeStep_keeps_weight x y q2 hx hxd
    obtain ⟨y', hy', hyw'⟩ := mergeStep_keeps_weight x y q2 hy hyd
    refine ⟨rfl, hx, hy, (F.queue_distinct hq).1, x', hx', y', hy', ?_⟩
    rw [hxw', hyw', hxw, hyw]
    exact (F.weight_add hq).1

/-- R35 (g) after a merge: the parent links of the two merged nodes and the child links of the new node agree. -/
theorem links_merge {i m : Nat} (hi : i < b.n + 1) (hm : m < b.n + 1) {nd md : Node}
    (hnd : nd ∈ (mergeStep x y q2 b).node[i]?) (hmd : md ∈ (mergeStep x y q2 b).node[m]?) :
    md.parent.toNat = i ↔ (nd.zero.toNat = m ∨ nd.one.toNat = m) := by
  have hroom := F.room hq
  have hnil := nil_toNat
  have hidx := F.newIdx_toNat hq
  rcases Nat.lt_succ_iff_lt_or_eq.mp hm with hm | rfl <;> rcases Nat.lt_succ_iff_lt_or_eq.mp hi with hi | rfl
  · obtain ⟨od, hod, rfl⟩ := mergeStep_old_record hi hnd
    obtain ⟨omd, homd, rfl⟩ := mergeStep_old_record hm hmd
    rw [adopted_zero, adopted_one, ← F.links i hi m hm od hod omd homd]
    by_cases h : x.n.toNat = m ∨ y.n.toNat = m
    · rw [adopted_parent_child h, F.no_parent_of_merged hq h homd]
      omega
    · rw [adopted_parent_other h]
  · obtain rfl := F.new_record hq hnd
    obtain ⟨omd, homd, rfl⟩ := mergeStep_old_record hm hmd
    by_cases h : x.n.toNat = m ∨ y.n.toNat = m
    · rw [adopted_parent_child h]
      exact iff_of_true hidx h
    · rw [adopted_parent_other h]
      refine iff_of_false (fun e => ?_) h
      rcases F.parents m hm omd homd with hp | ⟨r, hr, rfl⟩
      · omega
      · rw [F.parent_of_queued hr homd] at e
        omega
  · obtain ⟨od, hod, rfl⟩ := mergeStep_old_record hi hnd
    obtain rfl := F.new_record hq hmd
    simp only [adopted_zero, adopted_one]
    rcases F.child_lt_or_nil hi hod with ⟨hz, ho⟩ | h
    · rw [hz, ho]
      omega
    · have := h.zero_lt
      have := h.one_lt
      omega
  · obtain rfl := F.new_record hq hnd
    obtain rfl := F.new_record hq hmd
    have := F.first_lt hq
    have := F.second_lt hq
    simp only
    omega

theorem queued_merge {e : QEntry} (he : e ∈ (mergeStep x y q2 b).q) : e.n.toNat < b.n + 1 ∧
    ∃ nd ∈ (mergeStep x y q2 b).node[e.n.toNat]?, nd.w = e.w ∧ nd.parent = Config.nil := by
  rw [mergeStep_q, List.mem_append, List.mem_singleton] at he
  rcases he with he | rfl
  · obtain ⟨hlt, nd, hnd, hw, hp⟩ := F.queued e (hq.mem_iff.mpr (by simp [he]))
    refine ⟨by omega, nd.adopted x y (BitVec.ofNat 9 b.n) e.n.toNat, ?_, hw, ?_⟩
    · rw [mergeStep_node_old x y q2 b hlt.ne, Option.mem_def.mp hnd]
      rfl
    · rw [adopted_parent_other ((F.queue_distinct hq).2.1 e he), hp]
  · simp only [F.newIdx_toNat hq]
    exact ⟨by omega, _, mergeStep_node_new q2 (F.room hq) (F.first_lt hq) (F.second_lt hq), rfl, rfl⟩

theorem distinct_merge : ((mergeStep x y q2 b).q.map QEntry.n).Nodup := by
  rw [mergeStep_q, List.map_append, List.map_singleton, ← List.concat_eq_append, List.nodup_concat]
  refine ⟨fun h => ?_, (F.queue_distinct hq).2.2⟩
  obtain ⟨e, he, hen⟩ := List.mem_map.mp h
  have hlt := (F.queued e (hq.mem_iff.mpr (by simp [he]))).1
  rw [hen, F.newIdx_toNat hq] at hlt
  exact absurd hlt (lt_irrefl _)

theorem parents_merge {m : Nat} (hm : m < b.n + 1) {md : Node} (hmd : md ∈ (mergeStep x y q2 b).node[m]?) :
    md.parent.toNat < b.n + 1 ∨ ∃ e ∈ (mergeStep x y q2 b).q, e.n.toNat = m := by
  rw [mergeStep_q]
  rcases Nat.lt_succ_iff_lt_or_eq.mp hm with hm | rfl
  · obtain ⟨od, hod, rfl⟩ := mergeStep_old_record hm hmd
    by_cases h : x.n.toNat = m ∨ y.n.toNat = m
    · rw [adopted_parent_child h, F.newIdx_toNat hq]
      exact .inl (Nat.lt_succ_self _)
    · rw [adopted_parent_other h]
      exact (F.parents_of_other hq hm h hod).imp (Nat.lt_succ_of_lt) fun ⟨e, he, hem⟩ =>
        ⟨e, List.mem_append_left _ he, hem⟩
  · exact .inr ⟨_, List.mem_append_right _ (List.mem_singleton_self _), F.newIdx_toNat hq⟩

/-- A merge makes a forest of a forest, with one root less (R145). -/
theorem merge : Forest c (mergeStep x y q2 b) where
  size := by
    have hs := F.size
    rw [hq.length_eq] at hs
    simp only [List.length_cons] at hs
    simp only [mergeStep_n, mergeStep_q, List.length_append, List.length_singleton]
    omega
  someRoot := by simp
  leavesFirst := F.leavesFirst.trans (Nat.le_succ _)
  leaf i h := by
    obtain ⟨p, hp⟩ := F.leaf i h
    rw [mergeStep_node_old x y q2 b (h.trans_le F.leavesFirst).ne, hp]
    exact ⟨_, rfl⟩
  inner _ hL hi _ hnd := F.inner_merge hq hL hi hnd
  links _ hi _ hm _ hnd _ hmd := F.links_merge hq hi hm hnd hmd
  queued _ he := F.queued_merge hq he
  distinct := F.distinct_merge hq
  parents _ hm _ hmd := F.parents_merge hq hm hmd
  weights := by
    obtain ⟨h1, h2⟩ := F.weight_add hq
    rw [mergeStep_q, List.map_append, List.sum_append, List.map_singleton, List.sum_singleton, h1]
    omega
  above i hi := by
    have hlt : b.n < i := hi
    have := F.first_lt hq
    have := F.second_lt hq
    rw [mergeStep_node_old x y q2 b hlt.ne', F.above i hlt.le]
    cases c.node[i]? with
    | none => rfl
    | some nd =>
      have : ¬ (x.n.toNat = i ∨ y.n.toNat = i) := by omega
      simp [Node.adopted, this]

end

end Forest

/-! ## The forest of the load phase -/

/-- The counts of the present symbols are the whole sum of the table (R23). -/
theorem sumOver_present (c : CoreState) : c.sumOver c.present = c.tableSum := by
  have key (l : List Symbol) : c.sumOver (l.filter fun s => decide (c.count s ≠ 0#16)) = c.sumOver l := by
    induction l with
    | nil => rfl
    | cons s l ih => by_cases h : c.count s = 0#16 <;> simpa [h] using ih
  exact key allSymbols

/-- Before the first merge every leaf is a tree of its own (R142). -/
theorem forest_loaded (c : CoreState) (hp : c.present ≠ []) : Forest c c.loaded := by
  have h := loaded_loadedAs c
  have hle := present_length_le c
  have hnil := nil_toNat
  have idx {i : Nat} (hi : i < c.present.length) : (BitVec.ofNat 9 i).toNat = i := idx_toNat (by omega)
  have record {i : Nat} (hi : i < c.loaded.n) {nd : Node} (hnd : nd ∈ c.loaded.node[i]?) :
      ∃ s, nd = c.leafRecord s := by
    rw [h.count] at hi
    exact ⟨_, (Option.some.inj ((h.nodes i hi).symm.trans hnd)).symm⟩
  exact {
    size := by rw [h.queue, h.count, List.length_mapIdx]; omega
    someRoot := by rw [h.queue]; simpa using hp
    leavesFirst := h.count.ge
    leaf := fun i hi => ⟨_, h.nodes i hi⟩
    inner := fun i hL hi => by rw [h.count] at hi; omega
    links := fun i hi m hm nd hnd md hmd => by
      obtain ⟨s, rfl⟩ := record hi hnd
      obtain ⟨r, rfl⟩ := record hm hmd
      rw [h.count] at hi hm
      simp only [CoreState.leafRecord]
      omega
    queued := fun e he => by
      rw [h.queue, List.mem_mapIdx] at he
      obtain ⟨i, hi, rfl⟩ := he
      simp only [idx hi]
      exact ⟨by rw [h.count]; exact hi, _, h.nodes i hi, rfl, rfl⟩
    distinct := by
      rw [h.queue, List.Nodup, List.pairwise_iff_getElem]
      intro i j hi hj hij e
      simp only [List.length_map, List.length_mapIdx] at hi hj
      simp only [List.getElem_map, List.getElem_mapIdx] at e
      have hval := congrArg BitVec.toNat e
      rw [idx hi, idx hj] at hval
      omega
    parents := fun m hm _ _ => by
      rw [h.count] at hm
      exact .inr ⟨_, by rw [h.queue]; exact List.mem_mapIdx.mpr ⟨m, hm, rfl⟩, idx hm⟩
    weights := by
      rw [h.queue, ← sumOver_present, CoreState.sumOver]
      congr 1
      exact List.ext_getElem (by simp) fun i _ _ => by simp [zext24_count_toNat]
    above := fun i hi => by rw [h.count] at hi; exact h.above i hi }

/-- What BUILD holds after the merge phase. -/
def CoreState.merged (c : CoreState) : BuildState := mergePhase c.loaded.q.length c.loaded

/-- After the merge phase the forest is one tree (R145). -/
theorem forest_merged (c : CoreState) (hp : c.present ≠ []) : Forest c c.merged ∧ ∃ e, c.merged.q = [e] := by
  have F : Forest c c.merged := mergePhase_keeps
    (fun _ _ _ _ _ h hx hy => h.merge ((extractMin_perm hx).trans ((extractMin_perm hy).cons _)))
    _ (forest_loaded c hp)
  have hle : c.merged.q.length ≤ 1 := mergePhase_q_length (Nat.le_refl _)
  exact ⟨F, List.length_eq_one_iff.mp (Nat.le_antisymm hle (List.length_pos_of_ne_nil F.someRoot))⟩

end Sys2Proof.Machine
end

section
/-! The tree BUILD leaves (41_build.md R140, R141, R145, R146; 10_state.md R30, R35). -/

namespace Sys2Proof.Machine

open Sys2Proof

/-! ## The leaf table -/

/-- The leaf table of a BUILD: the place of the symbol among those with a non-zero count, or NIL (R34, R142). -/
structure LeafTable (c d : CoreState) : Prop where
  leaf : ∀ (i : Nat) (h : i < c.present.length), d.leafOf c.present[i] = BitVec.ofNat 9 i
  noLeaf : ∀ s, c.count s = 0#16 → d.leafOf s = Config.nil

theorem loaded_leafTable (c : CoreState) {d : CoreState} (hd : d.leaf = c.loaded.leaf) : LeafTable c d := by
  have h := loaded_loadedAs c
  have read (s : Symbol) : some (d.leafOf s) = c.loaded.leaf[s.toNat]? := by
    rw [← hd]
    exact (Vector.getElem?_eq_getElem s.isLt).symm
  constructor
  · intro i hi
    exact Option.some.inj ((read _).trans (h.leaf i hi))
  · intro s hs
    exact Option.some.inj ((read s).trans (h.noLeaf s (by simpa using hs)))

namespace LeafTable

variable {c d : CoreState} (T : LeafTable c d)
include T

theorem leaf_toNat {i : Nat} (hi : i < c.present.length) : (d.leafOf c.present[i]).toNat = i := by
  have := present_length_le c
  rw [T.leaf i hi]
  exact idx_toNat (by omega)

theorem leaf_ne_nil_iff (s : Symbol) : d.leafOf s ≠ Config.nil ↔ c.count s ≠ 0#16 := by
  refine ⟨fun h hs => h (T.noLeaf s hs), fun hs h => ?_⟩
  obtain ⟨i, hi, rfl⟩ := List.getElem_of_mem (mem_present.mpr hs)
  have hidx := T.leaf_toNat hi
  rw [h] at hidx
  have hle := present_length_le c
  have hnil := nil_toNat
  omega

/-- A symbol with a leaf is one of the present symbols, and its leaf is its place among them. -/
theorem exists_place {s : Symbol} (h : d.leafOf s ≠ Config.nil) :
    ∃ (i : Nat) (hi : i < c.present.length), c.present[i] = s ∧ (d.leafOf s).toNat = i := by
  obtain ⟨i, hi, rfl⟩ := List.getElem_of_mem (mem_present.mpr ((T.leaf_ne_nil_iff s).mp h))
  exact ⟨i, hi, rfl, T.leaf_toNat hi⟩

end LeafTable

/-! ## One tree -/

/-- A forest with one root is one tree: its root is the node made last, and the weight there is the table's (R145). -/
theorem Forest.last_root {c : CoreState} {b : BuildState} (F : Forest c b) {e : QEntry} (he : b.q = [e]) :
    e.n.toNat + 1 = b.n ∧ e.w.toNat = c.tableSum := by
  have hsum := F.weights
  rw [he, List.map_singleton, List.sum_singleton] at hsum
  refine ⟨?_, hsum⟩
  obtain ⟨hlt, -⟩ := F.queued e (by simp [he])
  have hn := F.n_lt
  have hsize := F.size
  rw [he, List.length_singleton] at hsize
  have hread {i : Nat} (hi : i < b.n) : ∃ nd, nd ∈ b.node[i]? :=
    ⟨_, Vector.getElem?_eq_getElem (by omega)⟩
  obtain ⟨last, hlast⟩ := hread (i := b.n - 1) (by omega)
  rcases F.parents _ (by omega) last hlast with hp | ⟨e', he', hn'⟩
  · obtain ⟨pd, hpd⟩ := hread hp
    have hchild := (F.links _ hp (b.n - 1) (by omega) pd hpd last hlast).mp rfl
    have hnil := nil_toNat
    rcases F.child_lt_or_nil hp hpd with ⟨hz, ho⟩ | h
    · rw [hz, ho] at hchild
      omega
    · have := h.zero_lt
      have := h.one_lt
      omega
  · rw [he, List.mem_singleton] at he'
    subst he'
    omega

/-- The forest of one root, read as the tree of a core, has every property of R35. -/
theorem Forest.treeOk {c d : CoreState} {b : BuildState} {e : QEntry} (F : Forest c b) (he : b.q = [e])
    (T : LeafTable c d) (hfreq : d.freq = c.freq) (htotal : d.total.toNat = c.tableSum) (hnode : d.node = b.node)
    (hnleaf : d.nleaf.toNat = c.present.length) (hnnodes : d.nnodes.toNat = b.n) (hroot : d.root = e.n) : TreeOk d := by
  obtain ⟨hlast, hweight⟩ := F.last_root he
  have hsize := F.size
  rw [he, List.length_singleton] at hsize
  have hL := present_length_le c
  have hnil := nil_toNat
  have hcount (s : Symbol) : d.count s = c.count s := count_congr hfreq s
  have hnz : d.nleaf ≠ 0#9 := fun h => by rw [h] at hnleaf; simp at hnleaf; omega
  have leafRec {i : Nat} (hi : i < c.present.length) {nd : Node} (hnd : nd ∈ d.node[i]?) :
      ∃ p, nd = { c.leafRecord c.present[i] with parent := p } := by
    obtain ⟨p, hp⟩ := F.leaf i hi
    rw [hnode, Option.mem_def, hp] at hnd
    exact ⟨p, (Option.some.inj hnd).symm⟩
  have inner {n : Nat} (hn : n < d.nnodes.toNat) {nd : Node} (hnd : nd ∈ d.node[n]?) (hz : nd.zero ≠ Config.nil) :
      InnerNode b.node n nd := by
    rw [hnnodes] at hn
    rw [hnode] at hnd
    exact (F.child_lt_or_nil hn hnd).resolve_left fun h => hz h.1
  have rootRec {nd : Node} (hnd : nd ∈ d.nodeAt d.root) : nd.parent = Config.nil ∧ nd.w = e.w := by
    obtain ⟨-, rd, hrd, hw, hp⟩ := F.queued e (by simp [he])
    rw [CoreState.nodeAt, hroot, hnode] at hnd
    obtain rfl := Option.some.inj (hnd.symm.trans hrd)
    exact ⟨hp, hw⟩
  exact {
    sizes := .inr ⟨by omega, by omega, by omega, by rw [hroot]; omega⟩
    fullTree := fun n hn nd hnd => by
      rw [hnnodes] at hn
      rw [hnode] at hnd
      rcases F.child_lt_or_nil hn hnd with ⟨hz, ho⟩ | h
      · exact iff_of_true hz ho
      · have hz := h.zero_lt
        have ho := h.one_lt
        refine iff_of_false (fun e => ?_) fun e => ?_
        · rw [e] at hz; omega
        · rw [e] at ho; omega
    leafIff := fun s => by rw [hcount, T.leaf_ne_nil_iff]
    leafNode := fun s hs => by
      obtain ⟨i, hi, rfl, hidx⟩ := T.exists_place hs
      obtain ⟨p, hp⟩ := F.leaf i hi
      refine ⟨by omega, _, by rw [CoreState.nodeAt, hidx, hnode]; exact hp, rfl, rfl, ?_⟩
      rw [hcount]
      rfl
    weightSum := fun n hn nd hnd hz => by
      simp only [CoreState.nodeAt, hnode]
      exact (inner hn hnd hz).weight
    leaves := fun n hn nd hnd => by
      rw [hnleaf] at hn
      obtain ⟨p, rfl⟩ := leafRec hn hnd
      exact ⟨rfl, _, rfl, T.leaf_toNat hn⟩
    leavesAscend := fun n hn m hm nd hnd md hmd hmn => by
      rw [hnleaf] at hn hm
      obtain ⟨p, rfl⟩ := leafRec hn hnd
      obtain ⟨q, rfl⟩ := leafRec hm hmd
      exact ⟨_, rfl, _, rfl, present_lt hm hn hmn⟩
    internals := fun _ n hn hln nd hnd => by
      rw [hnnodes] at hn
      rw [hnleaf] at hln
      rw [hnode] at hnd
      have h := F.inner n hln hn nd hnd
      refine ⟨fun e => ?_, h.sym⟩
      have hz := h.zero_lt
      rw [e] at hz
      omega
    childBelow := fun n hn nd hnd hz =>
      have h := inner hn hnd hz
      ⟨h.zero_lt, h.one_lt, h.ne⟩
    parentLinks := by rw [hnnodes, hnode]; exact F.links
    rootParent := fun nd hnd => (rootRec hnd).1
    otherParents := fun n hn hne nd hnd => by
      rw [hnnodes] at hn ⊢
      rw [hnode] at hnd
      refine (F.parents n hn nd hnd).resolve_right fun ⟨r, hr, hrn⟩ => hne ?_
      rw [he, List.mem_singleton] at hr
      rw [hroot, ← hr, hrn]
    rootWeight := fun _ nd hnd => BitVec.eq_of_toNat_eq (by rw [(rootRec hnd).2, hweight, htotal])
    placeholder := fun h => absurd h hnz }

/-- The placeholder root of an all-zero table has every property of R35 (R35 (i), R146). -/
theorem treeOk_placeholder {c d : CoreState} (hp : c.present = []) (T : LeafTable c d) (hfreq : d.freq = c.freq)
    (hnode : d.node[0]? = some placeholderRoot) (hnleaf : d.nleaf = 0#9) (hnnodes : d.nnodes = 1#9)
    (hroot : d.root = 0#9) : TreeOk d := by
  have hzero (s : Symbol) : c.count s = 0#16 := by
    by_contra h
    exact List.not_mem_nil (hp ▸ mem_present.mpr h)
  have hleaf (s : Symbol) : d.leafOf s = Config.nil := T.noLeaf s (hzero s)
  have only {n : Nat} (hn : n < d.nnodes.toNat) {nd : Node} (hnd : nd ∈ d.node[n]?) : n = 0 ∧ nd = placeholderRoot := by
    rw [hnnodes] at hn
    obtain rfl : n = 0 := Nat.lt_one_iff.mp hn
    exact ⟨rfl, (Option.some.inj (hnode.symm.trans hnd)).symm⟩
  have noLeaves {n : Nat} (hn : n < d.nleaf.toNat) : False := by
    rw [hnleaf] at hn
    exact absurd hn (Nat.not_lt_zero n)
  have h1 : (0 : Nat) < d.nnodes.toNat := by rw [hnnodes]; decide
  exact {
    sizes := .inl ⟨hnleaf, hnnodes, hroot⟩
    fullTree := fun n hn nd hnd => by rw [(only hn hnd).2]; decide
    leafIff := fun s => by rw [T.leaf_ne_nil_iff, count_congr hfreq]
    leafNode := fun s hs => absurd (hleaf s) hs
    weightSum := fun n hn nd hnd hz => absurd (by rw [(only hn hnd).2]; rfl) hz
    leaves := fun n hn => (noLeaves hn).elim
    leavesAscend := fun n hn => (noLeaves hn).elim
    internals := fun hn => (noLeaves hn).elim
    childBelow := fun n hn nd hnd hz => absurd (by rw [(only hn hnd).2]; rfl) hz
    parentLinks := fun n hn m hm nd hnd md hmd => by
      obtain ⟨rfl, rfl⟩ := only hn hnd
      obtain ⟨rfl, rfl⟩ := only hm hmd
      decide
    rootParent := fun nd hnd => by
      rw [CoreState.nodeAt, hroot] at hnd
      rw [(only h1 hnd).2]
      rfl
    otherParents := fun n hn hne nd hnd => absurd (by rw [hroot, (only hn hnd).1]; rfl) hne
    rootWeight := fun hn => (noLeaves hn).elim
    placeholder := fun _ => ⟨hnode, hleaf⟩ }

/-! ## BUILD -/

/-- BUILD on an all-zero table (R146). -/
theorem built_of_empty {c : CoreState} (hp : c.present = []) : c.built =
    { c with node := c.node.set 0 placeholderRoot, leaf := c.loaded.leaf, nleaf := 0#9, nnodes := 1#9, root := 0#9,
             tv := true } := by
  have h := loaded_loadedAs c
  have hn : c.loaded.n = 0 := by rw [h.count, hp]; rfl
  have hnode : c.loaded.node = c.node :=
    Vector.ext fun i hi => by
      simpa [hi] using h.above i (by rw [hp]; exact Nat.zero_le i)
  simp only [CoreState.built, hn, if_true, hnode]

/-- BUILD on a table that is not all zero: the one tree of the merge phase, the element left in Q its root (R141). -/
theorem built_of_present {c : CoreState} {e : QEntry} (hp : c.present ≠ []) (he : c.merged.q = [e]) : c.built =
    { c with node := c.merged.node, leaf := c.loaded.leaf, nleaf := BitVec.ofNat 9 c.present.length,
             nnodes := BitVec.ofNat 9 c.merged.n, root := e.n, tv := true } := by
  have hpos := List.length_pos_of_ne_nil hp
  have hleaf : c.merged.leaf = c.loaded.leaf := mergePhase_leaf _ _
  rw [← hleaf]
  simp only [CoreState.merged] at he ⊢
  simp only [CoreState.built, loaded_n, if_neg hpos.ne', he]
  rfl

/-- What BUILD writes: the tree's memories and registers, and TV (R140). -/
theorem built_frame (c : CoreState) : c.built =
    { c with node := c.built.node, leaf := c.built.leaf, nleaf := c.built.nleaf, nnodes := c.built.nnodes,
             root := c.built.root, tv := true } := by
  by_cases hp : c.present = []
  · rw [built_of_empty hp]
  · obtain ⟨e, he⟩ := (forest_merged c hp).2
    rw [built_of_present hp he]

/-- The tree of a BUILD has every property of R35; the premise is R23. -/
theorem built_treeOk {c : CoreState} (htotal : c.total.toNat = c.tableSum) : TreeOk c.built := by
  by_cases hp : c.present = []
  · have h := built_of_empty hp
    exact treeOk_placeholder hp (loaded_leafTable c (by rw [h])) (by rw [h]) (by rw [h]; simp) (by rw [h]) (by rw [h])
      (by rw [h])
  · obtain ⟨F, e, he⟩ := forest_merged c hp
    have h := built_of_present hp he
    have hL := present_length_le c
    exact F.treeOk he (loaded_leafTable c (by rw [h])) (by rw [h]) (by rw [h]; exact htotal) (by rw [h])
      (by rw [h]; exact idx_toNat (by omega)) (by rw [h]; exact idx_toNat F.n_lt) (by rw [h])

/-- NLEAF after BUILD is the number of symbols with a non-zero count (R30). -/
theorem built_nleaf (c : CoreState) : c.built.nleaf.toNat = c.presentSymbols := by
  rw [← present_length]
  by_cases hp : c.present = []
  · rw [built_of_empty hp, hp]
    rfl
  · obtain ⟨e, he⟩ := (forest_merged c hp).2
    have hL := present_length_le c
    rw [built_of_present hp he]
    exact idx_toNat (by omega)

/-- BUILD writes no node from NNODES on (R140). -/
theorem built_node_above (c : CoreState) {n : Nat} (hn : c.built.nnodes.toNat ≤ n) :
    c.built.node[n]? = c.node[n]? := by
  by_cases hp : c.present = []
  · rw [built_of_empty hp] at hn ⊢
    have hne : 0 ≠ n := (Nat.lt_of_lt_of_le Nat.zero_lt_one hn).ne
    exact Vector.getElem?_set_ne (by decide) hne
  · obtain ⟨F, e, he⟩ := forest_merged c hp
    rw [built_of_present hp he] at hn ⊢
    exact F.above n ((idx_toNat F.n_lt).ge.trans hn)

/-- BUILD completes whenever TI = 1 (R141). -/
theorem exec_build {s : State} (hf : s.core.fault = false) (hi : s.core.ti = true) :
    exec .build s = .next (State.answering (zext24 s.core.built.nleaf) { s with core := s.core.built }) := by
  rw [exec_eq_runBody, runBody_of_noFault _ _ hf, bodyOf, buildBody, hi, require_true, finish_done]

/-- Settles O9: the forest that every merge keeps ends as one tree. -/
theorem buildMakesAValidTree : Obligations.BuildMakesAValidTree := by
  refine ⟨by decide, fun s hf hi htotal => ?_⟩
  have hframe := built_frame s.core
  refine ⟨s.core.built.node, s.core.built.leaf, s.core.built.nleaf, s.core.built.nnodes, s.core.built.root, ?_,
    built_nleaf s.core, fun n => built_node_above s.core, ?_⟩
  · rw [← hframe]
    exact built_treeOk htotal
  · rw [← hframe]
    exact exec_build hf hi

end Sys2Proof.Machine
end

section
/-! The registers after a reset (10_state.md R41), what a faulted core does with a word (R27, 60_exceptions.md R233,
R239), and what no command but BUILD and the reset writes (R26, R30). -/

namespace Sys2Proof

/-- The two branches of a conditional whose value is known. -/
theorem of_ite_eq {α : Type} {p : Prop} [Decidable p] {a b x : α} {goal : Prop} (h : (if p then a else b) = x)
    (hpos : p → a = x → goal) (hneg : b = x → goal) : goal := by
  by_cases hp : p
  · exact hpos hp ((if_pos hp).symm.trans h)
  · exact hneg ((if_neg hp).symm.trans h)

/-- What a pair of fields that decodes is: the two fields of a well-formed command (R93). -/
theorem decodeFields_eq_ok {op arg : Byte} {i : Instr} (h : decodeFields op arg = .ok i) :
    i.WellFormed ∧ i.op = op ∧ i.arg = arg := by
  have formatN {j : Instr} (hj : decodeN op arg j = .ok i) (hw : j.WellFormed) (ho : j.op = op)
      (ha : j.arg = 0x00#8) : i.WellFormed ∧ i.op = op ∧ i.arg = arg := by
    obtain ⟨rfl, rfl⟩ := decodeN_eq_ok hj
    exact ⟨hw, ho, ha⟩
  have formatS {j : Instr} (hj : (.ok j : Except Reject Instr) = .ok i) (hw : j.WellFormed) (ho : j.op = op)
      (ha : j.arg = arg) : i.WellFormed ∧ i.op = op ∧ i.arg = arg := by
    injection hj with hj
    subst hj
    exact ⟨hw, ho, ha⟩
  have formatR (hj : decodeR arg = .ok i) (ho : 0xF0#8 = op) : i.WellFormed ∧ i.op = op ∧ i.arg = arg := by
    obtain ⟨hr, rfl⟩ := decodeR_eq_ok hj
    exact ⟨decide_eq_true hr, ho, rfl⟩
  refine of_ite_eq h (fun e h => formatN h rfl e.symm rfl) fun h => ?_
  refine of_ite_eq h (fun e h => formatN h rfl e.symm rfl) fun h => ?_
  refine of_ite_eq h (fun e h => formatS h rfl e.symm rfl) fun h => ?_
  refine of_ite_eq h (fun e h => formatS h rfl e.symm rfl) fun h => ?_
  refine of_ite_eq h (fun e h => formatN h rfl e.symm rfl) fun h => ?_
  refine of_ite_eq h (fun e h => formatS h rfl e.symm rfl) fun h => ?_
  refine of_ite_eq h (fun e h => formatN h rfl e.symm rfl) fun h => ?_
  refine of_ite_eq h (fun e h => formatN h rfl e.symm rfl) fun h => ?_
  refine of_ite_eq h (fun e h => formatN h rfl e.symm rfl) fun h => ?_
  refine of_ite_eq h (fun e h => formatR h e.symm) fun h => ?_
  refine of_ite_eq h (fun e h => formatN h rfl e.symm rfl) fun h => ?_
  cases h

/-- A legal word is the encoding of the well-formed command it decodes to (R93). -/
theorem encode_of_decode {c : CmdWord} {i : Instr} (h : decode c = .ok i) : i.WellFormed ∧ encode i = c := by
  obtain ⟨hw, ho, ha⟩ := decodeFields_eq_ok h
  refine ⟨hw, ?_⟩
  rw [encode, ho, ha]
  exact fields_append c

namespace Machine

/-! ## Reset -/

/-- The FAULT gate lets the three system commands pass in every state (R231). -/
theorem gateCloses_system {i : Instr} (c : CoreState) (h : i.op = 0x00#8 ∨ i.op = 0xF0#8 ∨ i.op = 0xFF#8) :
    gateCloses (encode i) c = false := by
  rcases h with h | h | h <;> simp [gateCloses, h]

/-- SRST answers 0 in the reset state, with FAULT set or not (R193). -/
theorem exec_srst (s : State) : exec .srst s = .next ((resetCore s).answering 0#24) := by
  rw [exec_eq_runBody, runBody_open _ _ (gateCloses_system s.core (.inr (.inr rfl)))]
  rfl

/-- NOP answers 0 and changes nothing, with FAULT set or not (R191). -/
theorem exec_nop (s : State) : exec .nop s = .next (s.answering 0#24) := by
  rw [exec_eq_runBody, runBody_open _ _ (gateCloses_system s.core (.inl rfl))]
  rfl

/-- Settles O1: both resets put `coreAfterReset` in the core. -/
theorem resetGivesRegistersTheirValues : Obligations.ResetGivesRegistersTheirValues := by
  refine ⟨by decide, fun s rest => ⟨⟨_, rfl, coreAfterReset_registers s.resets⟩, ?_⟩⟩
  exact ⟨_, exec_srst s, coreAfterReset_registers s.resets⟩

/-! ## The faulted core -/

/-- `t` is `s` with one response more. -/
abbrev OnlyAnswered (s t : State) : Prop := ∃ r, t = { s with responses := s.responses ++ [r] }

/-- With FAULT = 1 a fault raised is an answer and no more (R239). -/
theorem finish_raised_faulted (w : CmdWord) (e : Code) {s : State} (h : s.core.fault = true) :
    finish w (.raised e s) = .next (s.declining e.bits) := by
  rw [finish_raised, raise_of_fault w e h]

/-- With FAULT = 1 an illegal word is answered and no more (R233, R239). -/
theorem illegal_faulted {s : State} (w : CmdWord) (h : s.core.fault = true) :
    ∃ t, runBody w illegalBody s = .next t ∧ OnlyAnswered s t := by
  cases hg : gateCloses w s.core with
  | true => exact ⟨_, runBody_closed w _ hg, _, rfl⟩
  | false => exact ⟨_, (runBody_open w _ hg).trans (finish_raised_faulted w .illegal h), _, rfl⟩

/-- With FAULT = 1 the gate is closed to every command but the system ones (R233). -/
theorem exec_closed {i : Instr} {s : State} (h : s.core.fault = true)
    (hop : (i.op == 0x00#8 || i.op == 0xF0#8 || i.op == 0xFF#8) = false) : exec i s = .next (s.declining 0x02#8) := by
  rw [exec_eq_runBody]
  refine runBody_closed _ _ ?_
  rw [gateCloses_of_fault _ h, opField_encode, hop]
  rfl

/-- With FAULT = 1 every command but SRST is answered and no more (R233, R239). -/
theorem exec_faulted {i : Instr} {s : State} (h : s.core.fault = true) (hi : i ≠ .srst) :
    ∃ t, exec i s = .next t ∧ OnlyAnswered s t := by
  cases i with
  | nop => exact ⟨_, exec_nop s, _, rfl⟩
  | rdsr r =>
    rw [exec_eq_runBody, runBody_open _ _ (gateCloses_system s.core (.inr (.inl rfl)))]
    simp only [bodyOf, rdsrBody, illegalBody]
    split
    · exact ⟨_, rfl, _, rfl⟩
    · exact ⟨_, finish_raised_faulted _ .illegal h, _, rfl⟩
  | srst => exact absurd rfl hi
  | fclr => exact ⟨_, exec_closed h rfl, _, rfl⟩
  | finc x => exact ⟨_, exec_closed h rfl, _, rfl⟩
  | frd x => exact ⟨_, exec_closed h rfl, _, rfl⟩
  | build => exact ⟨_, exec_closed h rfl, _, rfl⟩
  | enc x => exact ⟨_, exec_closed h rfl, _, rfl⟩
  | dec => exact ⟨_, exec_closed h rfl, _, rfl⟩
  | hser => exact ⟨_, exec_closed h rfl, _, rfl⟩
  | hdes => exact ⟨_, exec_closed h rfl, _, rfl⟩

/-- R231: a word that does not decode is the illegal case behind the FAULT gate. -/
theorem handle_of_illegal {c : CmdWord} {r : Reject} (h : decode c = .error r) (s : State) :
    handle c s = runBody c illegalBody s := by
  simp only [handle, h]

/-- Settles O38: a word is illegal or a command, and 0xFF00 alone is SRST. -/
theorem firstFaultIsKept : Obligations.FirstFaultIsKept := by
  intro s c rest hf hc
  suffices h : ∃ t, handle c { s with inbox := rest } = .next t ∧ OnlyAnswered { s with inbox := rest } t by
    obtain ⟨t, ht, r, rfl⟩ := h
    exact ⟨_, ht, rfl, rfl, rfl, rfl, r, rfl⟩
  cases hd : decode c with
  | error r =>
    rw [handle_of_illegal hd]
    exact illegal_faulted c hf
  | ok i =>
    rw [handle_of_decode hd]
    refine exec_faulted hf fun hi => hc ?_
    rw [← (encode_of_decode hd).2, hi]
    decide

/-! ## What a command writes in the core -/

/-- The core after a command that answers: as it was, or as the body left it, with or without a fault entry. -/
theorem exec_next_core {i : Instr} {s t : State} (h : exec i s = .next t) :
    t.core = s.core ∨ ∃ u, BodyEnd i s u ∧ (t.core = u.core ∨ ∃ e, t.core = u.core.faultEntry (encode i) e) := by
  rcases exec_next h with ⟨-, rfl⟩ | ⟨-, v, u, -, hu, rfl⟩ | ⟨-, e, u, -, -, hu, rfl⟩
  · exact .inl rfl
  · exact .inr ⟨u, hu, .inl rfl⟩
  · exact .inr ⟨u, hu, .inr ⟨e, rfl⟩⟩

/-- The cores agree on the tree and its registers (R30, R32, R34). -/
structure SameTree (c d : CoreState) : Prop where
  node : d.node = c.node
  leaf : d.leaf = c.leaf
  nleaf : d.nleaf = c.nleaf
  nnodes : d.nnodes = c.nnodes
  root : d.root = c.root

theorem SameTree.refl (c : CoreState) : SameTree c c := ⟨rfl, rfl, rfl, rfl, rfl⟩

theorem SameTree.trans {c d e : CoreState} (h : SameTree c d) (k : SameTree d e) : SameTree c e :=
  ⟨k.node.trans h.node, k.leaf.trans h.leaf, k.nleaf.trans h.nleaf, k.nnodes.trans h.nnodes, k.root.trans h.root⟩

theorem faultEntry_sameTree (c : CoreState) (w : CmdWord) (e : Code) : SameTree c (c.faultEntry w e) := by
  constructor <;> simp

/-- No body but those of BUILD and SRST writes the tree. -/
theorem BodyEnd.sameTree {i : Instr} {s u : State} (h : BodyEnd i s u) (hb : i ≠ .build) (hs : i ≠ .srst) :
    SameTree s.core u.core := by
  cases i with
  | nop => exact h ▸ .refl _
  | fclr => exact h ▸ ⟨rfl, rfl, rfl, rfl, rfl⟩
  | finc x => rcases h with rfl | rfl <;> exact ⟨rfl, rfl, rfl, rfl, rfl⟩
  | frd x => exact h ▸ .refl _
  | build => exact absurd rfl hb
  | enc x => rw [h.rest]; exact .refl _
  | dec => rw [h.rest]; exact .refl _
  | hser => rw [h.rest]; exact .refl _
  | hdes => obtain ⟨⟨ti, h⟩, -⟩ := h; rw [h]; exact ⟨rfl, rfl, rfl, rfl, rfl⟩
  | rdsr r => exact h ▸ .refl _
  | srst => exact absurd rfl hs

/-- Settles O42: no body but BUILD's and SRST's writes the tree, and a fault entry does not. -/
theorem onlyBuildWritesTheTree : Obligations.OnlyBuildWritesTheTree := by
  intro i s t hb hs h
  suffices hst : SameTree s.core t.core from ⟨hst.node, hst.leaf, hst.nleaf, hst.nnodes, hst.root⟩
  rcases exec_next_core h with hc | ⟨u, hu, hc | ⟨e, hc⟩⟩ <;> rw [hc]
  · exact .refl _
  · exact hu.sameTree hb hs
  · exact (hu.sameTree hb hs).trans (faultEntry_sameTree _ _ e)

/-- From core `c` to core `d`, by command `i`: the table has changed only if TV is 0 now, BUILD alone raises TV, and
FCLR and HDES alone raise TI (R25, R26, R271). -/
structure KeepsFlags (i : Instr) (c d : CoreState) : Prop where
  table : d.freq ≠ c.freq → d.tv = false
  tv : i ≠ .build → d.tv = true → c.tv = true
  ti : i ≠ .fclr → i ≠ .hdes → d.ti = true → c.ti = true

theorem KeepsFlags.refl (i : Instr) (c : CoreState) : KeepsFlags i c c :=
  ⟨fun h => absurd rfl h, fun _ h => h, fun _ _ h => h⟩

theorem KeepsFlags.faultEntry {i : Instr} {c d : CoreState} (h : KeepsFlags i c d) (w : CmdWord) (e : Code) :
    KeepsFlags i c (d.faultEntry w e) := by
  constructor <;> simp only [faultEntry_freq, faultEntry_tv, faultEntry_ti]
  · exact h.table
  · exact h.tv
  · exact h.ti

/-- A core with both flags 0 keeps the rules, however it came about. -/
theorem KeepsFlags.of_cleared {i : Instr} {c d : CoreState} (hv : d.tv = false) (hi : d.ti = false) :
    KeepsFlags i c d := by
  constructor <;> simp [hv, hi]

theorem BodyEnd.keepsFlags {i : Instr} {s u : State} (h : BodyEnd i s u) : KeepsFlags i s.core u.core := by
  cases i with
  | nop => exact h ▸ .refl _ _
  | fclr => subst h; exact ⟨fun _ => rfl, fun _ h => (nomatch h), fun hi => absurd rfl hi⟩
  | finc x =>
    rcases h with rfl | rfl
    · exact .refl _ _
    · exact ⟨fun _ => rfl, fun _ h => (nomatch h), fun _ _ h => h⟩
  | frd x => exact h ▸ .refl _ _
  | build =>
    rcases h with rfl | rfl
    · exact .refl _ _
    · have hfreq : s.core.built.freq = s.core.freq := by rw [built_frame]
      have hti : s.core.built.ti = s.core.ti := by rw [built_frame]
      exact ⟨fun h => absurd hfreq h, fun h => absurd rfl h, fun _ _ h => hti.symm.trans h⟩
  | enc x => rw [h.rest]; exact .refl _ _
  | dec => rw [h.rest]; exact .refl _ _
  | hser => rw [h.rest]; exact .refl _ _
  | hdes =>
    obtain ⟨⟨ti, h⟩, -⟩ := h
    rw [h]
    exact ⟨fun _ => rfl, fun _ h => (nomatch h), fun _ hi => absurd rfl hi⟩
  | rdsr r => exact h ▸ .refl _ _
  | srst => subst h; exact .of_cleared rfl rfl

/-- Settles O43: every body keeps the rules on the flags, and a fault entry touches none of them. -/
theorem tableWritesClearTreeValid : Obligations.TableWritesClearTreeValid := by
  intro i s t h
  suffices hk : KeepsFlags i s.core t.core from ⟨hk.table, hk.tv, hk.ti⟩
  rcases exec_next_core h with hc | ⟨u, hu, hc | ⟨e, hc⟩⟩ <;> rw [hc]
  · exact .refl _ _
  · exact hu.keepsFlags
  · exact hu.keepsFlags.faultEntry _ e

end Machine

end Sys2Proof
end

section
/-! How far the read positions can get (20_memory.md R61, R62, R64, 70_reset_and_hazards.md R262): a command takes units
that were there, and at most its last request takes none. -/

namespace Sys2Proof.Machine

open Sys2Proof

/-! ## A completed end and a raised one -/

/-- The property `P` of the state a body completes in, and `Q` of the state it raises a fault in. -/
def Result.EndsIn {α : Type} (P Q : State → Prop) : Result α → Prop
  | .done _ s => P s
  | .raised _ s => Q s
  | .stuck _ => True

theorem Result.EndsIn.bind {α β : Type} {P P' Q : State → Prop} {r : Result α} {k : α → State → Result β}
    (h : r.EndsIn P Q) (hk : ∀ a s, P s → (k a s).EndsIn P' Q) : (r.bind k).EndsIn P' Q := by
  cases r with
  | done a s => exact hk a s h
  | raised e s => exact h
  | stuck f => trivial

theorem Result.EndsIn.ends {α : Type} {P Q R : State → Prop} {r : Result α} (h : r.EndsIn P Q) (hP : ∀ s, P s → R s)
    (hQ : ∀ s, Q s → R s) : r.Ends R := by
  cases r with
  | done a s => exact hP s h
  | raised e s => exact hQ s h
  | stuck f => trivial

/-- A body that is only reached when its `require` passed. -/
theorem Result.Ends.require_of {α : Type} {P : State → Prop} {c : Bool} {e : Code} {s : State} {k : Result α}
    (hs : P s) (hk : c = true → k.Ends P) : (Machine.require c e s k).Ends P := by
  cases c with
  | false => exact hs
  | true => exact hk rfl

/-! ## A read port -/

/-- `q` is the port `p` after requests that each took one unit `p` held. -/
structure InPort.Reads {α : Type} (p q : InPort α) : Prop where
  data : q.data = p.data
  pace : q.pos + p.asked = p.pos + q.asked
  bound : q.pos ≤ q.data.length

/-- `q` is the port `p` after requests that each took one unit `p` held, the last one aside. -/
structure InPort.Stops {α : Type} (p q : InPort α) : Prop where
  pace : p.pos + q.asked ≤ p.data.length + p.asked + 1
  bound : q.pos ≤ q.data.length

theorem InPort.Reads.refl {α : Type} {p : InPort α} (h : p.pos ≤ p.data.length) : p.Reads p := ⟨rfl, rfl, h⟩

theorem InPort.Reads.stops {α : Type} {p q : InPort α} (h : p.Reads q) : p.Stops q := by
  have hb := h.bound
  have hp := h.pace
  rw [h.data] at hb
  exact ⟨by omega, h.bound⟩

theorem InPort.Stops.refl {α : Type} {p : InPort α} (h : p.pos ≤ p.data.length) : p.Stops p :=
  (InPort.Reads.refl h).stops

/-- One more request: it takes the next unit, or it is the last one (R62, R64, R67). -/
theorem InPort.Reads.read {α : Type} {p q r : InPort α} {a : Read α} {rest : Nat → List α} {move : Nat → Nat}
    (h : p.Reads q) (hr : q.read rest move = (a, r)) : p.Stops r ∧ ∀ v, a = .unit v → p.Reads r := by
  have hdata := h.data
  have hpace := h.pace
  have hbound := h.bound
  constructor
  · have hasked := (InPort.read_frame rest move q).2
    have hend := InPort.read_bound rest move hbound
    rw [hr] at hasked hend
    rw [hdata] at hbound
    exact ⟨by simp only at hasked; omega, hend⟩
  · rintro v rfl
    unfold InPort.read at hr
    split at hr
    · cases hr
    · split at hr <;> cases hr
      rename_i hv
      have hlt := (List.getElem?_eq_some_iff.mp hv).1
      exact ⟨hdata, by simp only; omega, hlt⟩

/-- A cut read position is within its stream: the requests that stay made took units that were there (R262). -/
theorem InPort.cut_bound {α : Type} (k : Nat) {p q : InPort α} (h : p.Stops q) :
    (p.cut k q).pos ≤ (p.cut k q).data.length := by
  have hpace := h.pace
  by_cases hk : p.asked + k < q.asked
  · rw [InPort.cut_units hk]
    simp only
    omega
  · rw [InPort.cut_whole (Nat.le_of_not_lt hk)]
    exact h.bound

/-! ## The two loops that read -/

theorem bitIn_reads {p : InPort Bool} {s : State} (h : p.Reads s.ports.bin) :
    (bitIn s).EndsIn (fun u => p.Reads u.ports.bin) fun u => p.Stops u.ports.bin := by
  unfold bitIn
  split <;> rename_i hq
  · exact (h.read hq).2 _ rfl
  · exact (h.read hq).1
  · exact (h.read hq).1

theorem byteIn_reads {p : InPort Byte} {s : State} (h : p.Reads s.ports.hin) :
    (byteIn s).EndsIn (fun u => p.Reads u.ports.hin) fun u => p.Stops u.ports.hin := by
  unfold byteIn
  split <;> rename_i hq
  · exact (h.read hq).2 _ rfl
  · exact (h.read hq).1
  · exact (h.read hq).1

theorem walkDown_reads {p : InPort Bool} (fuel : Nat) (n : NodeIdx) {s : State} (h : p.Reads s.ports.bin) :
    (walkDown fuel n s).EndsIn (fun u => p.Reads u.ports.bin) fun u => p.Stops u.ports.bin := by
  induction fuel generalizing n s with
  | zero => trivial
  | succ k ih =>
    unfold walkDown
    split
    · trivial
    · split
      · split
        · exact h
        · trivial
      · exact (bitIn_reads h).bind fun b t ht => ih _ ht

theorem hdesLoop_reads {p : InPort Byte} (syms : List Symbol) {s : State} (h : p.Reads s.ports.hin) :
    (hdesLoop syms s).EndsIn (fun u => p.Reads u.ports.hin) fun u => p.Stops u.ports.hin := by
  induction syms generalizing s with
  | nil => exact h
  | cons x rest ih => exact (byteIn_reads h).bind fun _ t ht => (byteIn_reads ht).bind fun _ u hu => ih hu

/-! ## The commands -/

/-- From `s` to `u` every request on an input port, a last one aside, took a unit that was there. -/
structure StopsIn (s u : State) : Prop where
  hin : s.ports.hin.Stops u.ports.hin
  bin : s.ports.bin.Stops u.ports.bin

theorem decBody_stops {s : State} (h : s.ports.bin.pos ≤ s.ports.bin.data.length) :
    (decBody s).Ends fun u => s.ports.bin.Stops u.ports.bin := by
  refine .require (.refl h) (.require (.refl h) ?_)
  refine Result.Ends.bind ?_ fun _ _ hu => hu
  exact (walkDown_reads _ _ (.refl h)).ends (fun _ hu => hu.stops) fun _ hu => hu

theorem hdesBody_stops {s : State} (h : s.ports.hin.pos ≤ s.ports.hin.data.length) :
    (hdesBody s).Ends fun u => s.ports.hin.Stops u.ports.hin := by
  refine Result.Ends.bind ?_ fun _ _ hu => hu
  have hloop := hdesLoop_reads allSymbols (s := { s with core := s.core.hdesStart }) (.refl h)
  exact hloop.ends (fun _ hu => hu.stops) fun _ hu => hu

/-- Whatever a body does, its read positions stay within their streams (R61). -/
theorem bodyOf_stops (i : Instr) {s : State} (hh : s.ports.hin.pos ≤ s.ports.hin.data.length)
    (hb : s.ports.bin.pos ≤ s.ports.bin.data.length) : (bodyOf i s).Ends (StopsIn s) := by
  have he := bodyOf_ends i s
  have same {u : State} (h1 : u.ports.hin = s.ports.hin) (h2 : u.ports.bin = s.ports.bin) : StopsIn s u :=
    ⟨by rw [h1]; exact .refl hh, by rw [h2]; exact .refl hb⟩
  cases i with
  | nop => exact he.mono fun u hu => by cases hu; exact same rfl rfl
  | fclr => exact he.mono fun u hu => by cases hu; exact same rfl rfl
  | finc x => exact he.mono fun u hu => by rcases hu with rfl | rfl <;> exact same rfl rfl
  | frd x => exact he.mono fun u hu => by cases hu; exact same rfl rfl
  | build => exact he.mono fun u hu => by rcases hu with rfl | rfl <;> exact same rfl rfl
  | enc x => exact he.mono fun u hu => same (by rw [hu.rest]; rfl) (by rw [hu.rest]; rfl)
  | dec => exact (he.and (decBody_stops hb)).mono fun u ⟨hu, h⟩ => ⟨by rw [hu.rest]; exact .refl hh, h⟩
  | hser => exact he.mono fun u hu => same (by rw [hu.rest]; rfl) (by rw [hu.rest]; rfl)
  | hdes =>
    refine (he.and (hdesBody_stops hh)).mono fun u ⟨hu, h⟩ => ⟨h, ?_⟩
    obtain ⟨⟨ti, hu⟩, -⟩ := hu
    rw [hu]
    exact .refl hb
  | rdsr r => exact he.mono fun u hu => by cases hu; exact same rfl rfl
  | srst => exact he.mono fun u hu => by rw [show u = resetCore s from hu]; exact same (by simp) (by simp)

end Sys2Proof.Machine
end

section
/-! The invariants of the spec (10_state.md R23, R26, R27, R29, R30, R35, R36; 20_memory.md R61) hold after a reset, and
every step keeps them. -/

namespace Sys2Proof.Machine

open Sys2Proof

/-! ## The core -/

/-- The reset registers meet the invariants, whatever the memories hold (R41). -/
theorem CoreState.Inv.of_registersReset {c : CoreState} (h : c.RegistersReset) : c.Inv := by
  obtain ⟨hti, htv, hfault, hcode, hcmd, htotal, hnleaf, hnnodes, hroot, -⟩ := h
  exact {
    totalSum := fun h => absurd h (by simp [hti])
    totalRange := by simp [htotal]
    tvTi := fun h => absurd h (by simp [htv])
    noFault := fun _ => ⟨hcode, hcmd⟩
    faultCode := fun h => absurd h (by simp [hfault])
    sizes := .inl ⟨hnleaf, hnnodes, hroot⟩
    tree := fun h => absurd h (by simp [htv]) }

/-- Settles O47: the registers of R41 alone meet the invariants, and no stream of the reset state holds anything. -/
theorem resetMeetsTheInvariant : Obligations.ResetMeetsTheInvariant :=
  ⟨.of_registersReset resetGivesRegistersTheirValues.1, Nat.le_refl 0, Nat.le_refl 0⟩

/-- The properties of R35 are about the table, its sum and the tree, and no other state. -/
theorem TreeOk.congr {c d : CoreState} (T : TreeOk c) (htree : SameTree c d) (hfreq : d.freq = c.freq)
    (htotal : d.total = c.total) : TreeOk d := by
  cases c
  cases d
  obtain ⟨hnode, hleaf, hnleaf, hnnodes, hroot⟩ := htree
  simp only at hnode hleaf hnleaf hnnodes hroot hfreq htotal
  subst hnode hleaf hnleaf hnnodes hroot hfreq htotal
  exact ⟨T.sizes, T.fullTree, T.leafIff, T.leafNode, T.weightSum, T.leaves, T.leavesAscend, T.internals, T.childBelow,
    T.parentLinks, T.rootParent, T.otherParents, T.rootWeight, T.placeholder⟩

/-- The codes a body raises are those that ERRCODE can record (R29). -/
theorem raisedCodes_recordable {i : Instr} {e : Code} (h : e ∈ raisedCodes i) :
    e.bits = 0x01#8 ∨ (0x03#8 ≤ e.bits ∧ e.bits ≤ 0x0A#8) := by
  have hne : e ≠ .ok ∧ e ≠ .faulted := by
    constructor <;> rintro rfl <;> cases i <;> simp [raisedCodes] at h
  obtain ⟨hok, hfaulted⟩ := hne
  cases e with
  | ok => exact absurd rfl hok
  | faulted => exact absurd rfl hfaulted
  | illegal => exact .inl rfl
  | noTable => exact .inr (by decide)
  | noTree => exact .inr (by decide)
  | empty => exact .inr (by decide)
  | noLeaf => exact .inr (by decide)
  | countOvf => exact .inr (by decide)
  | bitEof => exact .inr (by decide)
  | hdrShort => exact .inr (by decide)
  | io => exact .inr (by decide)

/-- The fault entry keeps the invariants (R27, R232). -/
theorem CoreState.Inv.faultEntry {c : CoreState} (h : c.Inv) (w : CmdWord) {e : Code}
    (he : e.bits = 0x01#8 ∨ (0x03#8 ≤ e.bits ∧ e.bits ≤ 0x0A#8)) : (c.faultEntry w e).Inv := by
  cases hf : c.fault with
  | true => rwa [faultEntry_of_fault w e hf]
  | false =>
    have htree := faultEntry_sameTree c w e
    rw [faultEntry_of_noFault w e hf] at htree ⊢
    exact {
      totalSum := h.totalSum
      totalRange := h.totalRange
      tvTi := h.tvTi
      noFault := fun h => (nomatch h)
      faultCode := fun _ => he
      sizes := h.sizes
      tree := fun htv => (h.tree htv).congr htree rfl rfl }

/-- New values of the table, TOTAL and TI with TV = 0 keep the invariants, if TOTAL is what R23 and R29 say (R271). -/
theorem CoreState.Inv.withTable {c : CoreState} (h : c.Inv) {f : Vector Count 256} {total : Weight} {ti : Bool}
    (hsum : ti = true → total.toNat = (c.withTable f total ti false).tableSum) (hrange : total.toNat ≤ 16776960) :
    (c.withTable f total ti false).Inv where
  totalSum := hsum
  totalRange := hrange
  tvTi h := nomatch h
  noFault := h.noFault
  faultCode := h.faultCode
  sizes := h.sizes
  tree h := nomatch h

/-- FCLR keeps the invariants (R120). -/
theorem CoreState.Inv.clearTable {c : CoreState} (h : c.Inv) : c.clearTable.Inv :=
  h.withTable (fun _ => (clearTable_tableSum c).symm) (Nat.zero_le _)

/-- Counting one occurrence keeps the invariants, where FINC does it (R122, R123). -/
theorem CoreState.Inv.countOne {c : CoreState} (h : c.Inv) {x : Symbol} (hti : c.ti = true)
    (hx : c.count x ≠ Config.cntMax) : (c.countOne x).Inv := by
  have hsum : (c.countOne x).tableSum = c.tableSum + 1 := countOne_tableSum hx
  have hle := tableSum_le (c.countOne x)
  have htotal : (c.total + 1#24).toNat = (c.countOne x).tableSum := by
    rw [hsum, BitVec.toNat_add, h.totalSum hti]
    simp only [BitVec.toNat_ofNat]
    omega
  exact h.withTable (fun _ => htotal) (htotal.trans_le hle)

/-- BUILD keeps the invariants, where it is done (R30, R35). -/
theorem CoreState.Inv.built {c : CoreState} (h : c.Inv) (hti : c.ti = true) : c.built.Inv := by
  have htree : TreeOk c.built := built_treeOk (h.totalSum hti)
  have hsizes := htree.sizes
  rw [built_frame c] at hsizes htree ⊢
  exact {
    totalSum := h.totalSum
    totalRange := h.totalRange
    tvTi := fun _ => hti
    noFault := h.noFault
    faultCode := h.faultCode
    sizes := .inr hsizes
    tree := fun _ => htree }

/-! ## HDES -/

/-- TOTAL is the sum of the counts of the symbols listed, at most 256 of them. -/
structure TotalsTo (l : List Symbol) (s : State) : Prop where
  few : l.length ≤ 256
  total : s.core.total.toNat = s.core.sumOver l

theorem TotalsTo.range {l : List Symbol} {s : State} (h : TotalsTo l s) : s.core.total.toNat ≤ 16776960 := by
  have := sumOver_le s.core l
  have := h.few
  rw [h.total]
  omega

/-- Loading one more entry of the header (R184). -/
theorem TotalsTo.load {l : List Symbol} {s : State} (h : TotalsTo l s) {x : Symbol} (hx : x ∉ l)
    (hroom : l.length < 256) (v : Count) : TotalsTo (l ++ [x]) { s with core := s.core.loadCount x v } := by
  have hsum : (s.core.loadCount x v).sumOver (l ++ [x]) = s.core.sumOver l + v.toNat := by
    have hfreq : (s.core.loadCount x v).freq = (s.core.setCount x v).freq := rfl
    rw [sumOver_congr hfreq, sumOver_append, sumOver_setCount_of_notMem _ v hx, sumOver_cons,
      count_setCount_self, sumOver_nil, Nat.add_zero]
  refine ⟨by simpa using hroom, ?_⟩
  have hle := sumOver_le s.core l
  have hv := v.isLt
  rw [hsum, loadCount_total, BitVec.toNat_add, zext24_count_toNat, h.total]
  omega

/-- At every end of HDES's loop TOTAL is the sum of the entries written, all of them if it completed (R184, R185). -/
theorem hdesLoop_total (syms : List Symbol) {seen : List Symbol} {s : State} (hd : (seen ++ syms).Nodup)
    (hroom : (seen ++ syms).length ≤ 256) (h : TotalsTo seen s) :
    (hdesLoop syms s).EndsIn (TotalsTo (seen ++ syms)) fun u => u.core.total.toNat ≤ 16776960 := by
  induction syms generalizing seen s with
  | nil =>
    rw [List.append_nil]
    exact h
  | cons x rest ih =>
    have read {t : State} (ht : TotalsTo seen t) :
        (byteIn t).EndsIn (TotalsTo seen) fun u => u.core.total.toNat ≤ 16776960 := by
      have hcore {u : State} (hu : OnlyHin t u) : TotalsTo seen u := by
        rw [hu.rest]
        exact ⟨ht.few, ht.total⟩
      have hf := byteIn_frame t
      cases hb : byteIn t with
      | done v u => rw [hb] at hf; exact hcore hf.1
      | raised e u => rw [hb] at hf; exact (hcore hf.1).range
      | stuck f => trivial
    have happ : seen ++ x :: rest = (seen ++ [x]) ++ rest := by simp
    have hx : x ∉ seen := fun hm => (List.nodup_append'.mp hd).2.2 hm List.mem_cons_self
    have hlt : seen.length < 256 := by
      rw [List.length_append, List.length_cons] at hroom
      omega
    rw [happ] at hd hroom ⊢
    exact (read h).bind fun hi t ht => (read ht).bind fun lo u hu => ih hd hroom (hu.load hx hlt (hi ++ lo))

/-- HDES keeps the invariants, completed or not (R184, R185). -/
theorem hdesBody_inv {s : State} (h : s.core.Inv) : (hdesBody s).Ends fun u => u.core.Inv := by
  have hloop := hdesLoop_total allSymbols (seen := []) (s := { s with core := s.core.hdesStart })
    allSymbols_nodup allSymbols_length.le ⟨by decide, rfl⟩
  have htable := hdesLoop_frame allSymbols { s with core := s.core.hdesStart }
  unfold hdesBody
  cases hb : hdesLoop allSymbols { s with core := s.core.hdesStart } with
  | stuck f => trivial
  | raised e u =>
    rw [hb] at hloop htable
    have hcore : u.core = s.core.withTable u.core.freq u.core.total false false := congrArg State.core htable.rest
    simp only [Result.bind_raised, Result.Ends]
    rw [hcore]
    exact h.withTable (fun h => nomatch h) hloop
  | done a u =>
    rw [hb] at hloop htable
    have hcore : u.core = s.core.withTable u.core.freq u.core.total false false := congrArg State.core htable.rest
    simp only [Result.bind_done, Result.Ends]
    rw [hcore]
    exact h.withTable (ti := true) (fun _ => hloop.total.trans (sumOver_congr rfl _)) hloop.range

/-! ## Every command and every step -/

/-- The core after a reset meets the invariants (R41, R261). -/
theorem coreAfterReset_inv (k : Nat) : (coreAfterReset k).Inv := .of_registersReset (coreAfterReset_registers k)

/-- Every body keeps the invariants of the core. -/
theorem bodyOf_inv (i : Instr) {s : State} (h : s.core.Inv) : (bodyOf i s).Ends fun u => u.core.Inv := by
  cases i with
  | nop => exact h
  | fclr => exact h.clearTable
  | finc x =>
    refine .require_of h fun hti => .require_of h fun hx => ?_
    exact h.countOne hti (bne_iff_ne.mp hx)
  | frd x => exact .require h h
  | build => exact .require_of h fun hti => h.built hti
  | enc x => exact (encBody_frame x s).mono fun u hu => by rw [hu.rest]; exact h
  | dec => exact (decBody_frame s).mono fun u hu => by rw [hu.rest]; exact h
  | hser => exact (hserBody_frame s).mono fun u hu => by rw [hu.rest]; exact h
  | hdes => exact hdesBody_inv h
  | rdsr r =>
    simp only [bodyOf, rdsrBody]
    split <;> exact h
  | srst => exact coreAfterReset_inv s.resets

/-- What a command keeps: the invariants of the core, and the read positions within their streams. -/
structure KeepsInv (s t : State) : Prop where
  core : t.core.Inv
  stops : StopsIn s t

theorem KeepsInv.of_same_ports {s t : State} (h : s.Inv) (hc : t.core.Inv) (hp : t.ports = s.ports) : KeepsInv s t :=
  ⟨hc, by rw [hp]; exact .refl h.hpos, by rw [hp]; exact .refl h.bpos⟩

theorem KeepsInv.inv {s t : State} (h : KeepsInv s t) : t.Inv := ⟨h.core, h.stops.hin.bound, h.stops.bin.bound⟩

/-- Every command keeps the invariants, by the gate, by its value or by its fault. -/
theorem exec_keeps {i : Instr} {s t : State} (h : s.Inv) (ht : exec i s = .next t) : KeepsInv s t := by
  have hcore := bodyOf_inv i h.core
  have hstops := bodyOf_stops i h.hpos h.bpos
  rcases exec_next ht with ⟨-, rfl⟩ | ⟨-, v, u, hb, -, rfl⟩ | ⟨-, e, u, hb, he, -, rfl⟩
  · exact .of_same_ports h h.core rfl
  · rw [hb] at hcore hstops
    exact ⟨hcore, hstops.hin, hstops.bin⟩
  · rw [hb] at hcore hstops
    exact ⟨hcore.faultEntry _ (raisedCodes_recordable he), hstops.hin, hstops.bin⟩

/-- Every command word, legal or not, keeps the invariants. -/
theorem handle_keeps {c : CmdWord} {s t : State} (h : s.Inv) (ht : handle c s = .next t) : KeepsInv s t := by
  cases hd : decode c with
  | ok i =>
    rw [handle_of_decode hd] at ht
    exact exec_keeps h ht
  | error r =>
    rw [handle_of_illegal hd] at ht
    rcases runBody_next ht with ⟨-, rfl⟩ | ⟨-, v, u, hb, -⟩ | ⟨-, e, u, hb, rfl⟩
    · exact .of_same_ports h h.core rfl
    · cases hb
    · cases hb
      exact .of_same_ports h (h.core.faultEntry c (.inl rfl)) rfl

/-- A reset keeps the invariants: the core's registers are reset, and the ports stay (R261, R263). -/
theorem resetCore_inv {s : State} (hh : s.ports.hin.pos ≤ s.ports.hin.data.length)
    (hb : s.ports.bin.pos ≤ s.ports.bin.data.length) : (resetCore s).Inv :=
  ⟨coreAfterReset_inv s.resets, by rwa [resetCore_ports], by rwa [resetCore_ports]⟩

/-- A command cut short keeps the invariants: its ports hold a part of what the whole command would have done (R262). -/
theorem cutByReset_inv {c : CmdWord} {s : State} (h : s.Inv) (k : Nat) : (cutByReset k s (handle c s)).Inv := by
  cases ho : handle c s with
  | next t =>
    have hstops := (handle_keeps h ho).stops
    exact resetCore_inv (InPort.cut_bound k hstops.hin) (InPort.cut_bound k hstops.bin)
  | fault f => exact resetCore_inv h.hpos h.bpos
  | refused r => exact resetCore_inv h.hpos h.bpos

/-- Settles O48: the host's move is a command, a reset, or a command cut by a reset, and each keeps the invariants. -/
theorem everyStepKeepsTheInvariant : Obligations.EveryStepKeepsTheInvariant := by
  intro s t h ht
  cases hin : s.inbox with
  | nil =>
    simp only [step, hin, Host.Outcome.next.injEq] at ht
    exact ht ▸ h
  | cons m rest =>
    have h' : State.Inv { s with inbox := rest } := ⟨h.core, h.hpos, h.bpos⟩
    simp only [step, hin] at ht
    cases m with
    | command c => exact (handle_keeps h' ht).inv
    | hardReset =>
      injection ht with ht
      exact ht ▸ resetCore_inv h'.hpos h'.bpos
    | commandCut c k =>
      injection ht with ht
      exact ht ▸ cutByReset_inv h' k

end Sys2Proof.Machine
end

section
/-! The payload bytes (20_memory.md R74): eight bits a byte, most significant first, and Unpack the inverse of Pack. -/

namespace Sys2Proof.Machine

open Sys2Proof

/-! ## One byte -/

/-- Bit number `j` of the sequence is bit 7 - j of the byte; the padding fills the places no bit reaches. -/
theorem packByte_getLsbD (pad : Byte) (bits : List Bool) {j : Nat} (hj : j < 8) :
    (packByte pad bits).getLsbD (7 - j) = bits[j]?.getD (pad.getLsbD (7 - j)) := by
  interval_cases j <;>
    · simp only [packByte, BitVec.getLsbD_append, BitVec.getLsbD_ofBool]
      rfl

theorem unpackByte_getElem? (v : Byte) {j : Nat} (hj : j < 8) : (unpackByte v)[j]? = some (v.getLsbD (7 - j)) := by
  interval_cases j <;> rfl

@[simp] theorem unpackByte_length (v : Byte) : (unpackByte v).length = 8 := rfl

/-- A whole byte needs no padding. -/
@[simp] theorem packByte_unpackByte (pad v : Byte) : packByte pad (unpackByte v) = v := by
  refine BitVec.eq_of_getLsbD_eq fun i hi => ?_
  have h := packByte_getLsbD pad (unpackByte v) (j := 7 - i) (by omega)
  rw [unpackByte_getElem? v (by omega), Option.getD_some, Nat.sub_sub_self (by omega)] at h
  exact h

/-! ## The sequence, eight bits at a time -/

/-- The first byte takes the first eight bits, or all there are. -/
theorem pack_of_ne_nil (pad : Byte) {bits : List Bool} (h : bits ≠ []) :
    pack pad bits = packByte pad (bits.take 8) :: pack pad (bits.drop 8) :=
  match bits, h with
  | [], h => absurd rfl h
  | [_], _ | [_, _], _ | [_, _, _], _ | [_, _, _, _], _ | [_, _, _, _, _], _ | [_, _, _, _, _, _], _
  | [_, _, _, _, _, _, _], _ | _ :: _ :: _ :: _ :: _ :: _ :: _ :: _ :: _, _ => rfl

theorem pack_length (pad : Byte) (bits : List Bool) : (pack pad bits).length = (bits.length + 7) / 8 := by
  by_cases h : bits = []
  · subst h
    rfl
  · have hpos := List.length_pos_of_ne_nil h
    rw [pack_of_ne_nil pad h, List.length_cons, pack_length pad (bits.drop 8), List.length_drop]
    omega
termination_by bits.length
decreasing_by
  rw [List.length_drop]
  omega

/-- Byte `k` packs the eight bits from number 8k on. -/
theorem pack_getElem? (pad : Byte) {bits : List Bool} {k : Nat} (h : 8 * k < bits.length) :
    (pack pad bits)[k]? = some (packByte pad ((bits.drop (8 * k)).take 8)) := by
  have hne : bits ≠ [] := List.ne_nil_of_length_pos (Nat.zero_lt_of_lt h)
  rw [pack_of_ne_nil pad hne]
  induction k generalizing bits with
  | zero => rfl
  | succ k ih =>
    have hdrop : 8 * k < (bits.drop 8).length := by
      rw [List.length_drop]
      omega
    have hne' : bits.drop 8 ≠ [] := List.ne_nil_of_length_pos (Nat.zero_lt_of_lt hdrop)
    rw [List.getElem?_cons_succ, pack_of_ne_nil pad hne', ih hdrop hne', List.drop_drop, Nat.mul_succ, Nat.add_comm 8]

/-- Bit number 8k + j of the sequence is bit 7 - j of byte k. -/
theorem pack_bit (pad : Byte) {bits : List Bool} {k j : Nat} {b : Bool} (hj : j < 8) (hb : bits[8 * k + j]? = some b) :
    ∃ v, (pack pad bits)[k]? = some v ∧ v.getLsbD (7 - j) = b := by
  have hlt := (List.getElem?_eq_some_iff.mp hb).1
  refine ⟨_, pack_getElem? pad (by omega), ?_⟩
  rw [packByte_getLsbD pad _ hj, List.getElem?_take_of_lt hj, List.getElem?_drop, hb, Option.getD_some]

/-- Bit number 8k + j of the bytes is bit 7 - j of byte k. -/
theorem unpack_getElem? (bytes : List Byte) (k : Nat) {j : Nat} (hj : j < 8) :
    (unpack bytes)[8 * k + j]? = bytes[k]?.map (·.getLsbD (7 - j)) := by
  induction bytes generalizing k with
  | nil => rfl
  | cons v rest ih =>
    rw [unpack]
    cases k with
    | zero =>
      rw [Nat.mul_zero, Nat.zero_add, List.getElem?_append_left (by rwa [unpackByte_length]), unpackByte_getElem? v hj]
      rfl
    | succ k =>
      rw [List.getElem?_append_right (by rw [unpackByte_length]; omega), unpackByte_length, List.getElem?_cons_succ, ← ih]
      congr 1
      omega

/-- The padding stands behind the bits (R74). -/
theorem prefix_unpack_pack (pad : Byte) (bits : List Bool) : bits <+: unpack (pack pad bits) := by
  refine List.prefix_iff_getElem?.mpr fun i hi => ?_
  have hj : i % 8 < 8 := Nat.mod_lt i (by decide)
  have hplace : 8 * (i / 8) + i % 8 = i := Nat.div_add_mod i 8
  have hb : bits[8 * (i / 8) + i % 8]? = some bits[i] := by rw [hplace, List.getElem?_eq_getElem hi]
  obtain ⟨v, hv, hbit⟩ := pack_bit pad hj hb
  have hread := unpack_getElem? (pack pad bits) (i / 8) hj
  rwa [hplace, hv, Option.map_some, hbit] at hread

theorem pack_unpack (pad : Byte) (bytes : List Byte) : pack pad (unpack bytes) = bytes := by
  induction bytes with
  | nil => rfl
  | cons v rest ih =>
    calc pack pad (unpackByte v ++ unpack rest)
        = packByte pad (unpackByte v) :: pack pad (unpack rest) := rfl
      _ = v :: rest := by rw [packByte_unpackByte, ih]

/-- Settles O56: byte `k` packs the bits from 8k on, Unpack reads it at the same places, and a whole byte packs to
itself. -/
theorem unpackInvertsPack : Obligations.UnpackInvertsPack :=
  ⟨fun pad bits => ⟨pack_length pad bits, fun _ _ _ => pack_bit pad, prefix_unpack_pack pad bits⟩, pack_unpack⟩

end Sys2Proof.Machine
end

section
/-! What a command does with the ports (20_memory.md R66): it uses its own alone, and a command that raised no fault made
there a number of requests that its tree and table fix. -/

namespace Sys2Proof.Machine

open Sys2Proof

/-! ## Each command its own port -/

/-- From the ports `p` to the ports `q`, by command `i`, no port has changed but that of `i`. -/
structure OwnPortOnly (i : Instr) (p q : Ports) : Prop where
  hin : i ≠ .hdes → q.hin = p.hin
  hout : i ≠ .hser → q.hout = p.hout
  bin : i ≠ .dec → q.bin = p.bin
  bout : (∀ x, i ≠ .enc x) → q.bout = p.bout

theorem OwnPortOnly.of_eq {i : Instr} {p q : Ports} (h : q = p) : OwnPortOnly i p q := by
  subst h
  exact ⟨fun _ => rfl, fun _ => rfl, fun _ => rfl, fun _ => rfl⟩

theorem BodyEnd.ownPortOnly {i : Instr} {s u : State} (h : BodyEnd i s u) : OwnPortOnly i s.ports u.ports := by
  cases i with
  | nop => exact .of_eq (h ▸ rfl)
  | fclr => exact .of_eq (h ▸ rfl)
  | finc x => rcases h with rfl | rfl <;> exact .of_eq rfl
  | frd x => exact .of_eq (h ▸ rfl)
  | build => rcases h with rfl | rfl <;> exact .of_eq rfl
  | enc x => rw [h.rest]; exact ⟨fun _ => rfl, fun _ => rfl, fun _ => rfl, fun hi => absurd rfl (hi x)⟩
  | dec => rw [h.rest]; exact ⟨fun _ => rfl, fun _ => rfl, fun hi => absurd rfl hi, fun _ => rfl⟩
  | hser => rw [h.rest]; exact ⟨fun _ => rfl, fun hi => absurd rfl hi, fun _ => rfl, fun _ => rfl⟩
  | hdes =>
    obtain ⟨⟨ti, h⟩, -⟩ := h
    rw [h]
    exact ⟨fun hi => absurd rfl hi, fun _ => rfl, fun _ => rfl, fun _ => rfl⟩
  | rdsr r => exact .of_eq (h ▸ rfl)
  | srst => subst h; exact .of_eq (resetCore_ports s)

/-- A command uses no port but its own, refused by the gate, completed or faulted (R66). -/
theorem exec_ownPortOnly {i : Instr} {s t : State} (h : exec i s = .next t) : OwnPortOnly i s.ports t.ports := by
  rcases exec_next h with ⟨-, rfl⟩ | ⟨-, v, u, -, hu, rfl⟩ | ⟨-, e, u, -, -, hu, rfl⟩
  · exact .of_eq rfl
  · exact hu.ownPortOnly
  · exact hu.ownPortOnly

/-! ## How many requests a completed command made -/

@[simp] theorem State.answering_ports (v : Weight) (s : State) : (s.answering v).ports = s.ports := rfl

/-- A command that leaves FAULT 0 has completed its body. -/
theorem exec_completed {i : Instr} {s t : State} (h : exec i s = .next t) (hs : s.core.fault = false)
    (ht : t.core.fault = false) : ∃ v u, bodyOf i s = .done v u ∧ BodyEnd i s u ∧ t = u.answering v := by
  rcases exec_next h with ⟨hg, -⟩ | ⟨-, hdone⟩ | ⟨-, e, u, -, -, -, rfl⟩
  · rw [gateCloses_of_noFault _ hs] at hg
    cases hg
  · exact hdone
  · rw [raise_core, faultEntry_fault] at ht
    cases ht

/-- A `require` in front of a body that completed has passed. -/
theorem require_eq_done {α : Type} {c : Bool} {e : Code} {s u : State} {k : Result α} {a : α}
    (h : require c e s k = .done a u) : c = true ∧ k = .done a u := by
  cases c with
  | false => cases h
  | true => exact ⟨rfl, h⟩

theorem hdesBody_asked {s u : State} {v : Weight} (h : hdesBody s = .done v u) :
    u.ports.hin.asked = s.ports.hin.asked + 512 := by
  obtain ⟨_, w, hloop, hend⟩ := Result.bind_eq_done h
  cases hend
  rw [show State.ports _ = w.ports from rfl, hdesLoop_asked _ hloop, allSymbols_length]

theorem hserBody_asked {s u : State} {v : Weight} (h : hserBody s = .done v u) :
    u.ports.hout.asked = s.ports.hout.asked + 512 := by
  obtain ⟨-, h⟩ := require_eq_done h
  obtain ⟨_, w, hloop, hend⟩ := Result.bind_eq_done h
  cases hend
  rw [hserLoop_eq_emitBytes] at hloop
  rw [emitBytes_asked _ hloop, headerOf_length, allSymbols_length]

/-- A DEC that completed walked from the root to the leaf of the symbol it answers (R171). -/
theorem decBody_done {s u : State} {v : Weight} (h : decBody s = .done v u) :
    s.core.nleaf ≠ 0#9 ∧ ∃ sym, walkDown 256 s.core.root s = .done sym u ∧ v = zext24 sym := by
  obtain ⟨-, h⟩ := require_eq_done h
  obtain ⟨hne, h⟩ := require_eq_done h
  obtain ⟨sym, w, hwalk, hend⟩ := Result.bind_eq_done h
  cases hend
  exact ⟨bne_iff_ne.mp hne, sym, hwalk, rfl⟩

/-- An ENC that completed emitted the code its walk found, and answers its length (R161). -/
theorem encBody_done {x : Symbol} {s u : State} {v : Weight} (h : encBody x s = .done v u) :
    s.core.leafOf x ≠ Config.nil ∧ ∃ bits, s.core.codeOf x = .ok bits ∧ v = BitVec.ofNat 24 bits.length ∧
      u.ports.bout.asked = s.ports.bout.asked + bits.length := by
  obtain ⟨-, h⟩ := require_eq_done h
  obtain ⟨hne, h⟩ := require_eq_done h
  split at h
  · cases h
  · rename_i bits hcode
    obtain ⟨_, w, hemit, hend⟩ := Result.bind_eq_done h
    cases hend
    exact ⟨bne_iff_ne.mp hne, bits, hcode, rfl, emitBits_asked bits hemit⟩

/-- What ENC finds is at most MAXDEPTH bits long, whatever the arena holds (R38). -/
theorem codeOf_length {c : CoreState} {x : Symbol} {bits : List Bool} (h : c.codeOf x = .ok bits) :
    bits.length ≤ 255 := by
  have hlen := walkUp_length c h
  simp only [List.length_nil, Config.maxDepth] at hlen
  omega

/-- On a tree a completed walk from the root made one request for every bit of the code of the symbol it answers (R171,
R177). -/
theorem walkDown_root_isCode {fuel : Nat} {s u : State} {sym : Symbol} (T : TreeOk s.core) (hne : s.core.nleaf ≠ 0#9)
    (h : walkDown fuel s.core.root s = .done sym u) :
    ∃ bits, IsCode s.core sym bits ∧ u.ports.bin.asked = s.ports.bin.asked + bits.length :=
  have hpos : 1 ≤ s.core.nleaf.toNat := Nat.pos_of_ne_zero fun e => hne (BitVec.eq_of_toNat_eq e)
  walkDown_isCode T T.root_lt hpos .root h

/-- Settles O44: each body ends with its own port changed alone, and a command that raised no fault ran its loop or its
walk to the end. -/
theorem eachCommandUsesItsOwnPort : Obligations.EachCommandUsesItsOwnPort := by
  intro i s t h
  obtain ⟨hhin, hhout, hbin, hbout⟩ := exec_ownPortOnly h
  refine ⟨hhin, hhout, hbin, hbout, fun ht hs => ?_⟩
  obtain ⟨v, u, hbody, hu, rfl⟩ := exec_completed h hs ht
  have hresp : (u.answering v).responses = s.responses ++ [0x00#8 ++ v] := by rw [State.answering, hu.host.1]
  rw [State.answering_ports]
  refine ⟨?_, ?_, ?_, ?_⟩
  · rintro rfl
    exact hdesBody_asked hbody
  · rintro rfl
    exact hserBody_asked hbody
  · rintro rfl
    obtain ⟨hne, sym, hwalk, rfl⟩ := decBody_done hbody
    refine ⟨Nat.le_of_succ_le_succ (walkDown_asked hwalk), fun T => ?_⟩
    obtain ⟨bits, hcode, hasked⟩ := walkDown_root_isCode T hne hwalk
    exact ⟨sym, bits, hcode, hasked, hresp⟩
  · rintro x rfl
    obtain ⟨hleaf, bits, hcode, rfl, hasked⟩ := encBody_done hbody
    have hlen := codeOf_length hcode
    refine ⟨by omega, ⟨_, ?_, hresp⟩, fun T => ?_⟩
    · rw [hasked, BitVec.toNat_ofNat]
      omega
    · obtain ⟨code, hok, hisCode, -⟩ := T.codeOf_isCode hleaf
      rw [hcode] at hok
      cases hok
      exact ⟨bits, hisCode, hasked⟩

end Sys2Proof.Machine
end

section
/-! No code begins another (30_encoding.md R99): a path names one node, and a node that a path passes through is not a
leaf. -/

namespace Sys2Proof.Machine

open Sys2Proof

/-- The empty path is the root's alone (R162). -/
theorem PathTo.eq_root {c : CoreState} {n : NodeIdx} (h : PathTo c n []) : n = c.root := by
  generalize hl : ([] : List Bool) = l at h
  cases h with
  | root => rfl
  | zero => simp at hl
  | one => simp at hl

/-- The last bit of a path is the branch its node stands on at the parent, and the bits before it are the parent's path
(R162). -/
theorem PathTo.parent {c : CoreState} {n : NodeIdx} {bits : List Bool} {b : Bool} (h : PathTo c n (bits ++ [b])) :
    n ≠ c.root ∧ ∃ nd, c.nodeAt n = some nd ∧ PathTo c nd.parent bits ∧
      ∃ pd, c.nodeAt nd.parent = some pd ∧ (if b then pd.one else pd.zero) = n := by
  generalize hl : bits ++ [b] = l at h
  cases h with
  | root => simp at hl
  | zero hp hne hn hpar hpd hz =>
    obtain ⟨rfl, rfl⟩ := List.append_singleton_inj.mp hl
    subst hpar
    exact ⟨hne, _, hn, hp, _, hpd, hz⟩
  | one hp hne hn hpar hpd ho =>
    obtain ⟨rfl, rfl⟩ := List.append_singleton_inj.mp hl
    subst hpar
    exact ⟨hne, _, hn, hp, _, hpd, ho⟩

/-- Two nodes with one path are one node. -/
theorem PathTo.node_unique {c : CoreState} {n m : NodeIdx} {bits : List Bool} (hn : PathTo c n bits)
    (hm : PathTo c m bits) : n = m := by
  induction bits using List.reverseRecOn generalizing n m with
  | nil => exact hn.eq_root.trans hm.eq_root.symm
  | append_singleton bits b ih =>
    obtain ⟨-, nd, -, hpn, pn, hpnd, hbn⟩ := hn.parent
    obtain ⟨-, md, -, hpm, pm, hpmd, hbm⟩ := hm.parent
    rw [ih hpn hpm, hpmd] at hpnd
    cases hpnd
    exact hbn.symm.trans hbm

/-- A path with a bit beyond `pre` passes an internal node whose path is `pre`. -/
theorem TreeOk.inner_of_longer_path {c : CoreState} (T : TreeOk c) {n : NodeIdx} {pre post : List Bool} {b : Bool}
    (hn : n.toNat < c.nnodes.toNat) (h : PathTo c n (pre ++ b :: post)) :
    ∃ m : NodeIdx, PathTo c m pre ∧ c.nleaf.toNat ≤ m.toNat := by
  induction post using List.reverseRecOn generalizing n with
  | nil =>
    obtain ⟨hr, nd, hnd, hp, -⟩ := h.parent
    obtain ⟨-, -, -, hinner, -⟩ := T.parent_step hn hr hnd
    exact ⟨nd.parent, hp, hinner⟩
  | append_singleton post x ih =>
    rw [← List.cons_append, ← List.append_assoc] at h
    obtain ⟨hr, nd, hnd, hp, -⟩ := h.parent
    obtain ⟨hlt, -⟩ := T.parent_step hn hr hnd
    exact ih hlt hp

/-- Two symbols with one leaf are one symbol (R35 (b)). -/
theorem TreeOk.leafOf_inj {c : CoreState} (T : TreeOk c) {x y : Symbol} (hx : c.leafOf x ≠ Config.nil)
    (h : c.leafOf x = c.leafOf y) : x = y := by
  obtain ⟨-, nx, hnx, -, hsx, -⟩ := T.leafNode x hx
  obtain ⟨-, ny, hny, -, hsy, -⟩ := T.leafNode y (h ▸ hx)
  rw [h] at hnx
  cases Option.mem_unique hnx hny
  exact Option.some.inj (hsx.symm.trans hsy)

/-- Settles O19: were `bx` a proper beginning of another code, the leaf at its end would be an internal node; were the two
codes equal, so were their leaves. -/
theorem codesArePrefixFree : Obligations.CodesArePrefixFree := by
  rintro c x y bx _ T hx hy hne ⟨rest, rfl⟩
  cases rest with
  | nil =>
    rw [List.append_nil] at hy
    exact hne (T.leafOf_inj hx.1 (hx.2.node_unique hy.2))
  | cons b post =>
    obtain ⟨m, hm, hinner⟩ := T.inner_of_longer_path (T.leafOf_lt hy.1) hy.2
    have hleaf := (T.leafNode x hx.1).1
    rw [hx.2.node_unique hm] at hleaf
    omega

end Sys2Proof.Machine
end

section
/-! The command word (30_encoding.md R90 to R94): encoder and decoder are inverse to each other, which words are legal,
how many, and the rows of the opcode map. -/

namespace Sys2Proof

/-! ## The two round trips -/

/-- Settles O53: format by format, the decoder reads the opcode and the operand back. -/
theorem decodeInvertsEncode : Obligations.DecodeInvertsEncode := by
  intro i
  cases i with
  | nop => exact Laws.DecodeEncode.nop
  | fclr => exact Laws.DecodeEncode.fclr
  | finc s => exact Laws.DecodeEncode.finc s
  | frd s => exact Laws.DecodeEncode.frd s
  | build => exact Laws.DecodeEncode.build
  | enc s => exact Laws.DecodeEncode.enc s
  | dec => exact Laws.DecodeEncode.dec
  | hser => exact Laws.DecodeEncode.hser
  | hdes => exact Laws.DecodeEncode.hdes
  | rdsr r => exact Laws.DecodeEncode.rdsr r
  | srst => exact Laws.DecodeEncode.srst

/-- Settles O54: a word is its two fields, and those of a legal word are its command's. -/
theorem encodeInvertsDecode : Obligations.EncodeInvertsDecode := fun _ _ => encode_of_decode

/-- The legal words are the encodings of the well-formed commands (R93). -/
theorem decodes_iff_encodes (c : CmdWord) : (∃ i, decode c = .ok i) ↔ ∃ i : Instr, i.WellFormed ∧ encode i = c := by
  constructor
  · rintro ⟨i, h⟩
    exact ⟨i, encodeInvertsDecode c i h⟩
  · rintro ⟨i, hw, rfl⟩
    exact ⟨i, decodeInvertsEncode i hw⟩

/-- Settles O52: each word is the encoding of its command. -/
theorem wordsOfTheOpcodeMapDecode : Obligations.WordsOfTheOpcodeMapDecode :=
  ⟨decodeInvertsEncode .nop rfl, decodeInvertsEncode .fclr rfl, decodeInvertsEncode (.finc 0x61#8) rfl,
    decodeInvertsEncode (.frd 0xFF#8) rfl, decodeInvertsEncode .build rfl, decodeInvertsEncode (.enc 0x61#8) rfl,
    decodeInvertsEncode .dec rfl, decodeInvertsEncode .hser rfl, decodeInvertsEncode .hdes rfl,
    decodeInvertsEncode (.rdsr 3#8) rfl, decodeInvertsEncode .srst rfl⟩

/-! ## The legal words -/

/-- The opcodes of format N (R91, R93). -/
def opcodesN : List Byte := [0x00#8, 0x10#8, 0x20#8, 0x31#8, 0x40#8, 0x41#8, 0xFF#8]

/-- The opcodes of format S (R91, R93). -/
def opcodesS : List Byte := [0x11#8, 0x12#8, 0x30#8]

/-- The pairs of fields that the three formats allow (R91). -/
abbrev LegalFields (op arg : Byte) : Prop :=
  (op ∈ opcodesN ∧ arg = 0x00#8) ∨ op ∈ opcodesS ∨ (op = 0xF0#8 ∧ arg ≤ 0x06#8)

/-- The fields the formats allow are those of the well-formed commands. -/
theorem legalFields_iff {op arg : Byte} :
    LegalFields op arg ↔ ∃ i : Instr, i.WellFormed ∧ i.op = op ∧ i.arg = arg := by
  constructor
  · rintro (⟨hop, rfl⟩ | hop | ⟨rfl, harg⟩)
    · simp only [opcodesN, List.mem_cons, List.not_mem_nil, or_false] at hop
      rcases hop with rfl | rfl | rfl | rfl | rfl | rfl | rfl
      exacts [⟨.nop, rfl, rfl, rfl⟩, ⟨.fclr, rfl, rfl, rfl⟩, ⟨.build, rfl, rfl, rfl⟩, ⟨.dec, rfl, rfl, rfl⟩,
        ⟨.hser, rfl, rfl, rfl⟩, ⟨.hdes, rfl, rfl, rfl⟩, ⟨.srst, rfl, rfl, rfl⟩]
    · simp only [opcodesS, List.mem_cons, List.not_mem_nil, or_false] at hop
      rcases hop with rfl | rfl | rfl
      exacts [⟨.finc arg, rfl, rfl, rfl⟩, ⟨.frd arg, rfl, rfl, rfl⟩, ⟨.enc arg, rfl, rfl, rfl⟩]
    · exact ⟨.rdsr arg, decide_eq_true harg, rfl, rfl⟩
  · rintro ⟨i, hw, rfl, rfl⟩
    cases i with
    | rdsr r => exact .inr (.inr ⟨rfl, of_decide_eq_true hw⟩)
    | finc s => exact .inr (.inl (by decide : 0x11#8 ∈ opcodesS))
    | frd s => exact .inr (.inl (by decide : 0x12#8 ∈ opcodesS))
    | enc s => exact .inr (.inl (by decide : 0x30#8 ∈ opcodesS))
    | nop => exact .inl (by decide)
    | fclr => exact .inl (by decide)
    | build => exact .inl (by decide)
    | dec => exact .inl (by decide)
    | hser => exact .inl (by decide)
    | hdes => exact .inl (by decide)
    | srst => exact .inl (by decide)

/-- A command's encoding is a word when its fields are the word's (R90). -/
theorem encode_eq_iff {i : Instr} {c : CmdWord} : encode i = c ↔ i.op = opField c ∧ i.arg = argField c := by
  constructor
  · rintro rfl
    exact ⟨(opField_encode i).symm, (argField_encode i).symm⟩
  · rintro ⟨hop, harg⟩
    rw [encode, hop, harg, fields_append]

/-- A word is legal when its fields are (R91, R94). -/
theorem decodes_iff_legalFields (c : CmdWord) : (∃ i, decode c = .ok i) ↔ LegalFields (opField c) (argField c) := by
  rw [decodes_iff_encodes, legalFields_iff]
  simp only [encode_eq_iff]

/-- A word is refused when it does not decode. -/
theorem rejected_iff_not_decodes (c : CmdWord) : (∃ r, decode c = .error r) ↔ ¬ ∃ i, decode c = .ok i := by
  cases decode c <;> simp

/-- No opcode has two formats. -/
theorem opcodesN_disjoint : ∀ op ∈ opcodesN, op ∉ opcodesS ∧ op ≠ 0xF0#8 := by decide

theorem opcodesS_disjoint : ∀ op ∈ opcodesS, op ≠ 0xF0#8 := by decide

/-- The three cases of R94 are what the formats of R91 leave. -/
theorem not_legalFields_iff (op arg : Byte) : ¬ LegalFields op arg ↔
    op ∉ [0x00#8, 0x10#8, 0x11#8, 0x12#8, 0x20#8, 0x30#8, 0x31#8, 0x40#8, 0x41#8, 0xF0#8, 0xFF#8] ∨
      (op ∈ opcodesN ∧ arg ≠ 0x00#8) ∨ (op = 0xF0#8 ∧ 7 ≤ arg.toNat) := by
  have hall : op ∈ [0x00#8, 0x10#8, 0x11#8, 0x12#8, 0x20#8, 0x30#8, 0x31#8, 0x40#8, 0x41#8, 0xF0#8, 0xFF#8] ↔
      op ∈ opcodesN ∨ op ∈ opcodesS ∨ op = 0xF0#8 := by
    simp only [opcodesN, opcodesS, List.mem_cons, List.not_mem_nil, or_false]
    tauto
  have hreg : 7 ≤ arg.toNat ↔ ¬ arg ≤ 0x06#8 := by rw [BitVec.le_def, Nat.not_le]; rfl
  have hN := opcodesN_disjoint op
  have hS := opcodesS_disjoint op
  rw [hall, hreg]
  tauto

/-! ## Their number -/

/-- How many operands an opcode allows: one in format N, every byte in format S, seven registers in format R. -/
def legalArgs (op : Byte) : Nat :=
  if op ∈ opcodesN then 1 else if op ∈ opcodesS then 256 else if op = 0xF0#8 then 7 else 0

/-- Each opcode allows `legalArgs` operands: in format R the registers 0 to 6 (R91). -/
theorem countP_legalFields (op : Byte) :
    Machine.allSymbols.countP (fun arg => decide (LegalFields op arg)) = legalArgs op := by
  have hzero : Machine.allSymbols.countP (fun arg => decide (arg = 0x00#8)) = 1 := by decide +kernel
  have hregs : Machine.allSymbols.countP (fun arg => decide (arg ≤ 0x06#8)) = 7 := by decide +kernel
  by_cases hN : op ∈ opcodesN
  · obtain ⟨hS, hR⟩ := opcodesN_disjoint op hN
    simp [LegalFields, legalArgs, hN, hS, hR, hzero]
  · by_cases hS : op ∈ opcodesS
    · simp [LegalFields, legalArgs, hN, hS]
    · by_cases hR : op = 0xF0#8
      · subst hR
        simp [LegalFields, legalArgs, hN, hS, hregs]
      · simp [LegalFields, legalArgs, hN, hS, hR]

/-- Settles O35: a word is legal when its fields are, and each opcode allows `legalArgs` operands. -/
theorem illegalWordsAreTheThreeCases : Obligations.IllegalWordsAreTheThreeCases := by
  constructor
  · intro c
    rw [rejected_iff_not_decodes, decodes_iff_legalFields]
    exact not_legalFields_iff _ _
  · have htotal : (Machine.allSymbols.map legalArgs).sum = 782 := by decide +kernel
    rw [← htotal]
    refine congrArg List.sum (List.map_congr_left fun op _ => ?_)
    rw [← countP_legalFields]
    refine List.countP_congr fun arg _ => ?_
    have hlegal := decodes_iff_legalFields (op ++ arg)
    rw [opField_append, argField_append] at hlegal
    rw [decide_eq_true_iff, ← hlegal]
    cases decode (op ++ arg) <;> simp

/-! ## The rows of the opcode map -/

@[simp] theorem opField_and (c d : CmdWord) : opField (c &&& d) = opField c &&& opField d :=
  BitVec.extractLsb'_and

@[simp] theorem argField_and (c d : CmdWord) : argField (c &&& d) = argField c &&& argField d :=
  BitVec.extractLsb'_and

/-- A row of format N looks at the whole word. -/
theorem and_mask_word (c : CmdWord) : c &&& 0xFFFF#16 = c := BitVec.and_allOnes

/-- A row of format S or R looks at the opcode alone. -/
theorem and_mask_opcode (c : CmdWord) : c &&& 0xFF00#16 = opField c ++ 0x00#8 := by
  rw [← fields_append (c &&& 0xFF00#16), opField_and, argField_and]
  exact congrArg₂ (· ++ ·) BitVec.and_allOnes BitVec.and_zero

/-- Every command has a row of the map (R93). -/
theorem row_mem (i : Instr) : i.row ∈ opcodeRows := by cases i <;> simp [Instr.row, opcodeRows]

/-- A row's pattern is the opcode of its commands, with no operand (R93). -/
theorem row_pattern (i : Instr) : i.row.pattern = i.op ++ 0x00#8 := by cases i <;> simp [Instr.row, Instr.op]

/-- A command's word selects the command's row (R93). -/
theorem encode_selects_row (i : Instr) : encode i &&& i.row.mask = i.row.pattern := by
  have formatS {j : Instr} (hmask : j.row.mask = 0xFF00#16) : encode j &&& j.row.mask = j.row.pattern := by
    rw [hmask, and_mask_opcode, opField_encode, row_pattern]
  cases i with
  | nop => decide
  | fclr => decide
  | finc s => exact formatS rfl
  | frd s => exact formatS rfl
  | build => decide
  | enc s => exact formatS rfl
  | dec => decide
  | hser => decide
  | hdes => decide
  | rdsr r => exact formatS rfl
  | srst => decide

/-- A word that selects a row is the encoding of a command of that row, whose operand may still be a register number that
format R does not allow. -/
theorem encode_of_selects {c : CmdWord} {a : OpRow} (ha : a ∈ opcodeRows) (hc : c &&& a.mask = a.pattern) :
    ∃ i : Instr, i.row = a ∧ encode i = c := by
  have formatN {j : Instr} (hj : c &&& 0xFFFF#16 = encode j) : encode j = c := by rw [← hj, and_mask_word]
  have formatS {j : Instr} (hj : c &&& 0xFF00#16 = j.row.pattern) (harg : j.arg = argField c) : encode j = c := by
    refine encode_eq_iff.mpr ⟨?_, harg⟩
    rw [← opField_append j.op 0x00#8, ← row_pattern, ← hj, and_mask_opcode, opField_append]
  simp only [opcodeRows, List.mem_cons, List.not_mem_nil, or_false] at ha
  rcases ha with rfl | rfl | rfl | rfl | rfl | rfl | rfl | rfl | rfl | rfl | rfl
  · exact ⟨.nop, rfl, formatN hc⟩
  · exact ⟨.fclr, rfl, formatN hc⟩
  · exact ⟨.finc (argField c), rfl, formatS hc rfl⟩
  · exact ⟨.frd (argField c), rfl, formatS hc rfl⟩
  · exact ⟨.build, rfl, formatN hc⟩
  · exact ⟨.enc (argField c), rfl, formatS hc rfl⟩
  · exact ⟨.dec, rfl, formatN hc⟩
  · exact ⟨.hser, rfl, formatN hc⟩
  · exact ⟨.hdes, rfl, formatN hc⟩
  · exact ⟨.rdsr (argField c), rfl, formatS hc rfl⟩
  · exact ⟨.srst, rfl, formatN hc⟩

/-- Two encodings are of one row when they are one word: no two rows have one pattern (R93). -/
theorem row_eq_of_encode_eq {i j : Instr} (h : encode i = encode j) : i.row = j.row := by
  have hinj : ∀ a ∈ opcodeRows, ∀ b ∈ opcodeRows, a.pattern = b.pattern → a = b := by decide
  refine hinj _ (row_mem i) _ (row_mem j) ?_
  rw [row_pattern, row_pattern, (encode_eq_iff.mp h).1, opField_encode]

/-- A command is well-formed when it is no RDSR of a reserved register (R91). -/
theorem wellFormed_of_register {i : Instr} (h : i.op = 0xF0#8 → i.arg.toNat ≤ 6) : i.WellFormed := by
  cases i with
  | rdsr r => exact decide_eq_true (BitVec.le_def.mpr (h rfl))
  | _ => rfl

/-- Settles O55: a word that selects a row is the encoding of a command of it, and a command's word has one row. -/
theorem opcodeRowsAreDisjoint : Obligations.OpcodeRowsAreDisjoint := by
  refine ⟨fun c a b ha hb hca hcb => ?_, fun c i h => ?_, fun c a ha hca hreg => ?_⟩
  · obtain ⟨i, rfl, hi⟩ := encode_of_selects ha hca
    obtain ⟨j, rfl, hj⟩ := encode_of_selects hb hcb
    exact row_eq_of_encode_eq (hi.trans hj.symm)
  · obtain ⟨-, rfl⟩ := encode_of_decode h
    exact ⟨row_mem i, encode_selects_row i⟩
  · obtain ⟨i, rfl, rfl⟩ := encode_of_selects ha hca
    refine ⟨i, decodeInvertsEncode i (wellFormed_of_register fun hop => ?_), rfl⟩
    have harg : (argField (encode i)).toNat ≤ 6 := hreg (by rw [row_pattern, hop]; rfl)
    rwa [argField_encode] at harg

end Sys2Proof
end

section
/-! HSER writes the header (30_encoding.md R97, 44_header_codec.md R181). -/

namespace Sys2Proof.Machine

open Sys2Proof

/-- The bytes of the symbol in place `i` stand in places `2 i` and `2 i + 1` of a header (R97). -/
theorem headerOf_getElem? (freq : Symbol → Count) {syms : List Symbol} {i : Nat} {x : Symbol} (h : syms[i]? = some x) :
    (headerOf freq syms)[2 * i]? = some (hiByte (freq x)) ∧
      (headerOf freq syms)[2 * i + 1]? = some (loByte (freq x)) := by
  induction syms generalizing i with
  | nil => simp at h
  | cons y rest ih =>
    have hcons : headerOf freq (y :: rest) = hiByte (freq y) :: loByte (freq y) :: headerOf freq rest := rfl
    rw [hcons]
    cases i with
    | zero =>
      cases h
      exact ⟨rfl, rfl⟩
    | succ k => exact ih (by simpa using h)

/-- The symbol with number `x` stands in place `x` of the ascending order. -/
theorem allSymbols_getElem?_toNat (x : Symbol) : allSymbols[x.toNat]? = some x := by
  rw [List.getElem?_eq_getElem (by simpa using x.isLt), allSymbols_getElem, BitVec.ofNat_toNat, BitVec.setWidth_eq]

/-- HSER on a table with a HOUT that serves 512 requests (R181). -/
theorem exec_hser_ok {s : State} (hf : s.core.fault = false) (hi : s.core.ti = true)
    (hp : noFailure 512 s.ports.hout.plan) : exec .hser s =
      .next (State.answering 512#24 (s.withHout (s.ports.hout.wrote (headerOf s.core.count allSymbols)))) := by
  have hlen : (headerOf s.core.count allSymbols).length = 512 := by simp
  rw [exec_eq_runBody, runBody_of_noFault _ _ hf]
  simp only [bodyOf, hserBody, hi, require_true]
  rw [hserLoop_eq_emitBytes, emitBytes_ok _ (by rwa [hlen])]
  rfl

/-- Settles O25: the block is the header of the table over all symbols in order. -/
theorem hserWritesTheHeader : Obligations.HserWritesTheHeader := by
  refine ⟨decodeInvertsEncode .hser rfl, fun s hf hi hp => ?_⟩
  refine ⟨headerOf s.core.count allSymbols, by simp, fun x => ?_, exec_hser_ok hf hi hp⟩
  exact headerOf_getElem? s.core.count (allSymbols_getElem?_toNat x)

end Sys2Proof.Machine
end

section
/-! Every command word is answered once (30_encoding.md R95). -/

namespace Sys2Proof.Machine

open Sys2Proof

/-- The numbers of the response codes are 0 to 10 (R221). -/
theorem Code.bits_le (e : Code) : e.bits.toNat ≤ 0x0A := by cases e <;> decide

/-- `t` has the host's moves of `s` and one response more, whose value is 0 unless its code is OK (R95). -/
def AnsweredOnce (s t : State) : Prop :=
  t.inbox = s.inbox ∧ ∃ (e : BitVec 8) (v : Weight), t.responses = s.responses ++ [e ++ v] ∧ e.toNat ≤ 0x0A ∧
    (e ≠ 0x00#8 → v = 0#24)

/-- A completed body is answered OK with its value. -/
theorem answeredOnce_answering {s u : State} (v : Weight) (hi : u.inbox = s.inbox) (hr : u.responses = s.responses) :
    AnsweredOnce s (u.answering v) :=
  ⟨hi, 0x00#8, v, by rw [← hr]; rfl, by decide, fun h => absurd rfl h⟩

/-- A fault is answered with its code and 0. -/
theorem answeredOnce_raise {s u : State} (w : CmdWord) (e : Code) (hi : u.inbox = s.inbox)
    (hr : u.responses = s.responses) : AnsweredOnce s (raise w e u) :=
  ⟨hi, e.bits, 0#24, by rw [raise_responses, hr], e.bits_le, fun _ => rfl⟩

/-- A body that touches neither the responses nor the host's moves is answered once, behind the FAULT gate or by it. -/
theorem runBody_answeredOnce {w : CmdWord} {b : State → Result Weight} {s t : State}
    (hb : (b s).Ends fun u => u.responses = s.responses ∧ u.inbox = s.inbox) (h : runBody w b s = .next t) :
    AnsweredOnce s t := by
  rcases runBody_next h with ⟨-, rfl⟩ | ⟨-, v, u, hu, rfl⟩ | ⟨-, e, u, hu, rfl⟩
  · exact ⟨rfl, 0x02#8, 0#24, rfl, by decide, fun _ => rfl⟩
  · rw [hu] at hb
    exact answeredOnce_answering v hb.2 hb.1
  · rw [hu] at hb
    exact answeredOnce_raise w e hb.2 hb.1

/-- A command word that is handled, legal or not, is answered once (R231). -/
theorem handle_answeredOnce {c : CmdWord} {s t : State} (h : handle c s = .next t) : AnsweredOnce s t := by
  cases hd : decode c with
  | error r =>
    rw [handle_of_illegal hd] at h
    exact runBody_answeredOnce (b := illegalBody) ⟨rfl, rfl⟩ h
  | ok i =>
    rw [handle_of_decode hd, exec_eq_runBody] at h
    exact runBody_answeredOnce ((bodyOf_ends i s).mono fun _ hu => hu.host) h

/-- Settles O41: the step takes the word from the host's moves, and handling it answers it once. -/
theorem oneResponsePerCommand : Obligations.OneResponsePerCommand := by
  intro s t c rest h
  rw [step_inbox_cons, takeMove_command] at h
  exact handle_answeredOnce h

end Sys2Proof.Machine
end

section
/-! The Frequency Table commands (40_freq_table.md R120 to R124): what FCLR, FINC and FRD answer in each case, and what
a whole scan leaves in the table. -/

namespace Sys2Proof.Machine

open Sys2Proof

/-! ## A command by its body's end -/

/-- The word of a command as the numbers of R93 put it. -/
theorem encode_eq_wordOf (i : Instr) : encode i = wordOf i.op.toNat i.arg := by
  apply BitVec.eq_of_toNat_eq
  have hop := i.op.isLt
  have harg := i.arg.isLt
  rw [encode, BitVec.toNat_append, ← Nat.shiftLeft_add_eq_or_of_lt harg, Nat.shiftLeft_eq, wordOf, BitVec.toNat_ofNat]
  omega

/-- With FAULT = 0 a body that completes is answered OK with its value (R95). -/
theorem exec_of_done {i : Instr} {s u : State} {v : Weight} (hf : s.core.fault = false) (h : bodyOf i s = .done v u) :
    exec i s = .next (u.answering v) := by
  rw [exec_eq_runBody, runBody_of_noFault _ _ hf, h, finish_done]

/-- With FAULT = 0 a body that raises before it has done anything leaves the fault entry alone (R232). -/
theorem exec_of_raised {i : Instr} {s : State} {e : Code} (hf : s.core.fault = false) (h : bodyOf i s = .raised e s) :
    exec i s = .next (s.faulting (wordOf i.op.toNat i.arg) e.bits) := by
  rw [exec_eq_runBody, runBody_of_noFault _ _ hf, h, finish_raised, raise_of_noFault _ _ hf, encode_eq_wordOf]

/-! ## The three bodies, case by case -/

theorem clearTable_eq_withTable (c : CoreState) :
    c.clearTable = c.withTable (Vector.replicate 256 0#16) 0#24 true false := rfl

theorem countOne_eq_withTable (c : CoreState) (x : Symbol) : c.countOne x =
    c.withTable (c.freq.set x.toNat (c.count x + 1#16) x.isLt) (c.total + 1#24) c.ti false := rfl

/-- FINC changes the one entry (R122). -/
theorem count_countOne (c : CoreState) (x y : Symbol) :
    (c.countOne x).count y = if x = y then c.count x + 1#16 else c.count y :=
  count_setCount c x y (c.count x + 1#16)

theorem fincBody_noTable {x : Symbol} {s : State} (hi : s.core.ti = false) : fincBody x s = .raised .noTable s := by
  rw [fincBody, hi, require_false]

theorem fincBody_overflow {x : Symbol} {s : State} (hi : s.core.ti = true) (hx : s.core.count x = 0xFFFF#16) :
    fincBody x s = .raised .countOvf s := by
  rw [fincBody, hi, require_true, bne_eq_false_iff_eq.mpr hx, require_false]

theorem fincBody_counts {x : Symbol} {s : State} (hi : s.core.ti = true) (hx : s.core.count x ≠ 0xFFFF#16) :
    fincBody x s = .done (zext24 (s.core.count x + 1#16)) { s with core := s.core.countOne x } := by
  rw [fincBody, hi, require_true, bne_iff_ne.mpr hx, require_true, count_countOne, if_pos rfl]

theorem frdBody_noTable {x : Symbol} {s : State} (hi : s.core.ti = false) : frdBody x s = .raised .noTable s := by
  rw [frdBody, hi, require_false]

theorem frdBody_reads {x : Symbol} {s : State} (hi : s.core.ti = true) :
    frdBody x s = .done (zext24 (s.core.count x)) s := by
  rw [frdBody, hi, require_true]

/-! ## The three commands -/

/-- FCLR with FAULT = 0 (R120). -/
theorem exec_fclr {s : State} (hf : s.core.fault = false) :
    exec .fclr s = .next (State.answering 0#24 { s with core := s.core.clearTable }) := exec_of_done hf rfl

/-- FINC below the limit (R122). -/
theorem exec_finc {x : Symbol} {s : State} (hf : s.core.fault = false) (hi : s.core.ti = true)
    (hx : s.core.count x ≠ 0xFFFF#16) : exec (.finc x) s =
      .next (State.answering (zext24 (s.core.count x + 1#16)) { s with core := s.core.countOne x }) :=
  exec_of_done hf (fincBody_counts hi hx)

/-- Settles O5: the FAULT gate, or the cleared table. -/
theorem fclrClearsTheTable : Obligations.FclrClearsTheTable := by
  refine ⟨decodeInvertsEncode .fclr rfl, fun s => ⟨fun hf => ?_, fun hf => exec_closed hf rfl⟩⟩
  rw [← clearTable_eq_withTable]
  exact exec_fclr hf

/-- Settles O6: the FAULT gate, the two checks of R122 and R123 in their order, or the count. -/
theorem fincCountsOneOccurrence : Obligations.FincCountsOneOccurrence := by
  refine fun x => ⟨?_, fun s => ⟨fun hf => exec_closed hf rfl, fun hf hi => ?_, fun hf hi hx => ?_,
    fun hf hi hx => ?_⟩⟩
  · exact encode_eq_wordOf (.finc x) ▸ decodeInvertsEncode (.finc x) rfl
  · exact exec_of_raised (i := .finc x) hf (fincBody_noTable hi)
  · exact exec_of_raised (i := .finc x) hf (fincBody_overflow hi hx)
  · rw [exec_finc hf hi hx, countOne_eq_withTable, hi]
    rfl

/-- Settles O7: the FAULT gate, the check of R124, or the count. -/
theorem frdAnswersTheCount : Obligations.FrdAnswersTheCount := by
  refine fun x => ⟨?_, fun s => ⟨fun hf => exec_closed hf rfl,
    fun hf hi => exec_of_raised (i := .frd x) hf (frdBody_noTable hi),
    fun hf hi => exec_of_done hf (frdBody_reads hi)⟩⟩
  exact encode_eq_wordOf (.frd x) ▸ decodeInvertsEncode (.frd x) rfl

/-! ## The host's sequence of commands -/

/-- The code field of a response (R95). -/
@[simp] theorem rspCode_append (e : BitVec 8) (v : Weight) : rspCode (e ++ v) = e :=
  BitVec.extractLsb'_append_eq_left

/-- The host gets the response of a command that answers OK (R6, R95). -/
theorem issue_encode {i : Instr} {s u : State} {v : Weight} (hw : i.WellFormed)
    (h : exec i s = .next (u.answering v)) : issue (encode i) s = some (0x00#8 ++ v, u.answering v) := by
  have hstep : step (s.withCommand (encode i)) = .next (u.answering v) := by
    rw [State.withCommand, step_inbox_cons, takeMove_command, handle_of_decode (decodeInvertsEncode i hw), h]
  simp [issue, hstep, State.answering]

/-- A sequence goes on behind a command that answers OK (R212). -/
theorem issueAll_cons {i : Instr} {is : List Instr} {s u t : State} {v : Weight} {rs : List RspWord}
    (hw : i.WellFormed) (h : exec i s = .next (u.answering v)) (hrest : issueAll is (u.answering v) = some (rs, t)) :
    issueAll (i :: is) s = some ((0x00#8 ++ v) :: rs, t) := by
  simp [issueAll, issue_encode hw h, hrest]

/-! ## The scan -/

/-- `d` is the core `c` after FCLR and the FINCs of the bytes `seen` (R121). The sum of the table stands here beside
TOTAL because its range is what keeps TOTAL from wrapping (R23, R29). -/
structure Scanned (c : CoreState) (seen : List Byte) (d : CoreState) : Prop where
  frame : d = c.withTable d.freq d.total true false
  counts : ∀ x : Symbol, (d.count x).toNat = seen.count x
  total : d.total.toNat = seen.length
  sum : d.tableSum = seen.length

theorem Scanned.ti {c d : CoreState} {seen : List Byte} (h : Scanned c seen d) : d.ti = true := by
  rw [h.frame]; rfl

theorem Scanned.fault {c d : CoreState} {seen : List Byte} (h : Scanned c seen d) : d.fault = c.fault := by
  rw [h.frame]; rfl

/-- FCLR starts a scan (R120). -/
theorem Scanned.clearTable (c : CoreState) : Scanned c [] c.clearTable where
  frame := rfl
  counts x := by simp [CoreState.count, CoreState.clearTable]
  total := rfl
  sum := clearTable_tableSum c

/-- Below the limit of 65535 FINC takes one byte more into the scan (R122). -/
theorem Scanned.countOne {c d : CoreState} {seen : List Byte} {x : Byte} (h : Scanned c seen d)
    (hx : d.count x ≠ 0xFFFF#16) : Scanned c (seen ++ [x]) (d.countOne x) := by
  have hsum : (d.countOne x).tableSum = seen.length + 1 := by rw [countOne_tableSum hx, h.sum]
  have hroom : seen.length + 1 ≤ 16776960 := hsum ▸ tableSum_le (d.countOne x)
  refine ⟨?_, fun y => ?_, ?_, by simpa using hsum⟩
  · rw [countOne_eq_withTable, h.ti, h.frame]
    rfl
  · rw [count_countOne, List.count_append, List.count_singleton, ← h.counts y]
    by_cases e : x = y
    · subst e
      have hlt := (d.count x).isLt
      have hmax : (d.count x).toNat ≠ 65535 := fun e => hx (BitVec.eq_of_toNat_eq e)
      simp only [if_true, beq_self_eq_true]
      exact BitVec.toNat_add_of_lt (by simp; omega)
    · simp [e]
  · have hwrap : d.total.toNat + (1#24).toNat < 2 ^ 24 := by rw [h.total]; simp; omega
    calc (d.total + 1#24).toNat = d.total.toNat + (1#24).toNat := BitVec.toNat_add_of_lt hwrap
      _ = (seen ++ [x]).length := by simp [h.total]

/-- In a scan no FINC meets a full count while no byte value occurs more than 65535 times (R121, R123). -/
theorem Scanned.count_ne_max {c d : CoreState} {seen : List Byte} (h : Scanned c seen d) {x : Byte} {xs : List Byte}
    (hx : (seen ++ x :: xs).count x ≤ 65535) : d.count x ≠ 0xFFFF#16 := by
  intro hmax
  have hseen := h.counts x
  rw [hmax] at hseen
  rw [List.count_append, List.count_cons_self, ← hseen] at hx
  simp at hx

/-- The FINCs of a scan: every one is answered OK, and together they take their bytes into the scan (R121). -/
theorem issueAll_fincs {c : CoreState} (hc : c.fault = false) (xs : List Byte) {seen : List Byte} {s : State}
    (h : Scanned c seen s.core) (hxs : ∀ x : Byte, (seen ++ xs).count x ≤ 65535) :
    ∃ rs t, issueAll (xs.map .finc) s = some (rs, t) ∧ (∀ r ∈ rs, rspCode r = 0x00#8) ∧
      Scanned c (seen ++ xs) t.core ∧ t.ports = s.ports := by
  induction xs generalizing seen s with
  | nil => exact ⟨[], s, rfl, by simp, by simpa using h, rfl⟩
  | cons x xs ih =>
    have hx := h.count_ne_max (hxs x)
    have hexec := exec_finc (h.fault.trans hc) h.ti hx
    obtain ⟨rs, t, hrun, hok, hscan, hports⟩ :=
      ih (s := State.answering (zext24 (s.core.count x + 1#16)) { s with core := s.core.countOne x })
        (h.countOne hx) (by simpa using hxs)
    exact ⟨_, t, issueAll_cons rfl hexec hrun, by simpa using hok, by simpa using hscan, hports⟩

/-- Settles O8: FCLR starts the scan, and every FINC takes its byte into it. -/
theorem scanCountsOccurrences : Obligations.ScanCountsOccurrences := by
  intro xs s hf hxs
  obtain ⟨rs, t, hrun, hok, hscan, hports⟩ :=
    issueAll_fincs hf xs (s := State.answering 0#24 { s with core := s.core.clearTable })
      (Scanned.clearTable s.core) hxs
  exact ⟨_, t, t.core.freq, t.core.total, issueAll_cons rfl (exec_fclr hf) hrun,
    List.forall_mem_cons.mpr ⟨rspCode_append _ _, hok⟩, hscan.frame, hscan.counts, hscan.total, hports⟩

end Sys2Proof.Machine
end

section
/-! BUILD's queue (41_build.md R143): the key order, and the element that `extract_min` takes out. -/

namespace Sys2Proof.Machine

open Sys2Proof

/-- The order of Q on numbers: weight first, then the index (R143). -/
theorem before_iff {x y : QEntry} :
    x.before y = true ↔ x.w.toNat < y.w.toNat ∨ (x.w.toNat = y.w.toNat ∧ x.n.toNat < y.n.toNat) := by
  simp [QEntry.before, BitVec.lt_def, BitVec.toNat_inj]

theorem before_trans {x y z : QEntry} (hxy : x.before y = true) (hyz : y.before z = true) : x.before z = true := by
  rw [before_iff] at *
  omega

/-- Of two elements with distinct indices one comes before the other (R143). -/
theorem before_of_not_before {x y : QEntry} (hne : x.n ≠ y.n) (h : ¬ x.before y = true) : y.before x = true := by
  have hn : x.n.toNat ≠ y.n.toNat := fun e => hne (BitVec.eq_of_toNat_eq e)
  rw [before_iff] at *
  omega

/-- The element taken out comes before every one of the rest (R143). -/
theorem extractMin_before {q rest : List QEntry} {x : QEntry} (h : extractMin q = some (x, rest))
    (hd : (q.map QEntry.n).Nodup) : ∀ y ∈ rest, x.before y = true := by
  induction q generalizing x rest with
  | nil => cases h
  | cons z tail ih =>
    rw [List.map_cons, List.nodup_cons] at hd
    obtain ⟨hz, htail⟩ := hd
    simp only [extractMin] at h
    split at h
    · cases h
      simp
    · rename_i m others hm
      have hperm := extractMin_perm hm
      have hfirst := ih hm htail
      split at h <;> rename_i hzm <;> cases h
      · intro y hy
        rcases List.mem_cons.mp (hperm.mem_iff.mp hy) with rfl | hy
        · exact hzm
        · exact before_trans hzm (hfirst y hy)
      · have hne : z.n ≠ x.n := fun e => hz (e ▸ List.mem_map_of_mem (hperm.mem_iff.mpr List.mem_cons_self))
        exact List.forall_mem_cons.mpr ⟨before_of_not_before hne hzm, hfirst⟩

/-- Settles O11: an element comes out of every queue but the empty one, and it comes before the rest. -/
theorem extractMinTakesTheFirst : Obligations.ExtractMinTakesTheFirst := by
  refine fun q hd => ⟨extractMin_eq_none.mpr, fun hq => ?_⟩
  obtain ⟨⟨x, rest⟩, h⟩ := Option.ne_none_iff_exists'.mp (mt extractMin_eq_none.mp hq)
  exact ⟨x, rest, h, extractMin_perm h, fun y hy => before_iff.mp (extractMin_before h hd y hy)⟩

end Sys2Proof.Machine
end

section
/-! In which order BUILD makes its internal nodes (41_build.md R143, R144, R149): of the two nodes that come first among
those without a parent. -/

namespace Sys2Proof.Machine

open Sys2Proof

/-- The children of `nd`, the internal node with index `i`, are in the order of R143, the zero-child first, and every
other node that was there without a parent when `nd` was made comes after them. A node got its parent after `i` was
made, or has none yet, exactly when its parent link is above `i`. -/
structure MadeOfFirstTwo (node : Vector Node 511) (i : Nat) (nd : Node) : Prop where
  order : ∀ zd ∈ node[nd.zero.toNat]?, ∀ od ∈ node[nd.one.toNat]?, KeyBefore nd.zero.toNat zd nd.one.toNat od
  first : ∀ od ∈ node[nd.one.toNat]?, ∀ m < i, ∀ md ∈ node[m]?, i < md.parent.toNat → KeyBefore nd.one.toNat od m md

/-- Every internal node so far was made of the two that came first (R144). -/
def MadeInOrder (c : CoreState) (b : BuildState) : Prop :=
  ∀ i, c.present.length ≤ i → i < b.n → ∀ nd ∈ b.node[i]?, MadeOfFirstTwo b.node i nd

/-- The load phase makes leaves alone (R142). -/
theorem madeInOrder_loaded (c : CoreState) : MadeInOrder c c.loaded := fun i hL hi => by
  rw [loaded_n] at hi
  omega

namespace Forest

variable {c : CoreState} {b : BuildState} {x y : QEntry} {q1 q2 : List QEntry}

/-- The order of Q is the order of the records its elements stand for (R143). -/
theorem keyBefore_of_before (F : Forest c b) {e f : QEntry} (he : e ∈ b.q) (hf : f ∈ b.q) (h : e.before f = true)
    {ed fd : Node} (hed : ed ∈ b.node[e.n.toNat]?) (hfd : fd ∈ b.node[f.n.toNat]?) :
    KeyBefore e.n.toNat ed f.n.toNat fd := by
  obtain ⟨-, ed', hed', hew, -⟩ := F.queued e he
  obtain ⟨-, fd', hfd', hfw, -⟩ := F.queued f hf
  cases hed.symm.trans hed'
  cases hfd.symm.trans hfd'
  rw [KeyBefore, hew, hfw]
  exact before_iff.mp h

section
variable (F : Forest c b) (hq : b.q.Perm (x :: y :: q2))
include F hq

/-- A later merge leaves the children of an older node where they were in the order: it changes parents alone, from NIL
to the newest index. -/
theorem madeOfFirstTwo_old {i : Nat} (hi : i < b.n) {nd : Node} (hinner : InnerNode b.node i nd)
    (h : MadeOfFirstTwo b.node i nd) :
    MadeOfFirstTwo (mergeStep x y q2 b).node i (nd.adopted x y (BitVec.ofNat 9 b.n) i) := by
  have hroom := F.room hq
  constructor
  · intro zd' hzd' od' hod'
    obtain ⟨zd, hzd, rfl⟩ := mergeStep_old_record (hinner.zero_lt.trans hi) hzd'
    obtain ⟨od, hod, rfl⟩ := mergeStep_old_record (hinner.one_lt.trans hi) hod'
    exact h.order zd hzd od hod
  · intro od' hod' m hm md' hmd' hp
    obtain ⟨od, hod, rfl⟩ := mergeStep_old_record (hinner.one_lt.trans hi) hod'
    obtain ⟨md, hmd, rfl⟩ := mergeStep_old_record (hm.trans hi) hmd'
    refine h.first od hod m hm md hmd ?_
    by_cases hc : x.n.toNat = m ∨ y.n.toNat = m
    · rw [F.no_parent_of_merged hq hc hmd, nil_toNat]
      omega
    · rwa [adopted_parent_other hc] at hp

end

/-- The node a merge makes is made of the two elements that come first in Q (R143, R144). -/
theorem madeOfFirstTwo_new (F : Forest c b) (hx : extractMin b.q = some (x, q1)) (hy : extractMin q1 = some (y, q2)) :
    MadeOfFirstTwo (mergeStep x y q2 b).node b.n
      { w := x.w + y.w, sym := none, zero := x.n, one := y.n, parent := Config.nil } := by
  have hq1 := extractMin_perm hx
  have hq : b.q.Perm (x :: y :: q2) := hq1.trans ((extractMin_perm hy).cons x)
  have hd1 : (q1.map QEntry.n).Nodup := ((hq1.map QEntry.n).nodup_iff.mp F.distinct).of_cons
  have hxq : x ∈ b.q := hq.mem_iff.mpr (by simp)
  have hyq : y ∈ b.q := hq.mem_iff.mpr (by simp)
  constructor
  · intro zd' hzd' od' hod'
    obtain ⟨zd, hzd, rfl⟩ := mergeStep_old_record (F.first_lt hq) hzd'
    obtain ⟨od, hod, rfl⟩ := mergeStep_old_record (F.second_lt hq) hod'
    have hxy : x.before y = true :=
      extractMin_before hx F.distinct y ((extractMin_perm hy).mem_iff.mpr List.mem_cons_self)
    have hkey := F.keyBefore_of_before hxq hyq hxy hzd hod
    exact hkey
  · intro od' hod' m hm md' hmd' hp
    obtain ⟨od, hod, rfl⟩ := mergeStep_old_record (F.second_lt hq) hod'
    obtain ⟨md, hmd, rfl⟩ := mergeStep_old_record hm hmd'
    by_cases hc : x.n.toNat = m ∨ y.n.toNat = m
    · rw [adopted_parent_child hc, F.newIdx_toNat hq] at hp
      exact absurd hp (lt_irrefl _)
    · rw [adopted_parent_other hc] at hp
      rcases F.parents_of_other hq hm hc hmd with hlt | ⟨e, he, rfl⟩
      · exact absurd hp (lt_asymm hlt)
      · have heq : e ∈ b.q := hq.mem_iff.mpr (by simp [he])
        have hkey := F.keyBefore_of_before hyq heq (extractMin_before hy hd1 e he) hod hmd
        exact hkey

/-- A merge keeps the order (R144). -/
theorem madeInOrder_merge (F : Forest c b) (M : MadeInOrder c b) (hx : extractMin b.q = some (x, q1))
    (hy : extractMin q1 = some (y, q2)) : MadeInOrder c (mergeStep x y q2 b) := by
  have hq : b.q.Perm (x :: y :: q2) := (extractMin_perm hx).trans ((extractMin_perm hy).cons x)
  intro i hL hi nd hnd
  rcases Nat.lt_succ_iff_lt_or_eq.mp hi with hi | rfl
  · obtain ⟨od, hod, rfl⟩ := mergeStep_old_record hi hnd
    exact F.madeOfFirstTwo_old hq hi (F.inner i hL hi od hod) (M i hL hi od hod)
  · obtain rfl := F.new_record hq hnd
    exact F.madeOfFirstTwo_new hx hy

end Forest

/-- The whole merge phase keeps the order (R144, R145). -/
theorem madeInOrder_merged (c : CoreState) (hp : c.present ≠ []) : MadeInOrder c c.merged :=
  (mergePhase_keeps (I := fun b => Forest c b ∧ MadeInOrder c b)
    (fun _ _ _ _ _ ⟨F, M⟩ hx hy =>
      ⟨F.merge ((extractMin_perm hx).trans ((extractMin_perm hy).cons _)), F.madeInOrder_merge M hx hy⟩)
    _ ⟨forest_loaded c hp, madeInOrder_loaded c⟩).2

/-- A BUILD that made a leaf holds the forest of its merge phase (R141). -/
theorem built_of_leaf {c : CoreState} (h : 1 ≤ c.built.nleaf.toNat) : c.present ≠ [] ∧
    c.built.node = c.merged.node ∧ c.built.nleaf.toNat = c.present.length ∧ c.built.nnodes.toNat = c.merged.n := by
  have hlen := built_nleaf c
  rw [← present_length] at hlen
  have hp : c.present ≠ [] := List.length_pos_iff.mp (by omega)
  obtain ⟨F, e, he⟩ := forest_merged c hp
  refine ⟨hp, ?_, hlen, ?_⟩ <;> rw [built_of_present hp he]
  exact idx_toNat F.n_lt

/-- BUILD answers, with the built core (R141). -/
theorem exec_build_core {s : State} (hf : s.core.fault = false) (hi : s.core.ti = true) :
    ∃ t, exec .build s = .next t ∧ t.core = s.core.built := ⟨_, exec_build hf hi, rfl⟩

theorem core_of_exec_build {s t : State} (hf : s.core.fault = false) (hi : s.core.ti = true)
    (h : exec .build s = .next t) : t.core = s.core.built := by
  obtain ⟨u, hu, hcore⟩ := exec_build_core hf hi
  cases hu.symm.trans h
  exact hcore

/-- Settles O10: the order of creation that every merge keeps, read off the finished tree. -/
theorem buildMergesTheTwoFirstNodes : Obligations.BuildMergesTheTwoFirstNodes := by
  intro s t hf hi h n hLn hL hn nd zd od hnd hzd hod
  rw [core_of_exec_build hf hi h] at hLn hL hn hnd hzd hod ⊢
  obtain ⟨hp, hnode, hleaf, hnodes⟩ := built_of_leaf hL
  rw [hleaf] at hLn
  rw [hnodes] at hn
  simp only [CoreState.nodeAt, hnode] at hnd hzd hod ⊢
  have F := (forest_merged _ hp).1
  have hmade := madeInOrder_merged _ hp n hLn hn nd hnd
  have hinner := F.inner n hLn hn nd hnd
  obtain ⟨zd', hzd', od', hod', hsum⟩ := hinner.weight
  cases hzd.symm.trans hzd'
  cases hod.symm.trans hod'
  exact ⟨hinner.zero_lt, hinner.one_lt, hinner.sym, hsum,
    (F.links n hn _ (hinner.zero_lt.trans hn) nd hnd zd hzd).mpr (.inl rfl),
    (F.links n hn _ (hinner.one_lt.trans hn) nd hnd od hod).mpr (.inr rfl),
    hmade.order zd hzd od hod, hmade.first od hod⟩

/-- A child of a node made after `m` weighs at least as much as the one-child of `m`, unless it was made no earlier
than `m` itself (R149). -/
theorem MadeOfFirstTwo.one_le {node : Vector Node 511} {m : Nat} {md : Node} (h : MadeOfFirstTwo node m md)
    {od : Node} (hod : od ∈ node[md.one.toNat]?) {k : Nat} (hk : k < m) {kd : Node} (hkd : kd ∈ node[k]?)
    (hp : m < kd.parent.toNat) : od.w.toNat ≤ kd.w.toNat := by
  have := h.first od hod k hk kd hkd hp
  rw [KeyBefore] at this
  omega

/-- The weights of the internal nodes do not decrease in order of creation (R149 (d)). A child of the later node that
was made after `m` weighs as much as `m` already; if both were there before `m`, each weighs at least as much as the
heavier child of `m`. -/
theorem Forest.weight_mono {c : CoreState} {b : BuildState} (F : Forest c b) (M : MadeInOrder c b) {m : Nat}
    (hm : c.present.length ≤ m) {md : Node} (hmd : md ∈ b.node[m]?) (n : Nat) (hmn : m < n) (hn : n < b.n) {nd : Node}
    (hnd : nd ∈ b.node[n]?) : md.w.toNat ≤ nd.w.toNat := by
  induction n using Nat.strong_induction_on generalizing nd with
  | _ n ih =>
    have hmade := M m hm (hmn.trans hn) md hmd
    have hinner := F.inner n (hm.trans hmn.le) hn nd hnd
    obtain ⟨zm, hzm, om, hom, hmsum⟩ := (F.inner m hm (hmn.trans hn) md hmd).weight
    obtain ⟨zn, hzn, on, hon, hnsum⟩ := hinner.weight
    have horder := hmade.order zm hzm om hom
    have child {k : Nat} (hk : k < n) {kd : Node} (hkd : kd ∈ b.node[k]?)
        (hlink : nd.zero.toNat = k ∨ nd.one.toNat = k) :
        md.w.toNat ≤ kd.w.toNat ∨ om.w.toNat ≤ kd.w.toNat := by
      rcases lt_trichotomy k m with hkm | rfl | hkm
      · have hparent := (F.links n hn k (hk.trans hn) nd hnd kd hkd).mpr hlink
        exact .inr (hmade.one_le hom hkm hkd (by omega))
      · cases hmd.symm.trans hkd
        exact .inl le_rfl
      · exact .inl (ih k hk hkm (hk.trans hn) hkd)
    have hzero := child hinner.zero_lt hzn (.inl rfl)
    have hone := child hinner.one_lt hon (.inr rfl)
    rw [KeyBefore] at horder
    omega

/-- Settles O15: the merge phase made its nodes in the order of R143. -/
theorem internalWeightsDoNotDecrease : Obligations.InternalWeightsDoNotDecrease := by
  intro s t hf hi h hL m n hLm hmn hn md nd hmd hnd
  rw [core_of_exec_build hf hi h] at hL hLm hn hmd hnd
  obtain ⟨hp, hnode, hleaf, hnodes⟩ := built_of_leaf hL
  rw [hleaf] at hLm
  rw [hnodes] at hn
  rw [hnode] at hmd hnd
  exact (forest_merged _ hp).1.weight_mono (madeInOrder_merged _ hp) hLm hmd n hmn hn hnd

end Sys2Proof.Machine
end

section
/-! BUILD as a function of the table (41_build.md R148), and on the two smallest tables (R146, R147). -/

namespace Sys2Proof.Machine

open Sys2Proof

/-! ## The leaf table -/

/-- A leaf table is determined by what it holds for every symbol. -/
theorem leaf_ext {c d : CoreState} (h : ∀ s, c.leafOf s = d.leafOf s) : c.leaf = d.leaf := by
  apply Vector.ext
  intro i hi
  have hs := h (BitVec.ofNat 8 i)
  simpa only [CoreState.leafOf, BitVec.toNat_ofNat, Nat.mod_eq_of_lt hi] using hs

theorem built_leafTable (c : CoreState) : LeafTable c c.built := by
  refine loaded_leafTable c ?_
  by_cases hp : c.present = []
  · rw [built_of_empty hp]
  · obtain ⟨e, he⟩ := (forest_merged c hp).2
    rw [built_of_present hp he]

/-- There is one leaf table for a table of counts (R142). -/
theorem LeafTable.unique {c d e : CoreState} (hd : LeafTable c d) (he : LeafTable c e) : d.leaf = e.leaf := by
  refine leaf_ext fun s => ?_
  by_cases hs : c.count s = 0#16
  · rw [hd.noLeaf s hs, he.noLeaf s hs]
  · obtain ⟨i, hi, rfl⟩ := List.getElem_of_mem (mem_present.mpr hs)
    rw [hd.leaf i hi, he.leaf i hi]

/-! ## A function of the table -/

theorem present_congr {c d : CoreState} (h : d.freq = c.freq) : d.present = c.present := by
  simp only [CoreState.present, count_congr h]

theorem leafRecord_congr {c d : CoreState} (h : d.freq = c.freq) (s : Symbol) : d.leafRecord s = c.leafRecord s := by
  simp only [CoreState.leafRecord, count_congr h]

theorem LeafTable.congr {c d e : CoreState} (h : d.freq = c.freq) (T : LeafTable d e) : LeafTable c e where
  leaf := by simpa only [present_congr h] using T.leaf
  noLeaf := by simpa only [count_congr h] using T.noLeaf

/-- Two states of a BUILD with the same queue and the same records so far, whatever stands in the rest of the arena. -/
structure SameNodes (b d : BuildState) : Prop where
  n : d.n = b.n
  q : d.q = b.q
  nodes : ∀ i < b.n, d.node[i]? = b.node[i]?

/-- A merge reads no record but those made so far (R141). -/
theorem SameNodes.merge {b d : BuildState} (h : SameNodes b d) (x y : QEntry) (q : List QEntry) :
    SameNodes (mergeStep x y q b) (mergeStep x y q d) where
  n := by rw [mergeStep_n, mergeStep_n, h.n]
  q := by rw [mergeStep_q, mergeStep_q, h.n]
  nodes i hi := by
    rcases Nat.lt_succ_iff_lt_or_eq.mp hi with hi | rfl
    · rw [mergeStep_node_old x y q d (h.n ▸ hi.ne), mergeStep_node_old x y q b hi.ne, h.nodes i hi, h.n]
    · simp only [mergeStep, getElem?_setParent, h.n, Vector.getElem?_setIfInBounds, if_true]

theorem SameNodes.mergePhase {b d : BuildState} (h : SameNodes b d) (fuel : Nat) :
    SameNodes (mergePhase fuel b) (mergePhase fuel d) := by
  induction fuel generalizing b d with
  | zero => exact h
  | succ k ih =>
    simp only [Machine.mergePhase, h.q]
    cases extractMin b.q with
    | none => exact h
    | some xq =>
      simp only
      cases extractMin xq.2 with
      | none => exact h
      | some yq => exact ih (h.merge xq.1 yq.1 yq.2)

/-- The load phase makes the records and the queue of the table's counts alone (R142). -/
theorem sameNodes_loaded {c d : CoreState} (h : d.freq = c.freq) : SameNodes c.loaded d.loaded := by
  have hc := loaded_loadedAs c
  have hd := loaded_loadedAs d
  have hp := present_congr h
  constructor
  · rw [hc.count, hd.count, hp]
  · simp only [hc.queue, hd.queue, hp, count_congr h]
  · intro i hi
    rw [hc.count] at hi
    rw [hc.nodes i hi, hd.nodes i (hp ▸ hi), leafRecord_congr h]
    simp only [hp]

theorem sameNodes_merged {c d : CoreState} (h : d.freq = c.freq) : SameNodes c.merged d.merged := by
  have hl := sameNodes_loaded h
  rw [CoreState.merged, CoreState.merged, hl.q]
  exact hl.mergePhase _

/-- The cores agree on the tree: its registers, the leaf table and the nodes below NNODES (R148). -/
structure SameBuild (c d : CoreState) : Prop where
  nleaf : d.nleaf = c.nleaf
  nnodes : d.nnodes = c.nnodes
  root : d.root = c.root
  leaf : d.leaf = c.leaf
  nodes : ∀ n < c.nnodes.toNat, d.node[n]? = c.node[n]?

/-- R148: BUILD's tree is a function of the table. -/
theorem built_congr {c d : CoreState} (h : d.freq = c.freq) : SameBuild c.built d.built := by
  have hleaf : d.built.leaf = c.built.leaf := ((built_leafTable d).congr h).unique (built_leafTable c)
  have hp := present_congr h
  by_cases hc : c.present = []
  · have hbc := built_of_empty hc
    have hbd := built_of_empty (hp.trans hc)
    refine ⟨by rw [hbd, hbc], by rw [hbd, hbc], by rw [hbd, hbc], hleaf, fun n hn => ?_⟩
    rw [hbc] at hn
    obtain rfl : n = 0 := Nat.lt_one_iff.mp hn
    simp [hbd, hbc]
  · obtain ⟨F, e, he⟩ := forest_merged c hc
    have hm := sameNodes_merged h
    have hbc := built_of_present hc he
    have hbd := built_of_present (hp ▸ hc) (hm.q.trans he)
    refine ⟨by rw [hbd, hbc, hp], by rw [hbd, hbc, hm.n], by rw [hbd, hbc], hleaf, fun n hn => ?_⟩
    rw [hbc] at hn
    rw [hbd, hbc]
    exact hm.nodes n (hn.trans_eq (idx_toNat F.n_lt))

/-- R148: a second BUILD rewrites the same values. -/
theorem built_built (c : CoreState) : c.built.built = c.built := by
  have hfreq : c.built.freq = c.freq := by rw [built_frame]
  have htv : c.built.tv = true := by rw [built_frame]
  have h := built_congr hfreq
  have hnode : c.built.built.node = c.built.node := by
    have hread (n : Nat) : c.built.built.node[n]? = c.built.node[n]? := by
      by_cases hn : n < c.built.nnodes.toNat
      · exact h.nodes n hn
      · refine built_node_above c.built ?_
        rw [h.nnodes]
        exact Nat.le_of_not_lt hn
    exact Vector.ext fun n hn => by simpa [hn] using hread n
  rw [built_frame c.built, hnode, h.leaf, h.nleaf, h.nnodes, h.root, ← htv]

/-- Settles O14: both answer, and the built cores agree by their tables. -/
theorem buildDependsOnTheTableAlone : Obligations.BuildDependsOnTheTableAlone := by
  intro s t hfs hft his hit hfreq
  obtain ⟨s1, hs1, hc1⟩ := exec_build_core hfs his
  obtain ⟨t1, ht1, hd1⟩ := exec_build_core hft hit
  have hf1 : s1.core.fault = false := by rw [hc1, built_frame]; exact hfs
  have hi1 : s1.core.ti = true := by rw [hc1, built_frame]; exact his
  obtain ⟨s2, hs2, hc2⟩ := exec_build_core hf1 hi1
  have h : SameBuild t1.core s1.core := by rw [hc1, hd1]; exact built_congr hfreq
  have hagain : s2.core = s1.core := by rw [hc2, hc1, built_built]
  exact ⟨s1, t1, s2, hs1, ht1, hs2, h.nleaf, h.nnodes, h.root, h.leaf,
    fun n hn => h.nodes n (h.nnodes ▸ hn), hagain⟩

/-! ## The two smallest tables -/

/-- STATUS shows EMPTY in bit 2 (R28). -/
theorem status_getLsbD_two (c : CoreState) : c.status.getLsbD 2 = c.empty := by
  simp only [CoreState.status, BitVec.getLsbD_append]
  simp

/-- STATUS shows SINGLE in bit 3 (R28). -/
theorem status_getLsbD_three (c : CoreState) : c.status.getLsbD 3 = c.single := by
  simp only [CoreState.status, BitVec.getLsbD_append]
  simp

theorem present_eq_nil {c : CoreState} (h : ∀ s, c.count s = 0#16) : c.present = [] :=
  List.eq_nil_iff_forall_not_mem.mpr fun s hs => mem_present.mp hs (h s)

/-- R146: BUILD on an all-zero table. -/
theorem built_of_zeros {c : CoreState} (h : ∀ s, c.count s = 0#16) : c.built =
    { c with node := c.node.set 0 placeholderRoot, leaf := Vector.replicate 256 Config.nil, nleaf := 0#9,
             nnodes := 1#9, root := 0#9, tv := true } := by
  have hp := present_eq_nil h
  have T : LeafTable c { c with leaf := Vector.replicate 256 Config.nil } :=
    ⟨fun i hi => by simp [hp] at hi, fun s _ => by simp [CoreState.leafOf]⟩
  have hleaf := (built_leafTable c).unique T
  rw [built_of_empty hp] at hleaf ⊢
  simp only at hleaf
  rw [hleaf]

/-- R163: without a leaf for the symbol ENC raises E_NOLEAF. -/
theorem encBody_noLeaf {x : Symbol} {s : State} (hv : s.core.tv = true) (hx : s.core.leafOf x = Config.nil) :
    encBody x s = .raised .noLeaf s := by
  rw [encBody, hv, require_true, bne_eq_false_iff_eq.mpr hx, require_false]

/-- R173: on the placeholder root DEC raises E_EMPTY. -/
theorem decBody_empty {s : State} (hv : s.core.tv = true) (hl : s.core.nleaf = 0#9) :
    decBody s = .raised .empty s := by
  rw [decBody, hv, require_true, bne_eq_false_iff_eq.mpr hl, require_false]

/-- Settles O12: the built core is written out, and ENC and DEC fail its checks. -/
theorem buildOnZeroTableMakesPlaceholder : Obligations.BuildOnZeroTableMakesPlaceholder := by
  intro s hf hi hzero
  have hbuild := exec_build hf hi
  rw [built_of_zeros hzero] at hbuild
  refine ⟨_, rfl, hbuild, ?_, fun x => ?_, ?_⟩
  · rw [status_getLsbD_two]
    rfl
  · refine exec_of_raised (i := .enc x) ?_ (encBody_noLeaf ?_ ?_)
    · exact hf
    · rfl
    · simp [State.answering, CoreState.leafOf]
  · refine exec_of_raised (i := .dec) ?_ (decBody_empty ?_ ?_)
    · exact hf
    · rfl
    · rfl

theorem present_eq_singleton {c : CoreState} {sym : Symbol} (hs : c.count sym ≠ 0#16)
    (h : ∀ x, x ≠ sym → c.count x = 0#16) : c.present = [sym] := by
  have hd : c.present.Nodup := (present_pairwise_lt c).imp BitVec.ne_of_lt
  refine List.perm_singleton.mp ((List.perm_ext_iff_of_nodup hd (List.nodup_singleton sym)).mpr fun x => ?_)
  rw [mem_present, List.mem_singleton]
  exact ⟨fun hx => by_contra fun hne => hx (h x hne), fun e => e ▸ hs⟩

/-- R147: with one leaf in Q the merge phase makes no pass. -/
theorem merged_of_singleton {c : CoreState} {sym : Symbol} (hp : c.present = [sym]) :
    c.merged = c.loaded ∧ c.loaded.q = [{ w := zext24 (c.count sym), n := 0#9 }] := by
  have hq : c.loaded.q = [{ w := zext24 (c.count sym), n := 0#9 }] := by
    rw [(loaded_loadedAs c).queue, hp]
    rfl
  exact ⟨mergePhase_of_short (by simp [hq]) _, hq⟩

/-- R142: the arena with one leaf. -/
theorem loaded_node_of_singleton {c : CoreState} {sym : Symbol} (hp : c.present = [sym]) :
    c.loaded.node = c.node.set 0 (c.leafRecord sym) := by
  have h := loaded_loadedAs c
  rw [hp] at h
  have hread (i : Nat) : c.loaded.node[i]? = (c.node.set 0 (c.leafRecord sym))[i]? := by
    cases i with
    | zero => simpa using h.nodes 0 (by simp)
    | succ k =>
      rw [Vector.getElem?_set_ne _ (Nat.succ_ne_zero k).symm]
      exact h.above (k + 1) (by simp)
  exact Vector.ext fun i hi => by simpa [hi] using hread i

/-- R142: the leaf table with one leaf. -/
theorem leafTable_of_singleton {c : CoreState} {sym : Symbol} (hp : c.present = [sym]) :
    LeafTable c { c with leaf := (Vector.replicate 256 Config.nil).set sym.toNat 0#9 sym.isLt } where
  leaf i hi := by
    rw [hp, List.length_singleton, Nat.lt_one_iff] at hi
    subst hi
    simp [CoreState.leafOf, hp]
  noLeaf s hs := by
    have hne : sym.toNat ≠ s.toNat := fun e =>
      mem_present.mp (hp ▸ List.mem_singleton_self sym) (BitVec.eq_of_toNat_eq e ▸ hs)
    simp [CoreState.leafOf, hne]

/-- R147: BUILD on a one-symbol table. -/
theorem built_of_singleton {c : CoreState} {sym : Symbol} (hp : c.present = [sym]) : c.built =
    { c with node := c.node.set 0 (c.leafRecord sym)
             leaf := (Vector.replicate 256 Config.nil).set sym.toNat 0#9 sym.isLt
             nleaf := 1#9, nnodes := 1#9, root := 0#9, tv := true } := by
  obtain ⟨hmerged, hq⟩ := merged_of_singleton hp
  have hleaf := (built_leafTable c).unique (leafTable_of_singleton hp)
  rw [built_of_present (by simp [hp]) (hmerged ▸ hq), hmerged] at hleaf ⊢
  simp only at hleaf
  rw [hleaf, loaded_node_of_singleton hp, loaded_n, hp]
  rfl

/-- R161, R164: ENC of a symbol whose leaf has no parent emits nothing. -/
theorem encBody_rootLeaf {x : Symbol} {s : State} {nd : Node} (hv : s.core.tv = true)
    (hx : s.core.leafOf x ≠ Config.nil) (hnd : s.core.nodeAt (s.core.leafOf x) = some nd)
    (hp : nd.parent = Config.nil) : encBody x s = .done 0#24 s := by
  have hcode : s.core.codeOf x = .ok [] := by
    unfold CoreState.codeOf walkUp
    simp only [hnd, hp, if_true]
  rw [encBody, hv, require_true, bne_iff_ne.mpr hx, require_true, hcode]
  rfl

/-- Settles O13: the built core is written out, and ENC finds the leaf at the root. -/
theorem buildOnOneSymbolMakesOneLeaf : Obligations.BuildOnOneSymbolMakesOneLeaf := by
  intro s sym hf hi hs hother
  have hbuild := exec_build hf hi
  rw [built_of_singleton (present_eq_singleton hs hother)] at hbuild
  refine ⟨_, rfl, hbuild, ?_, ?_⟩
  · rw [status_getLsbD_three]
    rfl
  · refine exec_of_done ?_ (encBody_rootLeaf (nd := s.core.leafRecord sym) ?_ ?_ ?_ ?_)
    · exact hf
    · rfl
    · simp [State.answering, CoreState.leafOf, Config.nil]
    · simp [State.answering, CoreState.leafOf, CoreState.nodeAt, CoreState.leafRecord, zext24, Config.nil]
    · rfl

end Sys2Proof.Machine
end

section
/-! ENC emits the code of its symbol (42_encode.md R161 to R165), and DEC reads it back (R166). -/

namespace Sys2Proof.Machine

open Sys2Proof

/-! ## ENC -/

/-- On a tree ENC of a symbol with a code emits that code and answers its length (R161, R162). -/
theorem encBody_of_isCode {s : State} {sym : Symbol} {bits : List Bool} (hv : s.core.tv = true) (T : TreeOk s.core)
    (h : IsCode s.core sym bits) : encBody sym s =
      (emitBits bits s).bind fun _ t => .done (BitVec.ofNat 24 bits.length) t := by
  rw [encBody, hv, require_true, bne_iff_ne.mpr h.1, require_true, (T.codeOf_eq h).1]

/-- The one leaf of a one-leaf tree is its root (R30, R35 (b)). -/
theorem TreeOk.leafOf_eq_root {c : CoreState} (T : TreeOk c) (h1 : c.nleaf = 1#9) {sym : Symbol}
    (hs : c.leafOf sym ≠ Config.nil) : c.leafOf sym = c.root := by
  have hleaf := (T.leafNode sym hs).1
  apply BitVec.eq_of_toNat_eq
  rcases T.sizes with ⟨h0, -, -⟩ | ⟨-, -, hnodes, hroot⟩
  · rw [h0] at h1
    cases h1
  · have hone : c.nleaf.toNat = 1 := congrArg BitVec.toNat h1
    omega

/-- With FAULT = 0 a body that raises in the state `u` leaves `u` with the fault entry (R232). -/
theorem exec_of_raised_in {i : Instr} {s u : State} {e : Code} (hs : s.core.fault = false)
    (h : bodyOf i s = .raised e u) (hu : u.core.fault = false) :
    exec i s = .next (u.faulting (wordOf i.op.toNat i.arg) e.bits) := by
  rw [exec_eq_runBody, runBody_of_noFault _ _ hs, h, finish_raised, raise_of_noFault _ _ hu, encode_eq_wordOf]

/-- Settles O33: the second check of R161 fails. -/
theorem absentSymbolRaisesNoleaf : Obligations.AbsentSymbolRaisesNoleaf :=
  fun _ sym hf hv hx => exec_of_raised (i := .enc sym) hf (encBody_noLeaf hv hx)

/-- Settles O16: the walk up computes the code, and a BOUT that does not fail accepts all of it. -/
theorem encEmitsTheCode : Obligations.EncEmitsTheCode := by
  refine ⟨fun c sym T hs => ?_, fun s sym bits hf hv T hcode hp => ⟨(T.codeOf_eq hcode).2, ?_⟩⟩
  · obtain ⟨bits, -, hcode, -⟩ := T.codeOf_isCode hs
    exact ⟨bits, hcode⟩
  · refine exec_of_done (i := .enc sym) hf ((encBody_of_isCode hv T hcode).trans ?_)
    rw [emitBits_ok bits hp, Result.bind_done]

/-- Settles O17: the walk up starts at the root and pushes no bit. -/
theorem encOnOneLeafEmitsNothing : Obligations.EncOnOneLeafEmitsNothing := by
  intro s sym hf hv T h1 hs
  obtain ⟨-, nd, hnd, -⟩ := T.leafNode sym hs
  have hparent : nd.parent = Config.nil := T.rootParent nd (T.leafOf_eq_root h1 hs ▸ hnd)
  exact exec_of_done (i := .enc sym) hf (encBody_rootLeaf hv hs hnd hparent)

/-- Settles O18: the emission raises E_IO at the failed bit, and the core is still without a fault there. -/
theorem encFailurePartWayKeepsTheBits : Obligations.EncFailurePartWayKeepsTheBits := by
  intro s sym pre post b plan hf hv T hcode hp
  obtain ⟨tail, hemit⟩ := emitBits_fail pre post b hp
  have hbody : encBody sym s = .raised .io (s.withBout (s.ports.bout.failedAfter pre tail plan)) := by
    rw [encBody_of_isCode hv T hcode, hemit, Result.bind_raised]
  exact ⟨tail, exec_of_raised_in (i := .enc sym) hf hbody hf⟩

/-! ## The walk of DEC along a path -/

theorem noFailure_drop {m n : Nat} {plan : List Answer} (h : noFailure (m + n) plan) : noFailure n (plan.drop m) :=
  fun hm => h (List.take_add ▸ List.mem_append_right _ hm)

/-- At an internal node the walk takes a bit and goes to the child it names (R171). -/
theorem walkDown_inner {fuel : Nat} {n : NodeIdx} {nd : Node} {s : State} {b : Bool} {rest : List Bool}
    (hb : s.ports.bin.unread = b :: rest) (hp : noFailure 1 s.ports.bin.plan) (hnd : s.core.nodeAt n = some nd)
    (hz : nd.zero ≠ Config.nil) : walkDown (fuel + 1) n s =
      walkDown fuel (if b then nd.one else nd.zero) (s.withBin (s.ports.bin.took 1)) := by
  rw [walkDown, hnd]
  simp only [if_neg hz]
  rw [bitIn_unit hp (InPort.next_of_unread hb), Result.bind_done]

/-- At a leaf the walk ends with its symbol and takes no bit (R171). -/
theorem walkDown_leaf {fuel : Nat} {n : NodeIdx} {nd : Node} {s : State} {v : Symbol}
    (hnd : s.core.nodeAt n = some nd) (hz : nd.zero = Config.nil) (hv : nd.sym = some v) :
    walkDown (fuel + 1) n s = .done v s := by
  rw [walkDown, hnd]
  simp only [if_pos hz, hv]

/-- The parent of a node is internal: with no zero-child it would have no one-child either, and its children differ
(R35 (a), (f)). -/
theorem TreeOk.parent_inner {c : CoreState} (T : TreeOk c) {n : NodeIdx} (hn : n.toNat < c.nnodes.toNat)
    (hr : n ≠ c.root) {nd pd : Node} (hnd : c.nodeAt n = some nd) (hpd : c.nodeAt nd.parent = some pd) :
    nd.parent.toNat < c.nnodes.toNat ∧ pd.zero ≠ Config.nil := by
  obtain ⟨hlt, -, -, -, pd', hpd', -, hne⟩ := T.parent_step hn hr hnd
  cases hpd.symm.trans hpd'
  exact ⟨hlt, fun hz => hne (hz.trans ((T.fullTree _ hlt pd hpd).mp hz).symm)⟩

/-- With the path of a node next in BIN, the walk from the root takes these bits and stands at that node (R162,
R171). -/
theorem TreeOk.walkDown_path {s : State} (T : TreeOk s.core) (fuel : Nat) {n : NodeIdx} {bits rest : List Bool}
    (hn : n.toNat < s.core.nnodes.toNat) (h : PathTo s.core n bits) (hb : s.ports.bin.unread = bits ++ rest)
    (hp : noFailure bits.length s.ports.bin.plan) : walkDown (fuel + bits.length) s.core.root s =
      walkDown fuel n (s.withBin (s.ports.bin.took bits.length)) := by
  induction bits using List.reverseRecOn generalizing fuel n rest with
  | nil => simp [h.eq_root]
  | append_singleton bits b ih =>
    obtain ⟨hr, nd, hnd, hpar, pd, hpd, hchild⟩ := h.parent
    obtain ⟨hlt, hz⟩ := T.parent_inner hn hr hnd hpd
    rw [List.append_assoc] at hb
    rw [List.length_append, List.length_singleton] at hp ⊢
    have hnext : (s.withBin (s.ports.bin.took bits.length)).ports.bin.unread = b :: rest := by simp [hb]
    calc walkDown (fuel + (bits.length + 1)) s.core.root s
        = walkDown (fuel + 1) nd.parent (s.withBin (s.ports.bin.took bits.length)) := by
          rw [Nat.add_comm bits.length, ← Nat.add_assoc]
          exact ih (fuel + 1) hlt hpar hb (noFailure_mono (Nat.le_succ _) hp)
      _ = walkDown fuel n (s.withBin (s.ports.bin.took (bits.length + 1))) := by
          rw [walkDown_inner hnext (noFailure_drop hp) hpd hz, hchild, withBin_bin, InPort.took_took, withBin_withBin]

/-- With a code next in BIN the walk takes these bits and ends with the symbol (R166). -/
theorem TreeOk.walkDown_code {s : State} (T : TreeOk s.core) {sym : Symbol} {bits rest : List Bool}
    (h : IsCode s.core sym bits) (hb : s.ports.bin.unread = bits ++ rest)
    (hp : noFailure bits.length s.ports.bin.plan) : walkDown 256 s.core.root s =
      .done sym (s.withBin (s.ports.bin.took bits.length)) := by
  have hle := (T.codeOf_eq h).2
  have hlen : 256 = (255 - bits.length) + 1 + bits.length := by omega
  obtain ⟨-, nd, hnd, hz, hsym, -⟩ := T.leafNode sym h.1
  rw [hlen, T.walkDown_path _ (T.leafOf_lt h.1) h.2 hb hp]
  exact walkDown_leaf hnd hz hsym

/-- A tree in which a symbol has a leaf is not the placeholder root (R35 (b)). -/
theorem TreeOk.nleaf_ne_zero {c : CoreState} (T : TreeOk c) {sym : Symbol} (hs : c.leafOf sym ≠ Config.nil) :
    c.nleaf ≠ 0#9 := by
  intro h0
  have hlt := (T.leafNode sym hs).1
  rw [h0] at hlt
  exact Nat.not_lt_zero _ hlt

/-- Settles O20: both checks of DEC pass, and its walk follows the code to the symbol's leaf. -/
theorem decInvertsTheCode : Obligations.DecInvertsTheCode := by
  intro s sym bits rest hf hv T hcode hb hp
  have hbody : decBody s = .done (zext24 sym) (s.withBin (s.ports.bin.took bits.length)) := by
    rw [decBody, hv, require_true, bne_iff_ne.mpr (T.nleaf_ne_zero hcode.1), require_true, T.walkDown_code hcode hb hp,
      Result.bind_done]
  exact exec_of_done (i := .dec) hf hbody

end Sys2Proof.Machine
end

section
/-! DEC on any bits: they begin with a code on every tree with a leaf (43_decode.md R171, R172, R176), and a request
that fails inside a code ends the command there (R174). -/

namespace Sys2Proof.Machine

open Sys2Proof

/-! ## Every bit sequence begins with a code -/

theorem one_le_nleaf {c : CoreState} (h : c.nleaf ≠ 0#9) : 1 ≤ c.nleaf.toNat :=
  Nat.pos_of_ne_zero fun h0 => h (BitVec.eq_of_toNat_eq h0)

/-- With a leaf, the tree has 2 * NLEAF - 1 nodes, the last of them the root (R30). -/
theorem TreeOk.sizes_of_leaf {c : CoreState} (T : TreeOk c) (h : 1 ≤ c.nleaf.toNat) :
    c.nleaf.toNat ≤ 256 ∧ c.nnodes.toNat = 2 * c.nleaf.toNat - 1 ∧ c.root.toNat + 1 = c.nnodes.toNat := by
  rcases T.sizes with ⟨h0, -, -⟩ | ⟨-, hsizes⟩
  · rw [h0] at h
    cases h
  · exact hsizes

/-- One of the first NLEAF nodes is the leaf of a symbol, whose code is the node's path (R35 (e), R162). -/
theorem TreeOk.isCode_of_leaf {c : CoreState} (T : TreeOk c) {n : NodeIdx} {bits : List Bool}
    (hn : n.toNat < c.nnodes.toNat) (hleaf : n.toNat < c.nleaf.toNat) (hp : PathTo c n bits) :
    ∃ sym, IsCode c sym bits := by
  have hnil := T.index_ne_nil hn
  obtain ⟨nd, hnd⟩ := nodeAt_isSome c hnil
  obtain ⟨-, sym, -, hsym⟩ := T.leaves _ hleaf nd hnd
  cases (BitVec.eq_of_toNat_eq hsym : c.leafOf sym = n)
  exact ⟨sym, hnil, hp⟩

/-- The children of an internal node stand below it (R35 (f)). -/
theorem TreeOk.child_lt {c : CoreState} (T : TreeOk c) {n : NodeIdx} {nd : Node} (hn : n.toNat < c.nnodes.toNat)
    (hnd : c.nodeAt n = some nd) (hz : nd.zero ≠ Config.nil) (b : Bool) :
    (if b then nd.one else nd.zero).toNat < n.toNat := by
  obtain ⟨hzero, hone, -⟩ := T.childBelow _ hn nd hnd hz
  cases b with
  | false => exact hzero
  | true => exact hone

/-- The path of the child on branch `b` is that of its parent and the bit `b` (R35 (g), R162). -/
theorem TreeOk.pathTo_child {c : CoreState} (T : TreeOk c) (hl : 1 ≤ c.nleaf.toNat) {n : NodeIdx} {nd : Node}
    {bits : List Bool} (hn : n.toNat < c.nnodes.toNat) (hnd : c.nodeAt n = some nd) (hz : nd.zero ≠ Config.nil)
    (hp : PathTo c n bits) (b : Bool) : PathTo c (if b then nd.one else nd.zero) (bits ++ [b]) := by
  have hbelow := T.child_lt hn hnd hz b
  have hlt := hbelow.trans hn
  have hr : (if b then nd.one else nd.zero) ≠ c.root := by
    intro h
    have hroot := T.sizes_of_leaf hl
    rw [h] at hbelow
    omega
  obtain ⟨md, hmd⟩ := nodeAt_isSome c (T.index_ne_nil hlt)
  have hpar : md.parent = n :=
    BitVec.eq_of_toNat_eq ((T.parentLinks _ hn _ hlt nd hnd md hmd).mpr (by cases b <;> simp))
  cases b with
  | false => exact .zero hp hr hmd hpar hnd rfl
  | true => exact .one hp hr hmd hpar hnd rfl

/-- From a node of path `pre`, a bit sequence at least as long as the number of internal nodes up to it goes on to a
leaf: each bit leads to a lower index (R35 (e), (f), R176). -/
theorem TreeOk.code_of_bits {c : CoreState} (T : TreeOk c) (hl : 1 ≤ c.nleaf.toNat) (bits : List Bool) {n : NodeIdx}
    {pre : List Bool} (hn : n.toNat < c.nnodes.toNat) (hp : PathTo c n pre)
    (hlen : n.toNat < c.nleaf.toNat + bits.length) : ∃ sym code, IsCode c sym (pre ++ code) ∧ code <+: bits := by
  induction bits generalizing n pre with
  | nil =>
    obtain ⟨sym, hcode⟩ := T.isCode_of_leaf hn hlen hp
    exact ⟨sym, [], by rwa [List.append_nil], List.nil_prefix⟩
  | cons b bits ih =>
    rcases Nat.lt_or_ge n.toNat c.nleaf.toNat with hleaf | hinner
    · obtain ⟨sym, hcode⟩ := T.isCode_of_leaf hn hleaf hp
      exact ⟨sym, [], by rwa [List.append_nil], List.nil_prefix⟩
    · obtain ⟨nd, hnd⟩ := nodeAt_isSome c (T.index_ne_nil hn)
      have hz := (T.internals hl _ hn hinner nd hnd).1
      have hbelow := T.child_lt hn hnd hz b
      rw [List.length_cons] at hlen
      obtain ⟨sym, code, hcode, hpre⟩ := ih (hbelow.trans hn) (T.pathTo_child hl hn hnd hz hp b) (by omega)
      exact ⟨sym, b :: code, by simpa using hcode, List.cons_prefix_cons.mpr ⟨rfl, hpre⟩⟩

/-- On a tree with a leaf, NLEAF - 1 bits or more begin with a code (R176). -/
theorem TreeOk.code_prefix {c : CoreState} (T : TreeOk c) (hl : 1 ≤ c.nleaf.toNat) {bits : List Bool}
    (hlen : c.nleaf.toNat ≤ bits.length + 1) : ∃ sym code, IsCode c sym code ∧ code <+: bits := by
  obtain ⟨-, hnodes, hroot⟩ := T.sizes_of_leaf hl
  exact T.code_of_bits hl bits T.root_lt .root (by omega)

/-- Settles O21: 255 bits begin with a code on the largest tree, and DEC inverts that code. -/
theorem decAcceptsEveryBitSequence : Obligations.DecAcceptsEveryBitSequence := by
  refine ⟨rfl, fun s hf hv T hne hunread hp => ?_⟩
  have hl := one_le_nleaf hne
  obtain ⟨hmax, -⟩ := T.sizes_of_leaf hl
  obtain ⟨sym, code, hcode, hpre⟩ := T.code_prefix hl (bits := s.ports.bin.unread) (by omega)
  obtain ⟨rest, hrest⟩ := hpre
  exact ⟨sym, code, hcode, ⟨rest, hrest⟩,
    decInvertsTheCode s sym code rest hf hv T hcode hrest.symm (noFailure_mono (T.codeOf_eq hcode).2 hp)⟩

/-- Settles O22: with NLEAF = 1 the empty sequence begins with a code, and DEC inverts that code by taking no bit. -/
theorem decOnOneLeafTakesNoBit : Obligations.DecOnOneLeafTakesNoBit := by
  intro s hf hv T h1
  have hone : s.core.nleaf.toNat = 1 := congrArg BitVec.toNat h1
  obtain ⟨sym, code, hcode, hpre⟩ := T.code_prefix (bits := []) hone.ge hone.le
  cases List.prefix_nil.mp hpre
  exact ⟨sym, hcode.1,
    by simpa using decInvertsTheCode s sym [] s.ports.bin.unread hf hv T hcode rfl (by simp [noFailure])⟩

/-! ## DEC stopped inside a code -/

/-- Failing after some units were taken, and then some more. -/
@[simp] theorem InPort.failedAfter_took {α : Type} (p : InPort α) (j k : Nat) (rest : List α) (moved : Nat)
    (plan : List Answer) : (p.took j).failedAfter k rest moved plan = p.failedAfter (j + k) rest moved plan := by
  simp [InPort.failedAfter, Nat.add_assoc]

/-- At an internal node the walk ends in the fault its request raises (R171). -/
theorem walkDown_raised {fuel : Nat} {n : NodeIdx} {nd : Node} {s u : State} {e : Code}
    (hnd : s.core.nodeAt n = some nd) (hz : nd.zero ≠ Config.nil) (h : bitIn s = .raised e u) :
    walkDown (fuel + 1) n s = .raised e u := by
  rw [walkDown, hnd]
  simp only [if_neg hz]
  rw [h, Result.bind_raised]

/-- A node with a path is a node of the tree (R162, R35 (a), (f)). -/
theorem TreeOk.path_lt {c : CoreState} (T : TreeOk c) {n : NodeIdx} {bits : List Bool} (h : PathTo c n bits) :
    n.toNat < c.nnodes.toNat := by
  induction bits using List.reverseRecOn generalizing n with
  | nil => exact h.eq_root ▸ T.root_lt
  | append_singleton bits b ih =>
    obtain ⟨-, nd, hnd, hpar, pd, hpd, hchild⟩ := h.parent
    have hlt := ih hpar
    have hz : pd.zero ≠ Config.nil := by
      intro hz
      rw [hz, (T.fullTree _ hlt pd hpd).mp hz, ite_self] at hchild
      rw [← hchild, nodeAt_nil] at hnd
      cases hnd
    exact hchild ▸ (T.child_lt hlt hpd hz b).trans hlt

/-- With a proper beginning of a code next in BIN, a request behind it that raises a fault ends DEC in that fault
(R171, R174). -/
theorem TreeOk.decBody_raised {s u : State} (T : TreeOk s.core) (hv : s.core.tv = true) {sym : Symbol}
    {pre post rest : List Bool} {b : Bool} {e : Code} (hcode : IsCode s.core sym (pre ++ b :: post))
    (hb : s.ports.bin.unread = pre ++ rest) (hp : noFailure pre.length s.ports.bin.plan)
    (h : bitIn (s.withBin (s.ports.bin.took pre.length)) = .raised e u) : decBody s = .raised e u := by
  have hne := T.nleaf_ne_zero hcode.1
  obtain ⟨m, hm, hinner⟩ := T.inner_of_longer_path (T.leafOf_lt hcode.1) hcode.2
  have hlt := T.path_lt hm
  obtain ⟨nd, hnd⟩ := nodeAt_isSome s.core (T.index_ne_nil hlt)
  have hz := (T.internals (one_le_nleaf hne) _ hlt hinner nd hnd).1
  have hlen := (T.codeOf_eq hcode).2
  rw [List.length_append, List.length_cons] at hlen
  have hwalk : walkDown 256 s.core.root s = .raised e u := by
    have hfuel : 256 = (255 - pre.length) + 1 + pre.length := by omega
    rw [hfuel, T.walkDown_path _ hlt hm hb hp]
    exact walkDown_raised hnd hz h
  rw [decBody, hv, require_true, bne_iff_ne.mpr hne, require_true, hwalk, Result.bind_raised]

/-- Settles O24: the request behind `pre` fails, and what it leaves of BIN are the free values of log 8. -/
theorem decFailureRaisesIo : Obligations.DecFailureRaisesIo := by
  intro s sym pre post rest b plan hf hv T hcode hb hp
  have hserved : noFailure pre.length s.ports.bin.plan := by simp [hp, noFailure]
  have hfails : (s.withBin (s.ports.bin.took pre.length)).ports.bin.plan = .fails :: plan := by simp [hp]
  have hbody := T.decBody_raised hv hcode hb hserved (bitIn_fail hfails)
  rw [withBin_withBin, withBin_bin, InPort.failedAfter_took] at hbody
  exact ⟨_, _, Nat.min_le_right _ _, exec_of_raised_in (i := .dec) hf hbody hf⟩

/-- Settles O34: the second check of R171 fails. -/
theorem placeholderRaisesEmpty : Obligations.PlaceholderRaisesEmpty :=
  fun _ hf hv hl => exec_of_raised (i := .dec) hf (decBody_empty hv hl)

end Sys2Proof.Machine
end

section
/-! The header codec (44_header_codec.md R180 to R187): HSER on a HOUT that fails, HDES on a HIN that serves the whole
header and on one that ends or fails inside it, and HDES of what HSER wrote. -/

namespace Sys2Proof.Machine

open Sys2Proof

/-! ## HSER on a failing HOUT -/

theorem headerBytes_eq_headerOf (freq : Symbol → Count) : headerBytes freq = headerOf freq allSymbols := rfl

/-- Settles O26: the loop gives HOUT the bytes of the header in order, and raises E_IO at the one that fails. -/
theorem hserFailurePartWayKeepsTheBytes : Obligations.HserFailurePartWayKeepsTheBytes := by
  intro s k plan hf hi hk hp
  rw [headerBytes_eq_headerOf]
  have hlen : k < (headerOf s.core.count allSymbols).length := by simpa using hk
  have htake : ((headerOf s.core.count allSymbols).take k).length = k := List.length_take_of_le hlen.le
  obtain ⟨tail, hemit⟩ := emitBytes_fail _ ((headerOf s.core.count allSymbols).drop (k + 1)) _ (htake.symm ▸ hp)
  rw [List.getElem_cons_drop hlen, List.take_append_drop] at hemit
  have hbody : hserBody s = .raised .io
      (s.withHout (s.ports.hout.failedAfter ((headerOf s.core.count allSymbols).take k) tail plan)) := by
    rw [hserBody, hi, require_true, hserLoop_eq_emitBytes, hemit, Result.bind_raised]
  exact ⟨tail, exec_of_raised_in (i := .hser) hf hbody hf⟩

/-! ## The loop of HDES -/

/-- A count is its high byte and its low byte (R69). -/
theorem hiByte_append_loByte (v : Count) : hiByte v ++ loByte v = v := by
  rw [hiByte, loByte, BitVec.extractLsb'_append_extractLsb'_eq_extractLsb' (start₁ := 0) (len₁ := 8) rfl]
  exact BitVec.extractLsb'_eq_self

/-- Loading an entry changes that one (R184). -/
theorem count_loadCount (c : CoreState) (x y : Symbol) (v : Count) :
    (c.loadCount x v).count y = if x = y then v else c.count y :=
  count_setCount c x y v

/-- The next symbol of the ascending order is not among those before it. -/
theorem notMem_take_allSymbols (x : Symbol) : x ∉ allSymbols.take x.toNat := by
  have hnd := allSymbols_nodup.sublist (List.take_sublist (x.toNat + 1) allSymbols)
  rw [List.take_add_one, allSymbols_getElem?_toNat] at hnd
  exact fun hm => (List.nodup_append'.mp hnd).2.2 hm List.mem_cons_self

/-- `u` is the state in which HDES on `s` stands behind `k` bytes of HIN: the entries of which both bytes are among
them are loaded, and TOTAL is their sum (R184, R185). -/
structure HeaderRead (s : State) (k : Nat) (u : State) : Prop where
  frame : u = { s.withHin (s.ports.hin.took k) with
    core := s.core.withTable u.core.freq u.core.total false false }
  loaded : ∀ (x : Symbol) (hi lo : Byte), 2 * x.toNat + 1 < k → s.ports.hin.unread[2 * x.toNat]? = some hi →
    s.ports.hin.unread[2 * x.toNat + 1]? = some lo → u.core.count x = hi ++ lo
  kept : ∀ x : Symbol, k / 2 ≤ x.toNat → u.core.count x = s.core.count x
  total : TotalsTo (allSymbols.take (k / 2)) u

namespace HeaderRead

variable {s u : State} {k : Nat}

theorem start (s : State) : HeaderRead s 0 { s with core := s.core.hdesStart } where
  frame := by rw [InPort.took_zero]; rfl
  loaded _ _ _ h := absurd h (Nat.not_lt_zero _)
  kept _ _ := rfl
  total := ⟨by simp, rfl⟩

theorem hin (h : HeaderRead s k u) : u.ports.hin = s.ports.hin.took k := by rw [h.frame]; rfl

theorem fault (h : HeaderRead s k u) : u.core.fault = s.core.fault := by rw [h.frame]; rfl

/-- The next request takes the next byte. -/
theorem byteIn_done (h : HeaderRead s k u) {v : Byte} (hp : noFailure (k + 1) s.ports.hin.plan)
    (hv : s.ports.hin.unread[k]? = some v) : byteIn u = .done v (u.withHin (s.ports.hin.took (k + 1))) := by
  have hplan : noFailure 1 u.ports.hin.plan := by rw [h.hin]; exact noFailure_drop hp
  have hnext : u.ports.hin.data[u.ports.hin.pos]? = some v := by simpa [h.hin, InPort.unread] using hv
  rw [byteIn_unit hplan hnext, h.hin, InPort.took_took]

/-- The high byte of an entry alone loads nothing (R185). -/
theorem highByte {n : Nat} (h : HeaderRead s (2 * n) u) :
    HeaderRead s (2 * n + 1) (u.withHin (s.ports.hin.took (2 * n + 1))) := by
  have hhalf : (2 * n + 1) / 2 = 2 * n / 2 := by omega
  refine ⟨?_, fun x hi lo hx => h.loaded x hi lo (by omega), ?_, ?_⟩
  · rw [h.frame]; rfl
  · rw [hhalf]; exact h.kept
  · rw [hhalf]; exact ⟨h.total.few, h.total.total⟩

/-- With its low byte an entry is loaded (R184). -/
theorem lowByte {x : Symbol} {hi lo : Byte} (h : HeaderRead s (2 * x.toNat + 1) u)
    (hhi : s.ports.hin.unread[2 * x.toNat]? = some hi) (hlo : s.ports.hin.unread[2 * x.toNat + 1]? = some lo) :
    HeaderRead s (2 * (x.toNat + 1)) { u.withHin (s.ports.hin.took (2 * (x.toNat + 1))) with
      core := u.core.loadCount x (hi ++ lo) } := by
  have hfirst : (2 * x.toNat + 1) / 2 = x.toNat := by omega
  have hafter : 2 * (x.toNat + 1) / 2 = x.toNat + 1 := by omega
  refine ⟨?_, fun y hi' lo' hy hhi' hlo' => ?_, fun y hy => ?_, ?_⟩
  · rw [loadCount_eq_withTable, h.frame]
    rfl
  · rw [count_loadCount]
    by_cases e : x = y
    · subst e
      cases hhi.symm.trans hhi'
      cases hlo.symm.trans hlo'
      exact if_pos rfl
    · have hne : x.toNat ≠ y.toNat := fun h => e (BitVec.eq_of_toNat_eq h)
      rw [if_neg e]
      exact h.loaded y hi' lo' (by omega) hhi' hlo'
  · have hne : x ≠ y := by rintro rfl; omega
    rw [count_loadCount, if_neg hne]
    exact h.kept y (by omega)
  · have htotal := h.total
    rw [hfirst] at htotal
    have hroom : (allSymbols.take x.toNat).length < 256 := (List.length_take_le _ _).trans_lt x.isLt
    have hload := htotal.load (notMem_take_allSymbols x) hroom (hi ++ lo)
    rw [hafter, List.take_add_one, allSymbols_getElem?_toNat]
    exact ⟨hload.few, hload.total⟩

end HeaderRead

/-- While HIN serves, HDES reads entry after entry, in the ascending order of the symbols (R184). -/
theorem hdesLoop_entries {s : State} {n : Nat} (hn : n ≤ 256) (hlen : 2 * n ≤ s.ports.hin.unread.length)
    (hp : noFailure (2 * n) s.ports.hin.plan) : ∃ u, HeaderRead s (2 * n) u ∧
      hdesLoop allSymbols { s with core := s.core.hdesStart } = hdesLoop (allSymbols.drop n) u := by
  induction n with
  | zero => exact ⟨_, .start s, rfl⟩
  | succ n ih =>
    obtain ⟨u, hread, hloop⟩ := ih (by omega) (by omega) (noFailure_mono (by omega) hp)
    obtain ⟨x, rfl⟩ : ∃ x : Symbol, x.toNat = n := ⟨BitVec.ofNat 8 n, Nat.mod_eq_of_lt hn⟩
    have hhi := List.getElem?_eq_getElem (l := s.ports.hin.unread) (i := 2 * x.toNat) (by omega)
    have hlo := List.getElem?_eq_getElem (l := s.ports.hin.unread) (i := 2 * x.toNat + 1) (by omega)
    have hfirst := hread.byteIn_done (noFailure_mono (by omega) hp) hhi
    have hsecond := hread.highByte.byteIn_done (noFailure_mono (by omega) hp) hlo
    have hdrop : allSymbols.drop x.toNat = x :: allSymbols.drop (x.toNat + 1) := by
      have hx := allSymbols_getElem?_toNat x
      obtain ⟨hlt, hget⟩ := List.getElem?_eq_some_iff.mp hx
      rw [List.drop_eq_getElem_cons hlt, hget]
    refine ⟨_, hread.highByte.lowByte hhi hlo, ?_⟩
    rw [hloop, hdrop, hdesLoop, hfirst, Result.bind_done, hsecond, Result.bind_done]
    rfl

/-- A fault of the request behind `k` bytes, inside the header, is the end of the loop (R185). -/
theorem hdesLoop_stopped {s : State} {k : Nat} (hk : k < 512) (hlen : k ≤ s.ports.hin.unread.length)
    (hp : noFailure k s.ports.hin.plan) : ∃ u, HeaderRead s k u ∧ ∀ e t, byteIn u = .raised e t →
      hdesLoop allSymbols { s with core := s.core.hdesStart } = .raised e t := by
  obtain ⟨n, hn⟩ : ∃ n, n = k / 2 := ⟨_, rfl⟩
  obtain ⟨u, hread, hloop⟩ := hdesLoop_entries (s := s) (n := n) (by omega) (by omega)
    (noFailure_mono (by omega) hp)
  have hdrop := List.drop_eq_getElem_cons (l := allSymbols) (i := n) (by simp; omega)
  rw [hdrop, hdesLoop] at hloop
  rcases Nat.mod_two_eq_zero_or_one k with heven | hodd
  · obtain rfl : k = 2 * n := by omega
    exact ⟨u, hread, fun e t h => by rw [hloop, h, Result.bind_raised]⟩
  · obtain rfl : k = 2 * n + 1 := by omega
    have hhi := List.getElem?_eq_getElem (l := s.ports.hin.unread) (i := 2 * n) (by omega)
    exact ⟨_, hread.highByte, fun e t h => by
      rw [hloop, hread.byteIn_done hp hhi, Result.bind_done, h, Result.bind_raised]⟩

/-! ## HDES -/

/-- The sum of the first entries is the sum over the first symbols (R23). -/
theorem sumBelow_eq_sumOver (c : CoreState) (j : Nat) : sumBelow c.freq j = c.sumOver (allSymbols.take j) := by
  have hlist : c.freq.toList = allSymbols.map c.count := by
    refine List.ext_getElem (by simp) fun i hi hj => ?_
    have hlt : i < 256 := by simpa using hi
    simp [allSymbols_getElem, CoreState.count, Nat.mod_eq_of_lt hlt]
  simp [sumBelow, CoreState.sumOver, hlist, List.map_take, Function.comp_def]

theorem sumBelow_eq_tableSum (c : CoreState) : sumBelow c.freq 256 = c.tableSum := by
  rw [sumBelow_eq_sumOver, List.take_of_length_le (by simp)]
  rfl

theorem HeaderRead.sum {s u : State} {k : Nat} (h : HeaderRead s k u) :
    u.core.total.toNat = sumBelow u.core.freq (k / 2) := h.total.total.trans (sumBelow_eq_sumOver _ _).symm

/-- Both bytes of an entry that stand in the part of HIN that was read are loaded into it (R184). -/
theorem HeaderRead.entry {s u : State} {got rest : List Byte} (h : HeaderRead s got.length u)
    (hb : s.ports.hin.unread = got ++ rest) {x : Symbol} {hi lo : Byte} (hhi : got[2 * x.toNat]? = some hi)
    (hlo : got[2 * x.toNat + 1]? = some lo) : u.core.freq[x.toNat]'(x.isLt) = hi ++ lo := by
  have hlt := (List.getElem?_eq_some_iff.mp hlo).1
  refine h.loaded x hi lo hlt ?_ ?_
  · rw [hb, List.getElem?_append_left (by omega), hhi]
  · rw [hb, List.getElem?_append_left hlt, hlo]

/-- Settles O27: the loop reads 256 entries, and HDES sets TI behind it. -/
theorem hdesReadsTheHeader : Obligations.HdesReadsTheHeader := by
  refine ⟨decodeInvertsEncode .hdes rfl, fun s hdr rest hf hlen hb hp => ?_⟩
  obtain ⟨u, hread, hloop⟩ := hdesLoop_entries (s := s) (n := 256) le_rfl (by simp [hb, hlen]) hp
  rw [List.drop_of_length_le (by simp), hdesLoop] at hloop
  refine ⟨u.core.freq, u.core.total, fun x hi lo => HeaderRead.entry (hlen ▸ hread) hb, hread.sum, ?_⟩
  refine exec_of_done (i := .hdes) hf ?_
  rw [bodyOf, hdesBody, hloop, Result.bind_done, hread.frame]
  rfl

/-- HDES stopped behind `k` bytes, inside the header, keeps the entries loaded and their sum, with TI = TV = 0
(R185). -/
theorem exec_hdes_stopped {s : State} {k : Nat} (hf : s.core.fault = false) (hk : k < 512)
    (hlen : k ≤ s.ports.hin.unread.length) (hp : noFailure k s.ports.hin.plan) :
    ∃ u, HeaderRead s k u ∧ ∀ e p, byteIn u = .raised e (u.withHin p) →
      exec .hdes s = .next (State.faulting 0x4100#16 e.bits
        { s.withHin p with core := s.core.withTable u.core.freq u.core.total false false }) := by
  obtain ⟨u, hread, hstop⟩ := hdesLoop_stopped hk hlen hp
  refine ⟨u, hread, fun e p hin => ?_⟩
  have hbody : hdesBody s = .raised e (u.withHin p) := by rw [hdesBody, hstop _ _ hin, Result.bind_raised]
  have hend : u.withHin p = { s.withHin p with core := s.core.withTable u.core.freq u.core.total false false } := by
    rw [hread.frame]
    rfl
  rw [hend] at hbody
  exact exec_of_raised_in (i := .hdes) hf hbody hf

/-- Settles O29: the request behind `got` fails, and what it leaves of HIN are the free values of log 8. -/
theorem hdesOnFailingSourceRaisesIo : Obligations.HdesOnFailingSourceRaisesIo := by
  intro s got rest plan hf hb hk hp
  obtain ⟨u, hread, hexec⟩ := exec_hdes_stopped hf hk (by simp [hb]) (by simp [hp, noFailure])
  have hfails : u.ports.hin.plan = .fails :: plan := by rw [hread.hin]; simp [hp]
  have hin := byteIn_fail hfails
  rw [hread.hin, InPort.failedAfter_took] at hin
  exact ⟨u.core.freq, u.core.total, _, _, fun x hi lo => hread.entry hb, hread.kept, hread.sum, Nat.min_le_right _ _,
    hexec _ _ hin⟩

/-! ## HDES of what HSER wrote -/

/-- Settles O30: a header determines its table (R97), and BUILD's tree is a function of the table (R148). -/
theorem hdesUndoesHser : Obligations.HdesUndoesHser := by
  intro s s1 t rest hfs his hout hser hft hb hin
  have hs1 : s1.core = s.core ∧
      s1.ports.hout.data.drop s.ports.hout.data.length = headerOf s.core.count allSymbols := by
    cases (exec_hser_ok hfs his hout).symm.trans hser
    exact ⟨rfl, List.drop_left⟩
  obtain ⟨hcore, hdata⟩ := hs1
  obtain ⟨f, total, hentry, htotal, hdes⟩ := hdesReadsTheHeader.2 t _ rest hft (by simp) (hdata ▸ hb) hin
  have hfreq : f = s.core.freq := freq_ext fun x => by
    obtain ⟨hhi, hlo⟩ := headerOf_getElem? s.core.count (allSymbols_getElem?_toNat x)
    rw [hentry x _ _ hhi hlo, hiByte_append_loByte]
    rfl
  subst hfreq
  obtain ⟨t1, hdes, ht1⟩ : ∃ t1, exec .hdes t = .next t1 ∧
      t1.core = t.core.withTable s.core.freq total true false := ⟨_, hdes, rfl⟩
  obtain ⟨s2, t2, -, hs2, ht2, -, hnleaf, hnnodes, hroot, hleaf, hnodes, -⟩ :=
    buildDependsOnTheTableAlone s1 t1 (hcore ▸ hfs) (ht1 ▸ hft) (hcore ▸ his) (ht1 ▸ rfl) (by rw [hcore, ht1]; rfl)
  rw [sumBelow_eq_tableSum] at htotal
  exact ⟨t1, s2, t2, hdes, ht1 ▸ rfl, ht1 ▸ htotal, ht1 ▸ rfl, ht1 ▸ rfl, hs2, ht2, hnleaf, hnnodes, hroot, hleaf,
    hnodes⟩

end Sys2Proof.Machine
end

section
/-! The system commands NOP and RDSR (45_system.md R191, R192): they answer with FAULT set or not, and change nothing. -/

namespace Sys2Proof.Machine

open Sys2Proof

/-- The decoder reads a word put as numbers by its two fields (R90, R93). -/
theorem decode_wordOf (op arg : Byte) : decode (wordOf op.toNat arg) = decodeFields op arg := by
  have hop := op.isLt
  have harg := arg.isLt
  have hopField : opField (wordOf op.toNat arg) = op := by
    apply BitVec.eq_of_toNat_eq
    rw [opField, BitVec.extractLsb'_toNat, Nat.shiftRight_eq_div_pow, BitVec.toNat_ofNat]
    omega
  have hargField : argField (wordOf op.toNat arg) = arg := by
    apply BitVec.eq_of_toNat_eq
    rw [argField, BitVec.extractLsb'_toNat, Nat.shiftRight_eq_div_pow, BitVec.toNat_ofNat]
    omega
  rw [decode, hopField, hargField]

/-! ## NOP -/

/-- The opcode of NOP is of format N (R91, R93). -/
theorem decode_nop_word (a : Byte) : decode (wordOf 0x00 a) = decodeN 0x00#8 a .nop := decode_wordOf 0x00#8 a

/-- Settles O3: format N refuses a nonzero operand, and the FAULT gate lets NOP pass to a body that does nothing. -/
theorem nopOnlyAnswers : Obligations.NopOnlyAnswers :=
  ⟨decodeInvertsEncode .nop rfl, fun a ha => (decode_nop_word a).trans (if_neg ha), exec_nop⟩

/-! ## RDSR -/

/-- The opcode of RDSR is of format R (R91, R93). -/
theorem decode_rdsr_word (r : Byte) : decode (wordOf 0xF0 r) = decodeR r := decode_wordOf 0xF0#8 r

/-- Format R allows the register numbers 0 to 6 (R91). -/
theorem decodeR_of_le {r : Byte} (h : r.toNat ≤ 6) : decodeR r = .ok (.rdsr r) := if_pos (BitVec.le_def.mpr h)

/-- Format R refuses the register numbers from 7 on (R94 (c)). -/
theorem decodeR_of_ge {r : Byte} (h : 7 ≤ r.toNat) : decodeR r = .error (.reservedRegister r) :=
  if_neg fun hle : r ≤ 0x06#8 => Nat.not_le_of_lt h (BitVec.le_def.mp hle)

/-- RDSR of a register answers its value and changes nothing, with FAULT set or not (R192). -/
theorem exec_rdsr {r : Byte} {reg : StatusReg} (h : statusReg r = some reg) (s : State) :
    exec (.rdsr r) s = .next (s.answering (s.core.regValue reg)) := by
  have hbody : bodyOf (.rdsr r) s = .done (s.core.regValue reg) s := by simp only [bodyOf, rdsrBody, h]
  rw [exec_eq_runBody, runBody_open _ _ (gateCloses_system s.core (.inr (.inl rfl))), hbody, finish_done]

/-- Settles O4: each number names its register of R29, whose value RDSR answers, and format R refuses the others. -/
theorem rdsrAnswersTheRegister : Obligations.RdsrAnswersTheRegister := by
  refine ⟨fun s => ⟨?_, ?_, ?_, ?_, ?_, ?_, ?_⟩, fun r hr => (decode_rdsr_word r).trans (decodeR_of_le hr),
    fun r hr => (decode_rdsr_word r).trans (decodeR_of_ge hr)⟩
  exacts [exec_rdsr (reg := .status) rfl s, exec_rdsr (reg := .errcode) rfl s, exec_rdsr (reg := .errcmd) rfl s,
    exec_rdsr (reg := .total) rfl s, exec_rdsr (reg := .nleaf) rfl s, exec_rdsr (reg := .nnodes) rfl s,
    exec_rdsr (reg := .root) rfl s]

end Sys2Proof.Machine
end

section
/-! The pipelines of the host (46_pipelines.md R200 to R210): what a compress run leaves in the file, and what a
decompress run reads back from it. -/

namespace Sys2Proof.Machine

open Sys2Proof

/-- The value field of a response (R95). -/
@[simp] theorem rspValue_append (e : BitVec 8) (v : Weight) : rspValue (e ++ v) = v :=
  BitVec.extractLsb'_append_eq_right

/-- A port that never fails fails none of the next requests. -/
theorem noFailure_of_notMem {plan : List Answer} (h : Answer.fails ∉ plan) (n : Nat) : noFailure n plan :=
  fun hm => h (List.mem_of_mem_take hm)

/-- Two sequences of commands, one behind the other. -/
theorem issueAll_append {is js : List Instr} {s t u : State} {rs qs : List RspWord}
    (hi : issueAll is s = some (rs, t)) (hj : issueAll js t = some (qs, u)) :
    issueAll (is ++ js) s = some (rs ++ qs, u) := by
  induction is generalizing s rs with
  | nil =>
    cases hi
    exact hj
  | cons i is ih =>
    rw [issueAll] at hi
    rw [List.cons_append, issueAll]
    cases hissue : issue (encode i) s with
    | none => simp [hissue] at hi
    | some p =>
      obtain ⟨r, v⟩ := p
      simp only [hissue] at hi ⊢
      split at hi
      · rename_i hok
        obtain ⟨⟨ws, w⟩, hrest, hp⟩ := Option.map_eq_some_iff.mp hi
        cases hp
        rw [if_pos hok, ih hrest]
        rfl
      · cases hi

/-! ## Codes on a tree built again -/

/-- Two BUILDs that agree give every node the same path (R148, R162). -/
theorem SameBuild.pathTo {c d : CoreState} (h : SameBuild c d) (T : TreeOk c) {n : NodeIdx} {bits : List Bool}
    (hp : PathTo c n bits) : PathTo d n bits := by
  have hnode {m : NodeIdx} {code : List Bool} (hm : PathTo c m code) : d.nodeAt m = c.nodeAt m :=
    h.nodes _ (T.path_lt hm)
  induction hp with
  | root => exact h.root ▸ .root
  | zero hpar hr hnd hlink hpd hchild ih =>
    have hn := hnode (.zero hpar hr hnd hlink hpd hchild)
    exact .zero ih (h.root.symm ▸ hr) (hn.trans hnd) hlink ((hnode hpar).trans hpd) hchild
  | one hpar hr hnd hlink hpd hchild ih =>
    have hn := hnode (.one hpar hr hnd hlink hpd hchild)
    exact .one ih (h.root.symm ▸ hr) (hn.trans hnd) hlink ((hnode hpar).trans hpd) hchild

/-- Two BUILDs that agree give every symbol the same code (R148, R162). -/
theorem SameBuild.isCode {c d : CoreState} (h : SameBuild c d) (T : TreeOk c) {sym : Symbol} {bits : List Bool}
    (hc : IsCode c sym bits) : IsCode d sym bits := by
  rw [IsCode, leafOf_congr h.leaf]
  exact ⟨hc.1, h.pathTo T hc.2⟩

/-! ## The second pass of a compress run -/

/-- ENC of symbols that have leaves emits their codes one behind the other (R161, R203). -/
theorem issueAll_encs (xs : List Byte) {s : State} (hf : s.core.fault = false) (hv : s.core.tv = true)
    (T : TreeOk s.core) (hleaf : ∀ x ∈ xs, s.core.leafOf x ≠ Config.nil) (hp : Answer.fails ∉ s.ports.bout.plan) :
    ∃ codes rs t, List.Forall₂ (IsCode s.core) xs codes ∧ issueAll (xs.map .enc) s = some (rs, t) ∧
      t.ports.hout = s.ports.hout ∧ t.ports.bout.data = s.ports.bout.data ++ codes.flatten := by
  induction xs generalizing s with
  | nil => exact ⟨[], [], s, .nil, rfl, rfl, by simp⟩
  | cons x xs ih =>
    obtain ⟨hx, hxs⟩ := List.forall_mem_cons.mp hleaf
    obtain ⟨bits, hcode⟩ := encEmitsTheCode.1 s.core x T hx
    obtain ⟨-, hexec⟩ := encEmitsTheCode.2 s x bits hf hv T hcode (noFailure_of_notMem hp _)
    obtain ⟨codes, rs, t, hcodes, hrun, hhout, hbout⟩ :=
      ih (s := State.answering (BitVec.ofNat 24 bits.length) (s.withBout (s.ports.bout.wrote bits))) hf hv T hxs
        (fun hm => hp (List.mem_of_mem_drop hm))
    refine ⟨bits :: codes, _, t, .cons hcode hcodes, issueAll_cons rfl hexec hrun, hhout, ?_⟩
    simpa using hbout

/-- BUILD on a table whose sum is TOTAL leaves a core `d` with a tree and the same table (R141, R148). -/
theorem exec_build_tree {s : State} (hf : s.core.fault = false) (hi : s.core.ti = true)
    (htotal : s.core.total.toNat = s.core.tableSum) : ∃ (d : CoreState) (v : Weight),
      exec .build s = .next (State.answering v { s with core := d }) ∧ d = s.core.built ∧ TreeOk d ∧
      d.freq = s.core.freq ∧ d.fault = false ∧ d.ti = true ∧ d.tv = true :=
  ⟨s.core.built, _, exec_build hf hi, rfl, built_treeOk htotal, by rw [built_frame], by rwa [built_frame],
    by rwa [built_frame], by rw [built_frame]⟩

/-- BUILD, HSER and the second pass, on a table whose sum is TOTAL and in which every input byte was counted: HOUT gains
the header and BOUT the codes of the input on the tree of the table (R202, R203). -/
theorem issueAll_secondPass {xs : List Byte} {s : State} (hf : s.core.fault = false) (hi : s.core.ti = true)
    (htotal : s.core.total.toNat = s.core.tableSum) (hxs : ∀ x ∈ xs, s.core.count x ≠ 0#16)
    (hhout : Answer.fails ∉ s.ports.hout.plan) (hbout : Answer.fails ∉ s.ports.bout.plan) :
    ∃ codes rs t, List.Forall₂ (IsCode s.core.built) xs codes ∧
      issueAll (.build :: .hser :: xs.map .enc) s = some (rs, t) ∧
      t.ports.hout.data = s.ports.hout.data ++ headerOf s.core.count allSymbols ∧
      t.ports.bout.data = s.ports.bout.data ++ codes.flatten := by
  obtain ⟨d, v, hbuild, hd, T, hfreq, hfd, hid, hvd⟩ := exec_build_tree hf hi htotal
  have hcount : d.count = s.core.count := funext (count_congr hfreq)
  have hser := exec_hser_ok (s := State.answering v { s with core := d }) hfd hid (noFailure_of_notMem hhout _)
  obtain ⟨codes, rs, t, hcodes, hrun, hh, hb⟩ := issueAll_encs xs (s := State.answering 512#24
    (State.withHout (State.answering v { s with core := d }) (s.ports.hout.wrote (headerOf d.count allSymbols))))
    hfd hvd T (fun x hx => (T.leafIff x).mpr (hcount ▸ hxs x hx)) hbout
  exact ⟨codes, _, t, hd ▸ hcodes, issueAll_cons rfl hbuild (issueAll_cons rfl hser hrun), by rw [hh, hcount]; rfl, hb⟩

/-! ## The compressed file -/

/-- The file of the input `xs`: the header of a table `c` with the sum `xs.length`, and then whole bytes whose bits
begin with the codes of `xs` on the tree of `c` (R205). -/
structure Compressed (xs file : List Byte) (c : CoreState) (codes : List (List Bool)) : Prop where
  sum : c.tableSum = xs.length
  total : c.total.toNat = c.tableSum
  coded : List.Forall₂ (IsCode c.built) xs codes
  file : ∃ payload, file = headerOf c.count allSymbols ++ payload ∧ codes.flatten <+: unpack payload

/-- A compress run on fresh ports that do not fail (R202 to R205). -/
theorem compress_compressed {xs : List Byte} (pad : Byte) {s : State} (hne : xs ≠ [])
    (hxs : ∀ x : Byte, xs.count x ≤ 65535) (hf : s.core.fault = false) (hhout : s.ports.hout.data = [])
    (hbout : s.ports.bout.data = []) (hph : Answer.fails ∉ s.ports.hout.plan)
    (hpb : Answer.fails ∉ s.ports.bout.plan) :
    ∃ file t c codes, compress pad xs s = some (file, t) ∧ Compressed xs file c codes := by
  obtain ⟨rs, u, hscanRun, -, hscan, hports⟩ :=
    issueAll_fincs hf xs (s := State.answering 0#24 { s with core := s.core.clearTable })
      (Scanned.clearTable s.core) hxs
  rw [State.answering_ports] at hports
  have hcounted (x : Byte) (hx : x ∈ xs) : u.core.count x ≠ 0#16 := fun h0 => by
    have hzero : xs.count x = 0 := by simpa [h0] using (hscan.counts x).symm
    exact List.count_eq_zero.mp hzero hx
  have htotal : u.core.total.toNat = u.core.tableSum := hscan.total.trans hscan.sum.symm
  obtain ⟨codes, qs, t, hcodes, hrun, hh, hb⟩ := issueAll_secondPass (hscan.fault.trans hf) hscan.ti htotal hcounted
    (hports ▸ hph) (hports ▸ hpb)
  have hall := issueAll_cons rfl (exec_fclr hf) (issueAll_append hscanRun hrun)
  refine ⟨t.ports.file pad, t, u.core, codes, ?_, hscan.sum, htotal, hcodes, pack pad codes.flatten, ?_,
    prefix_unpack_pack pad _⟩
  · simp [compress, compressCommands, hall, hne]
  · rw [Ports.file, hh, hb, hports, hhout, hbout, List.nil_append, List.nil_append]

/-! ## The decompress run -/

/-- HDES of the header of a table restores the table and answers its sum (R186). -/
theorem exec_hdes_header {s : State} {rest : List Byte} (c : CoreState)
    (hf : s.core.fault = false) (hb : s.ports.hin.unread = headerOf c.count allSymbols ++ rest)
    (hp : noFailure 512 s.ports.hin.plan) : ∃ total : Weight, total.toNat = c.tableSum ∧ exec .hdes s = .next
      (State.answering total { s.withHin (s.ports.hin.took 512) with
        core := s.core.withTable c.freq total true false }) := by
  obtain ⟨f, total, hentry, htotal, hdes⟩ := hdesReadsTheHeader.2 s _ rest hf (by simp) hb hp
  have hfreq : f = c.freq := freq_ext fun x => by
    obtain ⟨hhi, hlo⟩ := headerOf_getElem? c.count (allSymbols_getElem?_toNat x)
    rw [hentry x _ _ hhi hlo, hiByte_append_loByte]
    rfl
  subst hfreq
  exact ⟨total, htotal.trans (sumBelow_eq_tableSum c), hdes⟩

/-- As many DECs as there are codes next in BIN answer their symbols (R166, R208). -/
theorem issueAll_decs {xs : List Byte} {codes : List (List Bool)} {s : State} {rest : List Bool}
    (hf : s.core.fault = false) (hv : s.core.tv = true) (T : TreeOk s.core)
    (hcodes : List.Forall₂ (IsCode s.core) xs codes) (hb : s.ports.bin.unread = codes.flatten ++ rest)
    (hp : Answer.fails ∉ s.ports.bin.plan) : ∃ rs t, issueAll (List.replicate xs.length .dec) s = some (rs, t) ∧
      rs.map (fun r => (rspValue r).setWidth 8) = xs := by
  generalize hc : s.core = c at hcodes
  induction hcodes generalizing s with
  | nil => exact ⟨[], s, rfl, rfl⟩
  | @cons x bits xs codes hx hxs ih =>
    subst hc
    rw [List.flatten_cons, List.append_assoc] at hb
    have hexec := decInvertsTheCode s x bits _ hf hv T hx hb (noFailure_of_notMem hp _)
    obtain ⟨rs, t, hrun, hvals⟩ :=
      ih (s := State.answering (x.setWidth 24) (s.withBin (s.ports.bin.took bits.length))) hf hv T
        (by rw [State.answering_ports, withBin_bin, InPort.took_unread, hb, List.drop_left])
        (fun hm => hp (List.mem_of_mem_drop hm)) rfl
    exact ⟨_, t, issueAll_cons rfl hexec hrun, by simp [hvals]⟩

/-- HDES and BUILD on a compressed file give the input's length as the first response, and a tree on which the input has
the same codes (R186, R148, R207). -/
theorem Compressed.issueAll_hdes_build {xs file : List Byte} {c : CoreState} {codes : List (List Bool)}
    (h : Compressed xs file c codes) {u : State} (hf : u.core.fault = false) :
    ∃ (total v : Weight) (t : State),
      issueAll [.hdes, .build] { u with ports := Ports.ofFile file } = some ([0x00#8 ++ total, 0x00#8 ++ v], t) ∧
      total.toNat = xs.length ∧ t.core.fault = false ∧ t.core.tv = true ∧ TreeOk t.core ∧
      List.Forall₂ (IsCode t.core) xs codes ∧ t.ports.bin = (Ports.ofFile file).bin := by
  obtain ⟨payload, hfile, -⟩ := h.file
  obtain ⟨total, htotal, hdes⟩ := exec_hdes_header (s := { u with ports := Ports.ofFile file }) c hf hfile
    (noFailure_of_notMem List.not_mem_nil _)
  have htable : total.toNat = (u.core.withTable c.freq total true false).tableSum :=
    htotal.trans (tableSum_congr rfl)
  obtain ⟨d, v, hbuild, hd, T, -, hfd, -, hvd⟩ := exec_build_tree (s := State.answering total
    { State.withHin { u with ports := Ports.ofFile file } ((Ports.ofFile file).hin.took 512) with
      core := u.core.withTable c.freq total true false }) hf rfl htable
  have hsame : SameBuild c.built d := by rw [hd]; exact built_congr rfl
  exact ⟨total, v, _, issueAll_cons rfl hdes (issueAll_cons rfl hbuild rfl), htotal.trans h.sum, hfd, hvd, T,
    h.coded.imp fun _ _ => hsame.isCode (built_treeOk h.total), rfl⟩

/-- A decompress run on a compressed file gives the input back, on every core without fault (R207 to R209). -/
theorem Compressed.decompress_eq {xs file : List Byte} {c : CoreState} {codes : List (List Bool)}
    (h : Compressed xs file c codes) {u : State} (hf : u.core.fault = false) : decompress file u = some xs := by
  obtain ⟨payload, hfile, rest, hrest⟩ := h.file
  obtain ⟨total, v, t, hrun, hlen, hft, hv, T, hcodes, hbin⟩ := h.issueAll_hdes_build hf
  have hheader : (headerOf c.count allSymbols).length = 512 := by simp
  have hunread : t.ports.bin.unread = codes.flatten ++ rest := by
    rw [hbin, hrest, InPort.unread, Ports.ofFile, hfile, List.drop_left' hheader, List.drop_zero]
  have hnonempty : file.isEmpty = false := by
    rw [List.isEmpty_eq_false_iff, ← List.length_pos_iff, hfile, List.length_append, hheader]
    omega
  obtain ⟨rs, t', hdecs, hvals⟩ := issueAll_decs hft hv T hcodes hunread (hbin ▸ List.not_mem_nil)
  simp [decompress, hnonempty, hrun, hlen, hdecs, hvals]

/-- Settles O57: an empty input makes an empty file (R201, R206); any other is compressed into a file that every core
without fault decompresses. -/
theorem roundTripRestoresTheInput : Obligations.RoundTripRestoresTheInput := by
  intro xs pad s hxs hf hhout hbout hph hpb
  by_cases hne : xs = []
  · subst hne
    exact ⟨[], s, rfl, fun _ _ => rfl⟩
  · obtain ⟨file, t, c, codes, hrun, hcomp⟩ := compress_compressed pad hne hxs hf hhout hbout hph hpb
    exact ⟨file, t, hrun, fun _ hu => hcomp.decompress_eq hu⟩

end Sys2Proof.Machine
end

section
/-! No step stops the model (70_reset_and_hazards.md R285): on a tree the walks of ENC and DEC end at a node they can
answer with, and no other body stops at all. -/

namespace Sys2Proof.Machine

open Sys2Proof

/-! ## A body that ends with a value or a fault -/

/-- The body ends with a value or with a fault of R221, in no stop of the model's own (log 11). -/
def Result.Answers {α : Type} : Result α → Prop
  | .done _ _ => True
  | .raised _ _ => True
  | .stuck _ => False

theorem Result.Answers.bind {α β : Type} {r : Result α} {k : α → State → Result β} (h : r.Answers)
    (hk : ∀ a s, (k a s).Answers) : (r.bind k).Answers := by
  cases r with
  | done a s => exact hk a s
  | raised e s => trivial
  | stuck f => exact h

/-- A sequence whose second part answers wherever the first can end. -/
theorem Result.Answers.bind_of_ends {α β : Type} {P : State → Prop} {r : Result α} {k : α → State → Result β}
    (h : r.Answers) (he : r.Ends P) (hk : ∀ a s, P s → (k a s).Answers) : (r.bind k).Answers := by
  cases r with
  | done a s => exact hk a s he
  | raised e s => trivial
  | stuck f => exact h

/-- A body that is only reached when its `require` passed. -/
theorem Result.Answers.require_of {α : Type} {c : Bool} {e : Code} {s : State} {k : Result α}
    (hk : c = true → k.Answers) : (Machine.require c e s k).Answers := by
  cases c with
  | false => trivial
  | true => exact hk rfl

/-- Behind the FAULT gate or by it, a body that ends is answered (R95, R231). -/
theorem runBody_answers (w : CmdWord) {b : State → Result Weight} {s : State} (h : (b s).Answers) :
    ∃ t, runBody w b s = .next t := by
  cases hg : gateCloses w s.core with
  | true => exact ⟨_, runBody_closed w b hg⟩
  | false =>
    rw [runBody_open w b hg]
    cases hb : b s with
    | done v u => exact ⟨_, rfl⟩
    | raised e u => exact ⟨_, rfl⟩
    | stuck f => rw [hb] at h; exact h.elim

/-! ## The transfers and their loops -/

theorem bitOut_answers (b : Bool) (s : State) : (bitOut b s).Answers := by
  unfold bitOut; split <;> trivial

theorem byteOut_answers (v : Byte) (s : State) : (byteOut v s).Answers := by
  unfold byteOut; split <;> trivial

theorem bitIn_answers (s : State) : (bitIn s).Answers := by
  unfold bitIn; split <;> trivial

theorem byteIn_answers (s : State) : (byteIn s).Answers := by
  unfold byteIn; split <;> trivial

theorem emitBits_answers (bits : List Bool) (s : State) : (emitBits bits s).Answers := by
  induction bits generalizing s with
  | nil => trivial
  | cons b bs ih => exact (bitOut_answers b s).bind fun _ t => ih t

theorem hserLoop_answers (syms : List Symbol) (s : State) : (hserLoop syms s).Answers := by
  induction syms generalizing s with
  | nil => trivial
  | cons x rest ih => exact (byteOut_answers _ s).bind fun _ t => (byteOut_answers _ t).bind fun _ u => ih u

theorem hdesLoop_answers (syms : List Symbol) (s : State) : (hdesLoop syms s).Answers := by
  induction syms generalizing s with
  | nil => trivial
  | cons x rest ih => exact (byteIn_answers s).bind fun _ t => (byteIn_answers t).bind fun _ _ => ih _

/-! ## The walk of DEC -/

/-- At an internal node the walk asks for a bit and goes on at a child (R171). -/
theorem walkDown_of_inner (fuel : Nat) {n : NodeIdx} {nd : Node} {s : State} (hnd : s.core.nodeAt n = some nd)
    (hz : nd.zero ≠ Config.nil) : walkDown (fuel + 1) n s =
      (bitIn s).bind fun b t => walkDown fuel (if b then nd.one else nd.zero) t := by
  rw [walkDown, hnd]
  simp only [if_neg hz]

/-- One of the first NLEAF nodes has no children and holds the symbol that ends the walk (R35 (e)). -/
theorem TreeOk.walkDown_leaf_answers {s : State} (T : TreeOk s.core) (fuel : Nat) {n : NodeIdx}
    (hn : n.toNat < s.core.nnodes.toNat) (hleaf : n.toNat < s.core.nleaf.toNat) :
    (walkDown (fuel + 1) n s).Answers := by
  obtain ⟨nd, hnd⟩ := nodeAt_isSome s.core (T.index_ne_nil hn)
  obtain ⟨hz, sym, hsym, -⟩ := T.leaves _ hleaf nd hnd
  rw [walkDown_leaf hnd hz hsym]
  trivial

/-- The walk down from a node ends: there is a bit left for every internal node up to it, and each bit leads to a lower
index (R35 (e), (f)). -/
theorem TreeOk.walkDown_answers (fuel : Nat) {s : State} (T : TreeOk s.core) (hl : 1 ≤ s.core.nleaf.toNat)
    {n : NodeIdx} (hn : n.toNat < s.core.nnodes.toNat) (hfuel : n.toNat < s.core.nleaf.toNat + fuel) :
    (walkDown (fuel + 1) n s).Answers := by
  induction fuel generalizing n s with
  | zero => exact T.walkDown_leaf_answers 0 hn hfuel
  | succ fuel ih =>
    rcases Nat.lt_or_ge n.toNat s.core.nleaf.toNat with hleaf | hinner
    · exact T.walkDown_leaf_answers (fuel + 1) hn hleaf
    · obtain ⟨nd, hnd⟩ := nodeAt_isSome s.core (T.index_ne_nil hn)
      have hz := (T.internals hl _ hn hinner nd hnd).1
      have hframe := (bitIn_frame s).mono (Q := fun t => t.core = s.core) fun t ht => by rw [ht.1.rest]; rfl
      rw [walkDown_of_inner _ hnd hz]
      refine (bitIn_answers s).bind_of_ends hframe fun b t ht => ?_
      have hbelow := T.child_lt hn hnd hz b
      rw [← ht] at T hl hn hfuel
      exact ih T hl (hbelow.trans hn) (by omega)

/-- From the root of a tree with a leaf the 256 nodes a walk may visit are enough (R38, R171). -/
theorem TreeOk.walkDown_root_answers {s : State} (T : TreeOk s.core) (hne : s.core.nleaf ≠ 0#9) :
    (walkDown 256 s.core.root s).Answers := by
  have hl := one_le_nleaf hne
  obtain ⟨hmax, hnodes, hroot⟩ := T.sizes_of_leaf hl
  exact T.walkDown_answers 255 hl T.root_lt (by omega)

/-! ## The commands -/

/-- ENC ends: a symbol with a leaf has a code (R161, R162). -/
theorem encBody_answers (sym : Symbol) {s : State} (h : s.core.Inv) : (encBody sym s).Answers := by
  refine .require_of fun hv => .require_of fun hx => ?_
  obtain ⟨bits, hcode, -⟩ := (h.tree hv).codeOf_isCode (bne_iff_ne.mp hx)
  rw [hcode]
  exact (emitBits_answers bits s).bind fun _ _ => trivial

/-- DEC ends: its walk does (R171). -/
theorem decBody_answers {s : State} (h : s.core.Inv) : (decBody s).Answers := by
  refine .require_of fun hv => .require_of fun hne => ?_
  exact ((h.tree hv).walkDown_root_answers (bne_iff_ne.mp hne)).bind fun _ _ => trivial

theorem bodyOf_answers (i : Instr) {s : State} (h : s.core.Inv) : (bodyOf i s).Answers := by
  cases i with
  | nop => trivial
  | fclr => trivial
  | finc x => exact .require_of fun _ => .require_of fun _ => trivial
  | frd x => exact .require_of fun _ => trivial
  | build => exact .require_of fun _ => trivial
  | enc x => exact encBody_answers x h
  | dec => exact decBody_answers h
  | hser => exact .require_of fun _ => (hserLoop_answers _ s).bind fun _ _ => trivial
  | hdes => exact (hdesLoop_answers _ _).bind fun _ _ => trivial
  | rdsr r => simp only [bodyOf, rdsrBody]; split <;> trivial
  | srst => trivial

/-- Every command word, legal or not, is answered (R95). -/
theorem handle_answers (c : CmdWord) {s : State} (h : s.core.Inv) : ∃ t, handle c s = .next t := by
  cases hd : decode c with
  | error r =>
    rw [handle_of_illegal hd]
    exact runBody_answers c trivial
  | ok i =>
    rw [handle_of_decode hd, exec_eq_runBody]
    exact runBody_answers _ (bodyOf_answers i h)

/-- Settles O49: a reset always answers, also one that cuts a command, and a command does because R35 holds while
TV = 1. -/
theorem noStepStops : Obligations.NoStepStops := by
  intro s h
  cases hin : s.inbox with
  | nil => exact ⟨s, by simp only [step, hin]⟩
  | cons m rest =>
    simp only [step, hin]
    cases m with
    | command c => exact handle_answers c (s := { s with inbox := rest }) h.core
    | hardReset => exact ⟨_, rfl⟩
    | commandCut c k => exact ⟨_, rfl⟩

end Sys2Proof.Machine
end

section
/-! The two ends of a stream inside a command: BIN inside a code (60_exceptions.md R228) and HIN inside the header
(R229). -/

namespace Sys2Proof.Machine

open Sys2Proof

/-- Settles O23: the request behind `pre` finds no bit. -/
theorem decExhaustionRaisesBitEof : Obligations.DecExhaustionRaisesBitEof := by
  intro s sym pre post b hf hv T hcode hb hp
  have hserved : noFailure pre.length s.ports.bin.plan := noFailure_mono (Nat.le_succ _) hp
  have hlast : noFailure 1 (s.ports.bin.took pre.length).plan := noFailure_drop hp
  have hend : (s.ports.bin.took pre.length).unread = [] := by simp [hb]
  have hbits : s.ports.bin.unread = pre ++ [] := by simp [hb]
  have hbody := T.decBody_raised hv hcode hbits hserved (bitIn_eof hlast (InPort.eof_of_unread hend))
  rw [withBin_withBin, withBin_bin, InPort.took_plan, List.drop_drop] at hbody
  exact exec_of_raised_in (i := .dec) hf hbody hf

/-- Settles O28: the request behind `got` finds no byte. -/
theorem hdesOnShortHeaderRaisesHdrShort : Obligations.HdesOnShortHeaderRaisesHdrShort := by
  intro s got hf hb hk hp
  obtain ⟨u, hread, hexec⟩ := exec_hdes_stopped hf hk (congrArg List.length hb).ge (noFailure_mono (Nat.le_succ _) hp)
  have hlast : noFailure 1 u.ports.hin.plan := by rw [hread.hin]; exact noFailure_drop hp
  have hend : u.ports.hin.unread = [] := by simp [hread.hin, hb]
  have hin := byteIn_eof hlast (InPort.eof_of_unread hend)
  rw [hread.hin, InPort.took_plan, List.drop_drop] at hin
  have hbytes : s.ports.hin.unread = got ++ [] := by simp [hb]
  exact ⟨u.core.freq, u.core.total, fun x hi lo => hread.entry hbytes, hread.kept, hread.sum, hexec _ _ hin⟩

end Sys2Proof.Machine
end

section
/-! What each command and each illegal word is answered (60_exceptions.md R221 to R224, R231 to R234, R239): the codes a
command can report, and the preconditions and the FAULT gate as equations. -/

namespace Sys2Proof.Machine

open Sys2Proof

/-! ## The codes a command can report -/

/-- A command answers OK, E_FAULTED or a code its body raises (R234). -/
theorem exec_code {i : Instr} {s t : State} (h : exec i s = .next t) :
    ∃ (e : BitVec 8) (v : Weight), t.responses = s.responses ++ [e ++ v] ∧
      e ∈ (.ok :: .faulted :: raisedCodes i : List Code).map Code.bits := by
  rcases exec_next h with ⟨-, rfl⟩ | ⟨-, v, u, -, hu, rfl⟩ | ⟨-, e, u, -, he, hu, rfl⟩
  · exact ⟨_, _, rfl, List.mem_map_of_mem (a := Code.faulted) (by simp)⟩
  · exact ⟨0x00#8, v, by rw [State.answering, hu.host.1], List.mem_map_of_mem (a := Code.ok) (by simp)⟩
  · exact ⟨_, _, by rw [raise_responses, hu.host.1], List.mem_map_of_mem (by simp [he])⟩

/-- A register number that is well formed names a register (R29, R91). -/
theorem statusReg_of_wellFormed {r : Byte} (h : (Instr.rdsr r).WellFormed) : ∃ reg, statusReg r = some reg := by
  have hr : r.toNat ≤ 6 := BitVec.le_def.mp (of_decide_eq_true h)
  obtain ⟨n, hn⟩ : ∃ n, n = r.toNat := ⟨_, rfl⟩
  obtain rfl : r = BitVec.ofNat 8 n := by rw [hn, BitVec.ofNat_toNat, BitVec.setWidth_eq]
  rw [← hn] at hr
  interval_cases n <;> exact ⟨_, rfl⟩

/-- A reset delivers nothing, and SRST answers 0 behind it (R193, R263). -/
theorem responses_answering_resetCore (s : State) :
    ((resetCore s).answering 0#24).responses = s.responses ++ [0x00#8 ++ 0#24] := by
  rw [State.answering, resetCore_responses]

/-- Settles O40: the system commands pass the FAULT gate and complete; each other command answers OK, E_FAULTED or a
code its body raises. -/
theorem codesEachCommandCanReport : Obligations.CodesEachCommandCanReport := by
  intro i s t hw h
  have hcode := exec_code h
  cases i with
  | nop => cases (exec_nop s).symm.trans h; exact ⟨_, _, rfl, rfl⟩
  | rdsr r =>
    obtain ⟨reg, hreg⟩ := statusReg_of_wellFormed hw
    cases (exec_rdsr hreg s).symm.trans h
    exact ⟨_, _, rfl, rfl⟩
  | srst =>
    injection (exec_srst s).symm.trans h with ht
    exact ⟨_, _, ht ▸ responses_answering_resetCore s, rfl⟩
  | fclr | finc | frd | build | enc | dec | hser | hdes => exact hcode

/-! ## The preconditions -/

theorem buildBody_noTable {s : State} (hi : s.core.ti = false) : buildBody s = .raised .noTable s := by
  rw [buildBody, hi, require_false]

theorem hserBody_noTable {s : State} (hi : s.core.ti = false) : hserBody s = .raised .noTable s := by
  rw [hserBody, hi, require_false]

theorem encBody_noTree {x : Symbol} {s : State} (hv : s.core.tv = false) : encBody x s = .raised .noTree s := by
  rw [encBody, hv, require_false]

theorem decBody_noTree {s : State} (hv : s.core.tv = false) : decBody s = .raised .noTree s := by
  rw [decBody, hv, require_false]

/-- Settles O31: the first check of each of the four fails. -/
theorem noTableRaisesNotable : Obligations.NoTableRaisesNotable := fun _ hf hi =>
  ⟨fun x => exec_of_raised (i := .finc x) hf (fincBody_noTable hi),
    fun x => exec_of_raised (i := .frd x) hf (frdBody_noTable hi),
    exec_of_raised (i := .build) hf (buildBody_noTable hi), exec_of_raised (i := .hser) hf (hserBody_noTable hi)⟩

/-- Settles O32: the first check of both fails. -/
theorem noTreeRaisesNotree : Obligations.NoTreeRaisesNotree := fun _ hf hv =>
  ⟨fun x => exec_of_raised (i := .enc x) hf (encBody_noTree hv),
    exec_of_raised (i := .dec) hf (decBody_noTree hv)⟩

/-! ## The FAULT gate and the illegal words -/

/-- While FAULT = 1 the gate is closed to the opcodes that are not those of NOP, RDSR and SRST (R231). -/
theorem gateCloses_iff_notMem {c : CoreState} (w : CmdWord) (h : c.fault = true) :
    gateCloses w c = true ↔ opField w ∉ [0x00#8, 0xF0#8, 0xFF#8] := by
  simp [gateCloses_of_fault w h, and_assoc]

/-- A word the gate is closed to, legal or not, is answered E_FAULTED and no more (R233). -/
theorem handle_closed {c : CmdWord} {s : State} (h : gateCloses c s.core = true) :
    handle c s = .next (s.declining 0x02#8) := by
  cases hd : decode c with
  | error r =>
    rw [handle_of_illegal hd]
    exact runBody_closed c _ h
  | ok i =>
    rw [← (encode_of_decode hd).2] at h
    rw [handle_of_decode hd, exec_eq_runBody]
    exact runBody_closed _ _ h

/-- Settles O37: the FAULT gate comes before legality. -/
theorem faultedCoreRefusesCommands : Obligations.FaultedCoreRefusesCommands := by
  intro s c rest hf hop
  rw [step_inbox_cons, takeMove_command]
  exact handle_closed ((gateCloses_iff_notMem c hf).mpr hop)

/-- The first fault, in an illegal word (R222). -/
theorem handle_illegal_of_noFault {c : CmdWord} {r : Reject} {s : State} (hd : decode c = .error r)
    (hf : s.core.fault = false) : handle c s = .next (s.faulting c 0x01#8) := by
  rw [handle_of_illegal hd, runBody_of_noFault c illegalBody hf, illegalBody, finish_raised, raise_of_noFault c _ hf]
  rfl

/-- A later fault, in an illegal word that passes the gate (R239). -/
theorem handle_illegal_of_fault {c : CmdWord} {r : Reject} {s : State} (hd : decode c = .error r)
    (hf : s.core.fault = true) (hop : opField c ∈ [0x00#8, 0xF0#8, 0xFF#8]) :
    handle c s = .next (s.declining 0x01#8) := by
  have hg : gateCloses c s.core = false :=
    Bool.eq_false_iff.mpr fun hg => (gateCloses_iff_notMem c hf).mp hg hop
  rw [handle_of_illegal hd, runBody_open c illegalBody hg, illegalBody, finish_raised_faulted c _ hf]
  rfl

/-- Settles O36: E_ILLEGAL is the first fault, or a later one behind the gate. -/
theorem illegalWordRaisesIllegal : Obligations.IllegalWordRaisesIllegal := by
  intro s c rest r hd
  rw [step_inbox_cons, takeMove_command]
  exact ⟨fun hf => handle_illegal_of_noFault hd hf, fun hf hop => handle_illegal_of_fault hd hf hop⟩

end Sys2Proof.Machine
end

section
/-! What the core does after a reset and without a command (70_reset_and_hazards.md R260, R261, R263, R264). -/

namespace Sys2Proof.Machine

open Sys2Proof

/-- Settles O2: both put `coreAfterReset` of the same number in the core. -/
theorem softResetActsAsHardReset : Obligations.SoftResetActsAsHardReset := by
  intro s rest
  refine ⟨_, _, exec_srst s, rfl, rfl, coreAfterReset_registers s.resets, ?_⟩
  simp [State.answering]

/-- Settles O51: the step without a move. -/
theorem coreWaitsForACommand : Obligations.CoreWaitsForACommand := fun s h => by simp only [step, h]

/-- `i` answers OK on `s` and leaves FAULT 0. -/
abbrev Completes (i : Instr) (s : State) : Prop :=
  ∃ (t : State) (v : Weight), exec i s = .next t ∧ t.responses = s.responses ++ [0x00#8 ++ v] ∧ t.core.fault = false

theorem completes_rdsr {r : Byte} {reg : StatusReg} {s : State} (hf : s.core.fault = false)
    (h : statusReg r = some reg) : Completes (.rdsr r) s := ⟨_, _, exec_rdsr h s, rfl, hf⟩

/-- HDES completes on 512 bytes, whatever the core holds (R184). -/
theorem completes_hdes {s : State} (hf : s.core.fault = false) (hlen : 512 ≤ s.ports.hin.unread.length)
    (hp : noFailure 512 s.ports.hin.plan) : Completes .hdes s := by
  obtain ⟨f, total, -, -, hexec⟩ := hdesReadsTheHeader.2 s (s.ports.hin.unread.take 512)
    (s.ports.hin.unread.drop 512) hf (List.length_take_of_le hlen) (List.take_append_drop ..).symm hp
  exact ⟨_, _, hexec, rfl, hf⟩

/-- Settles O39: five commands need neither table nor tree, and the first check of the others fails. -/
theorem firstCommandsAfterReset : Obligations.FirstCommandsAfterReset := by
  intro s hf hi hv
  obtain ⟨hfinc, hfrd, hbuild, hhser⟩ := noTableRaisesNotable s hf hi
  obtain ⟨henc, hdec⟩ := noTreeRaisesNotree s hf hv
  simp only [List.forall_mem_cons, List.not_mem_nil, false_implies, implies_true, and_true, encode_eq_wordOf]
  refine ⟨?_, completes_hdes hf, fun x => ⟨hfinc x, hfrd x, hbuild, hhser⟩, fun x => ⟨henc x, hdec⟩⟩
  exact ⟨⟨_, _, exec_nop s, rfl, hf⟩, ⟨_, _, exec_srst s, responses_answering_resetCore s, rfl⟩,
    ⟨_, _, exec_fclr hf, rfl, hf⟩,
    completes_rdsr hf (reg := .status) rfl, completes_rdsr hf (reg := .errcode) rfl,
    completes_rdsr hf (reg := .errcmd) rfl, completes_rdsr hf (reg := .total) rfl,
    completes_rdsr hf (reg := .nleaf) rfl, completes_rdsr hf (reg := .nnodes) rfl,
    completes_rdsr hf (reg := .root) rfl⟩

end Sys2Proof.Machine
end

section
/-! What a step leaves on the streams (20_memory.md R77, 60_exceptions.md R236, 70_reset_and_hazards.md R262, R263): it
takes nothing back, and a command cut by a reset leaves the first of its transfers. -/

namespace Sys2Proof.Machine

open Sys2Proof

/-! ## A port that moves on -/

/-- `q` is the output port `p` after requests that each added a unit, at most one of them aside. -/
structure OutPort.Advances {α : Type} (p q : OutPort α) : Prop where
  grows : p.data <+: q.data
  pace : p.data.length + q.asked ≤ q.data.length + p.asked + 1

/-- `q` is the input port `p` after requests that each moved the position by one, at most one of them aside. -/
structure InPort.Advances {α : Type} (p q : InPort α) : Prop where
  moves : p.pos ≤ q.pos
  pace : p.pos + q.asked ≤ q.pos + p.asked + 1

theorem OutPort.Advances.refl {α : Type} (p : OutPort α) : p.Advances p := ⟨List.prefix_refl _, Nat.le_succ _⟩

theorem InPort.Advances.refl {α : Type} (p : InPort α) : p.Advances p := ⟨Nat.le_refl _, Nat.le_succ _⟩

/-- A cut output stream gained the first `k` units it would have gained, or all of them (R262). -/
theorem OutPort.Advances.cut {α : Type} {p q : OutPort α} (h : p.Advances q) (k : Nat) : CutOut k p (p.cut k q) q := by
  refine ⟨fun hk => ?_, fun hk => OutPort.cut_whole hk, OutPort.cut_prefix k h.grows⟩
  obtain ⟨hcut, hlen⟩ := OutPort.cut_units hk h.pace
  exact ⟨by rw [hcut], hlen, by rw [hcut], by rw [hcut]⟩

/-- A cut input stream moved by `k` units, or as far as it would have moved (R262). -/
theorem InPort.Advances.cut {α : Type} {p q : InPort α} (h : p.Advances q) (k : Nat) : CutIn k p (p.cut k q) q := by
  refine ⟨fun hk => ?_, fun hk => InPort.cut_whole hk, InPort.cut_pos k h.moves, ?_⟩
  · rw [InPort.cut_units hk]
    exact ⟨rfl, rfl, rfl, rfl⟩
  · have hpace := h.pace
    rcases Nat.lt_or_ge (p.asked + k) q.asked with hk | hk
    · rw [InPort.cut_units hk]
      simp only
      omega
    · exact (congrArg InPort.pos (InPort.cut_whole hk)).le

/-- A cut output port has moved on as well. -/
theorem OutPort.Advances.cut_advances {α : Type} {p q : OutPort α} (h : p.Advances q) (k : Nat) :
    p.Advances (p.cut k q) := by
  obtain ⟨hpart, hwhole, hgrows, -⟩ := h.cut k
  rcases Nat.lt_or_ge (p.asked + k) q.asked with hk | hk
  · obtain ⟨-, hlen, -, hasked⟩ := hpart hk
    exact ⟨hgrows, by omega⟩
  · rwa [hwhole hk]

/-- A cut input port has moved on as well. -/
theorem InPort.Advances.cut_advances {α : Type} {p q : InPort α} (h : p.Advances q) (k : Nat) :
    p.Advances (p.cut k q) := by
  obtain ⟨hpart, hwhole, hmoves, -⟩ := h.cut k
  rcases Nat.lt_or_ge (p.asked + k) q.asked with hk | hk
  · obtain ⟨-, hpos, -, hasked⟩ := hpart hk
    exact ⟨hmoves, by omega⟩
  · rwa [hwhole hk]

/-! ## A command -/

/-- Every port of `q` has moved on from that of `p`. -/
structure Ports.Advance (p q : Ports) : Prop where
  hin : p.hin.Advances q.hin
  hout : p.hout.Advances q.hout
  bin : p.bin.Advances q.bin
  bout : p.bout.Advances q.bout

theorem Ports.Advance.of_eq {p q : Ports} (h : q = p) : p.Advance q := by
  subst h
  exact ⟨.refl _, .refl _, .refl _, .refl _⟩

theorem bodyOf_advances (i : Instr) (s : State) : (bodyOf i s).Ends fun u => s.ports.Advance u.ports := by
  refine ((bodyOf_ends i s).and (bodyOf_keepsPace i s)).mono fun u ⟨hend, hpace⟩ => ?_
  obtain ⟨hhout, hbout, hhin, hbin⟩ := hend.streams
  exact ⟨⟨hhin, hpace.hin⟩, ⟨hhout, hpace.hout⟩, ⟨hbin, hpace.bin⟩, ⟨hbout, hpace.bout⟩⟩

/-- The ports after a command are those its body left, or those before it if the gate refused it. -/
theorem runBody_advances {w : CmdWord} {b : State → Result Weight} {s t : State}
    (hb : (b s).Ends fun u => s.ports.Advance u.ports) (h : runBody w b s = .next t) : s.ports.Advance t.ports := by
  rcases runBody_next h with ⟨-, rfl⟩ | ⟨-, v, u, hu, rfl⟩ | ⟨-, e, u, hu, rfl⟩
  · exact .of_eq rfl
  · rw [hu] at hb
    exact hb
  · rw [hu] at hb
    exact hb

/-- Every command word, legal or not, only moves on in the streams (R236). -/
theorem handle_advances {c : CmdWord} {s t : State} (h : handle c s = .next t) : s.ports.Advance t.ports := by
  cases hd : decode c with
  | error r =>
    rw [handle_of_illegal hd] at h
    exact runBody_advances (b := illegalBody) (Ports.Advance.of_eq rfl) h
  | ok i =>
    rw [handle_of_decode hd, exec_eq_runBody] at h
    exact runBody_advances (bodyOf_advances i s) h

/-! ## A step -/

/-- A cut command that would have been answered leaves the reset state, no response and the cut ports (R262). -/
theorem cutByReset_next (k : Nat) (s u : State) :
    (cutByReset k s (.next u)).core = coreAfterReset s.resets ∧
      (cutByReset k s (.next u)).ports = s.ports.cut k u.ports ∧
      (cutByReset k s (.next u)).responses = s.responses ∧ (cutByReset k s (.next u)).inbox = s.inbox := by
  simp [cutByReset]

/-- Settles O46: the cut ports stand between those before the command and those after it. -/
theorem resetDuringCommandLeavesAPrefix : Obligations.ResetDuringCommandLeavesAPrefix := by
  intro s u c k rest h
  rw [step_inbox_cons, takeMove_command] at h
  obtain ⟨hhin, hhout, hbin, hbout⟩ := handle_advances h
  obtain ⟨hcore, hports, hresp, hinbox⟩ := cutByReset_next k { s with inbox := rest } u
  refine ⟨cutByReset k { s with inbox := rest } (.next u), ?_, ?_, hresp, hinbox, ?_⟩
  · rw [step_inbox_cons, takeMove, h]
  · rw [hcore]
    exact coreAfterReset_registers _
  · rw [hports]
    exact ⟨hhout.cut k, hbout.cut k, hhin.cut k, hbin.cut k⟩

/-- A cut command moves on in the streams as well (R262). -/
theorem cutByReset_advances (c : CmdWord) (k : Nat) (s : State) :
    s.ports.Advance (cutByReset k s (handle c s)).ports := by
  cases ho : handle c s with
  | next t =>
    obtain ⟨hhin, hhout, hbin, hbout⟩ := handle_advances ho
    obtain ⟨-, hports, -⟩ := cutByReset_next k s t
    rw [hports]
    exact ⟨hhin.cut_advances k, hhout.cut_advances k, hbin.cut_advances k, hbout.cut_advances k⟩
  | fault f => exact .of_eq (resetCore_ports s)
  | refused r => exact .of_eq (resetCore_ports s)

/-- Settles O45: a command moves on in the streams, a reset leaves them, and a cut leaves a part of the moves. -/
theorem streamsOnlyAdvance : Obligations.StreamsOnlyAdvance := by
  intro s t h
  suffices hadv : s.ports.Advance t.ports from
    ⟨hadv.hout.grows, hadv.bout.grows, hadv.hin.moves, hadv.bin.moves⟩
  cases hin : s.inbox with
  | nil =>
    rw [coreWaitsForACommand s hin] at h
    cases h
    exact .of_eq rfl
  | cons m rest =>
    simp only [step, hin] at h
    cases m with
    | command c => exact handle_advances (s := { s with inbox := rest }) h
    | hardReset =>
      injection h with h
      exact h ▸ .of_eq (resetCore_ports _)
    | commandCut c k =>
      injection h with h
      exact h ▸ cutByReset_advances c k { s with inbox := rest }

end Sys2Proof.Machine
end
